-- ==== Sys2Proof/Word.lean ====
section
/-! DEFINITION. The widths of HUFBLK's values (spec/00_scope.md rules R7 to R9) as abbreviations of core types. -/

namespace Sys2Proof

/-- A command word, response datum, CSR value or event counter: 64 bits (R7, `CMD_W`, `RSP_DATA_W`, `CTR_W`). -/
abbrev Word := BitVec 64

/-- A byte of the packed or decoded stream, an 8-bit accumulator or an 8-bit code. -/
abbrev Byte := BitVec 8

/-- A symbol, "an integer in [0, 256]" (R12); software sees it as a 9-bit field (`SYM_W`). -/
abbrev Symbol := Fin 257

/-- A 10-bit register that holds a node index or `NIL` (R7, `IDX_W`). -/
abbrev NodeIndex := BitVec 10

/-- An index of one of the 513 arena entries (R7, `NODE_N`). -/
abbrev ArenaIndex := Fin 513

/-- A frequency count at its greatest width, 32 bits (R7, `CNT_W`; R97 bounds `CNT_W` by 32). -/
abbrev Count := BitVec 32

/-- An aggregate frequency at its greatest width, 41 bits (R7, `AGG_W`). -/
abbrev Aggregate := BitVec 41

/-- A bit sequence, its first element the branch taken at the root (R9). -/
abbrev Bits := List Bool

end Sys2Proof
end

