-- ==== Sys2Proof/Config.lean ====
section
/-! DEFINITION. The parameters of an implementation of HUFBLK (spec/00_scope.md rule R7; 92_eei_decisions.md D5, D22)
the constants the spec fixes, and the one value the spec does not state, as a free value (log 17). -/

namespace Sys2Proof

/-- The two OPEN parameters (R7; 93_implementation_defined.md U13, U14). They are data a `State` carries and that
nothing changes, so that a statement about every state covers every implementation (log 3). -/
structure Config where
  /-- `CNT_W`: bits of one count; R97 asks for at most 32. -/
  cntW : Nat
  /-- `INQ_CAP`: capacity of the input queue in bytes, `none` for unbounded. -/
  inqCap : Option Nat
  deriving DecidableEq, Repr

/-- `CNT_MAX = 2^CNT_W − 1` (R7). -/
def Config.cntMax (c : Config) : Nat := 2 ^ c.cntW - 1

/-- The values this spec gives the parameters: 32 and unbounded (R7). -/
def Config.default : Config := { cntW := 32, inqCap := none }

/-- FREE VALUE (log 17, DESIGN CHOICE): what 64 bits show of the length of an unbounded input queue that holds 2^64 bytes
or more. The spec states no result there: modulo 2^64 is stated for the four event counters only (R263, D32, U21). -/
opaque Config.inqLengthBeyond : Nat → Word

/-- `SENTINEL`, symbol 256 (R7). -/
def sentinel : Symbol := 256

/-- `L_MAX`, the greatest codeword length (R7). -/
def lMax : Nat := 256

/-- `NIL`, the node index that means "no node" (R7). -/
def nilIndex : NodeIndex := 0x3FF#10

/-- The first internal node's index (R26, R28). -/
def firstInternal : NodeIndex := 257#10

end Sys2Proof
end

