-- ==== Sys2Proof/Machine/State.lean ====
section
/-! DEFINITION. The state of HUFBLK (spec/10_state.md rules R20 to R53), grouped by unit, with its reset value
(70_reset_and_hazards.md rule R281), and the reasons a step can stop. -/

namespace Sys2Proof.Machine

/-- What a node entry is (R25, field `kind`; value 3 never occurs). -/
inductive NodeKind where
  | free
  | leaf
  | internal
  deriving DecidableEq, Repr

/-- An entry of the node arena (R25). -/
structure Node where
  kind : NodeKind
  sym : Symbol
  left : NodeIndex
  right : NodeIndex
  freq : Aggregate
  key : Symbol
  deriving DecidableEq, Repr

/-- A FREE entry: `sym = 0`, `left = right = NIL`, `freq = 0`, `key = 0` (R25). -/
def Node.freeEntry : Node := { kind := .free, sym := 0, left := nilIndex, right := nilIndex, freq := 0#41, key := 0 }

/-- `TSTATE` (R29; value 3 never occurs). -/
inductive TState where
  | empty
  | building
  | built
  deriving DecidableEq, Repr

/-- `DSTATE` (R47). -/
inductive DState where
  | root
  | descending
  | done
  | error
  deriving DecidableEq, Repr

/-- The tree builder's state but for `FREQ` (R25 to R29). `pq` lists the members of the set `PQ` in rising order,
each once (log 6). -/
structure TreeUnit where
  node : Vector Node 513
  pq : List ArenaIndex
  root : NodeIndex
  next : NodeIndex
  tstate : TState
  deriving DecidableEq, Repr

/-- A pair of the inverse table (R32). -/
structure CodePair where
  code : Bits
  sym : Symbol
  deriving DecidableEq, Repr

/-- The code table (R31, R32, R34). `fwd[s]` is `none` where `FWD[s].valid = 0` (whose code is the empty sequence)
and `some code` where it is 1 (log 7). `inv` lists the set `INV` in rising order of symbols, each pair once (log 6). -/
structure CodeTable where
  fwd : Vector (Option Bits) 257
  inv : List CodePair
  nsym : BitVec 9
  deriving DecidableEq, Repr

/-- The bit writer (R41 to R43). -/
structure Writer where
  acc : Byte
  nb : BitVec 3
  wclosed : Bool
  wbitcnt : Word
  outcnt : Word
  deriving DecidableEq, Repr

/-- The input queue and the bit reader (R44 to R46). -/
structure Reader where
  inq : List Byte
  eoi : Bool
  racc : Byte
  rn : BitVec 3
  rbitcnt : Word
  deriving DecidableEq, Repr

/-- The decoder (R47 to R50). -/
structure Decoder where
  dstate : DState
  cur : Bits
  dcount : Word
  trunc : Bool
  deriving DecidableEq, Repr

/-- The error registers (R51). -/
structure ErrorRegs where
  lasterr : Byte
  errseen : Bool
  deriving DecidableEq, Repr

/-- What the host or the platform can do to the block (R90): give one command, or drive `rst`. -/
inductive HostInput where
  | command (w : Word)
  | reset
  deriving DecidableEq, Repr

/-- A transaction on one of the ports `cmd`, `rsp`, `out`, `dec` (R90). -/
inductive PortEvent where
  | cmd (w : Word)
  | out (b : Byte)
  | dec (b : Byte)
  | rsp (code : Byte) (data : Word)
  deriving DecidableEq, Repr

/-- The response codes (60_exceptions.md rule R241); every other value is never produced. -/
inductive RspCode where
  | ok
  | illegalCmd
  | badOperand
  | countOverflow
  | emptyFreq
  | treeState
  | cwOverflow
  | cwEmpty
  | codeConflict
  | dupSymbol
  | noCode
  | writerClosed
  | inputClosed
  | inqFull
  | tableEmpty
  | decoderState
  | decodeMismatch
  | needInput
  | inputExhausted
  deriving DecidableEq, Repr

/-- A response before it is sent (R95). -/
structure Reply where
  code : RspCode
  data : Word
  deriving DecidableEq, Repr

/-- The machine: the items of R20 by unit, then the model's own three fields. -/
structure State where
  /-- `FREQ[0..256]` (R23). -/
  freq : Vector Count 257
  /-- `NODE`, `PQ`, `ROOT`, `NEXT`, `TSTATE`. -/
  tree : TreeUnit
  /-- `FWD`, `INV`, `NSYM`. -/
  table : CodeTable
  /-- `CWR` (R40). -/
  cwr : Bits
  /-- `ACC`, `NB`, `WCLOSED`, `WBITCNT`, `OUTCNT`. -/
  writer : Writer
  /-- `INQ`, `EOI`, `RACC`, `RN`, `RBITCNT`. -/
  reader : Reader
  /-- `DSTATE`, `CUR`, `DCOUNT`, `TRUNC`. -/
  decoder : Decoder
  /-- `LASTERR`, `ERRSEEN`. -/
  err : ErrorRegs
  /-- `OUT`, oldest byte first (R52). -/
  out : List Byte
  /-- `DECOUT`, oldest byte first (R53). -/
  decout : List Byte
  /-- The model's own: the implementation's parameters, which nothing changes (log 3). -/
  cfg : Config
  /-- The model's own: the host inputs still to come, the next one first (R22, R90; log 1). -/
  pending : List HostInput
  /-- The model's own: the transactions since hardware reset, oldest first (R91, R95; log 2). -/
  ports : List PortEvent
  deriving DecidableEq, Repr

/-- Why the model stops. The block itself "never stops by itself" (R250): each reason is a state that the spec's
invariants rule out, where its pseudocode names no result (log 5). -/
inductive Fault where
  /-- Raised by `TB.STEP` and `TB.BUILD` when a merge finds fewer than two members in `PQ`, where R11 gives `min≺`
  no value; R29 rules it out. Safe. -/
  | queueUnderflow
  /-- Raised by `TB.STEP` and `TB.BUILD` when `NEXT` names no arena entry; R28 and R136 rule it out. Safe. -/
  | arenaOverflow
  /-- Raised by `CT.GEN` when the walk from `ROOT` meets a FREE entry, leaves the arena or does not end;
  R30 rules it out. Safe. -/
  | treeMalformed
  deriving DecidableEq, Repr

/-- Why the model gives an instruction no meaning. -/
inductive Refusal where
  /-- Raised by `exec` for an instruction that has no meaning yet. Safe. No arm raises it now. -/
  | notModelled (mnemonic : String)
  deriving DecidableEq, Repr

/-- What a command's meaning answers. -/
abbrev Result := Host.Outcome State Fault Refusal

/-- The tree unit at reset: no tree (R281). -/
def TreeUnit.reset : TreeUnit :=
  { node := Vector.replicate 513 Node.freeEntry, pq := [], root := nilIndex, next := firstInternal, tstate := .empty }

/-- The code table at reset: no table (R281). -/
def CodeTable.reset : CodeTable := { fwd := Vector.replicate 257 none, inv := [], nsym := 0#9 }

/-- A created, empty writer (R281). -/
def Writer.reset : Writer := { acc := 0#8, nb := 0#3, wclosed := false, wbitcnt := 0#64, outcnt := 0#64 }

/-- An empty queue and reader (R281). -/
def Reader.reset : Reader := { inq := [], eoi := false, racc := 0#8, rn := 0#3, rbitcnt := 0#64 }

/-- The decoder at the root (R281). -/
def Decoder.reset : Decoder := { dstate := .root, cur := [], dcount := 0#64, trunc := false }

/-- No error recorded (R281). -/
def ErrorRegs.reset : ErrorRegs := { lasterr := 0#8, errseen := false }

/-- An empty histogram with the sentinel's count 1 (R281). -/
def freqReset : Vector Count 257 := (Vector.replicate 257 0#32).set 256 1#32

/-- The machine right after hardware reset (R280, R281), with the spec's parameters and no input waiting. -/
def State.reset : State :=
  { freq := freqReset, tree := .reset, table := .reset, cwr := [], writer := .reset, reader := .reset,
    decoder := .reset, err := .reset, out := [], decout := [], cfg := .default, pending := [], ports := [] }

end Sys2Proof.Machine
end

