-- ==== Sys2Proof/Machine/Ops.lean ====
section
/-! DEFINITION. The operations the commands share: responses and faults (spec/60_exceptions.md rules R241, R243),
output logs (10_state.md rules R52, R53), bit sequences, the priority queue (00_scope.md rule R11), the merge
(41_tree_builder.md rule R132), the code table, `putbit` (43_bit_packer.md rule R181) and `getbit`
(44_bit_reader.md rule R198). -/

namespace Sys2Proof.Machine

/-! ## Responses and faults -/

/-- The number of a response code (R241). -/
def RspCode.num : RspCode → Byte
  | .ok => 0#8
  | .illegalCmd => 1#8
  | .badOperand => 2#8
  | .countOverflow => 3#8
  | .emptyFreq => 4#8
  | .treeState => 5#8
  | .cwOverflow => 6#8
  | .cwEmpty => 7#8
  | .codeConflict => 8#8
  | .dupSymbol => 9#8
  | .noCode => 10#8
  | .writerClosed => 11#8
  | .inputClosed => 12#8
  | .inqFull => 13#8
  | .tableEmpty => 14#8
  | .decoderState => 15#8
  | .decodeMismatch => 16#8
  | .needInput => 32#8
  | .inputExhausted => 33#8

/-- `respond(code, data)`: the response leaves on port `rsp` (R10, R91). -/
def State.respond (s : State) (c : RspCode) (d : Word) : State :=
  { s with ports := s.ports ++ [.rsp c.num d] }

/-- What a fault does to the error registers: `LASTERR <- code`, `ERRSEEN <- 1` (R243). -/
def State.recordFault (s : State) (c : RspCode) : State :=
  { s with err := { lasterr := c.num, errseen := true } }

/-- `raise <CODE>(data)`: the block's one way to take an exception (R240, R243). There is no return from it:
the next command is accepted as after any other response (R246). -/
def State.raise (s : State) (c : RspCode) (d : Word) : State :=
  (s.recordFault c).respond c d

/-! ## Output logs -/

/-- `emit OUT(b)` for each byte in order (R10, R52, R81). -/
def State.emitOut (s : State) (bs : List Byte) : State :=
  { s with out := s.out ++ bs, ports := s.ports ++ bs.map .out }

/-- `emit DEC(b)` (R10, R53). -/
def State.emitDec (s : State) (b : Byte) : State :=
  { s with decout := s.decout ++ [b], ports := s.ports ++ [.dec b] }

/-! ## Bit sequences -/

/-- The `n` low bits of `v`, bit `n − 1` first (R77, R151). -/
def bitsMsb {w : Nat} (v : BitVec w) : Nat → Bits
  | 0 => []
  | n + 1 => v.getLsbD n :: bitsMsb v n

/-- A bit sequence read as a binary number, first element most significant (R101). -/
def bitsValue (c : Bits) : Nat := c.foldl (fun n b => 2 * n + b.toNat) 0

/-- Elements `32k .. 32k + 31` of `c`, elements past its length read as 0, first element in bit 31 (R153). -/
def wordOfBits (c : Bits) (k : Nat) : BitVec 32 :=
  BitVec.ofNat 32 (bitsValue ((List.range 32).map fun j => c.getD (32 * k + j) false))

/-- `v` with bit `i` replaced by `b`: `v[i] <- b` (R10). -/
def setBit (v : Byte) (i : Nat) (b : Bool) : Byte :=
  if b then v ||| (1#8 <<< i) else v &&& ~~~(1#8 <<< i)

/-! ## The priority queue and the merge -/

/-- A vector given entry by entry. -/
def tabulate {α : Type} (n : Nat) (f : Fin n → α) : Vector α n :=
  Vector.mk ((List.finRange n).map f).toArray (by simp)

/-- `a ≺ b`: ascending frequency, then ascending key (R11). -/
def precedes (node : Vector Node 513) (a b : ArenaIndex) : Bool :=
  node[a].freq < node[b].freq || (node[a].freq == node[b].freq && node[a].key < node[b].key)

/-- `min≺` of the listed indices; none has a least element (R11). -/
def leastNode (node : Vector Node 513) : List ArenaIndex → Option ArenaIndex
  | [] => none
  | a :: l =>
    match leastNode node l with
    | none => some a
    | some b => some (if precedes node b a then b else a)

/-- `PQ ∪ {n}`, kept in rising order with no repeats (log 6). -/
def insertIndex (n : ArenaIndex) : List ArenaIndex → List ArenaIndex
  | [] => [n]
  | m :: l => if n < m then n :: m :: l else if n = m then m :: l else m :: insertIndex n l

/-- The index of a symbol's leaf: entry `s` (R26). -/
def leafIndex (s : Symbol) : ArenaIndex := ⟨s.val, by omega⟩

/-- `L`: the symbols with a non-zero count, rising (R131). -/
def presentSymbols (freq : Vector Count 257) : List Symbol :=
  (List.finRange 257).filter fun s => freq[s] ≠ 0#32

/-- The leaf `TB.INIT` makes for symbol `s` with count `c` (R131). -/
def leafNode (s : Symbol) (c : Count) : Node :=
  { kind := .leaf, sym := s, left := nilIndex, right := nilIndex, freq := c.setWidth 41, key := s }

/-- The arena `TB.INIT` leaves: a leaf at each present symbol's index, every other entry FREE (R26, R131). -/
def initialNodes (freq : Vector Count 257) : Vector Node 513 :=
  tabulate 513 fun n =>
    if h : n.val < 257 then
      if freq[n.val] ≠ 0#32 then leafNode ⟨n.val, h⟩ freq[n.val] else Node.freeEntry
    else Node.freeEntry

/-- The tree unit `TB.INIT` leaves when `L` is not empty (R131). -/
def initialTree (freq : Vector Count 257) : TreeUnit :=
  let pq := (presentSymbols freq).map leafIndex
  match pq with
  | [n] => { node := initialNodes freq, pq, root := BitVec.ofNat 10 n.val, next := firstInternal, tstate := .built }
  | _ => { node := initialNodes freq, pq, root := nilIndex, next := firstInternal, tstate := .building }

/-- The internal node over `a` (left, bit 0) and `b` (right, bit 1) (R132, R135). -/
def internalNode (node : Vector Node 513) (a b : ArenaIndex) : Node :=
  { kind := .internal, sym := 0, left := BitVec.ofNat 10 a.val, right := BitVec.ofNat 10 b.val,
    freq := node[a].freq + node[b].freq, key := min node[a].key node[b].key }

/-- One merge (R132): the tree unit after it and the new node's index. -/
def mergeOnce (t : TreeUnit) : Except Fault (TreeUnit × NodeIndex) :=
  match leastNode t.node t.pq with
  | none => .error .queueUnderflow
  | some a =>
    match leastNode t.node (t.pq.erase a) with
    | none => .error .queueUnderflow
    | some b =>
      if h : t.next.toNat < 513 then
        let n : ArenaIndex := ⟨t.next.toNat, h⟩
        let pq := insertIndex n ((t.pq.erase a).erase b)
        let t1 : TreeUnit :=
          { t with node := t.node.set n (internalNode t.node a b), pq := pq, next := t.next + 1#10 }
        if pq.length = 1 then .ok ({ t1 with root := t.next, tstate := .built }, t.next)
        else .ok (t1, t.next)
      else .error .arenaOverflow

/-- Merges while BUILDING, at most the given number (R134; log 8). -/
def mergeAll : Nat → TreeUnit → Except Fault TreeUnit
  | 0, t => .ok t
  | n + 1, t =>
    if t.tstate = .building then
      match mergeOnce t with
      | .ok (t1, _) => mergeAll n t1
      | .error e => .error e
    else .ok t

/-! ## The code table -/

/-- `p ≤pre c` (R9). -/
def isPre (p c : Bits) : Bool := p.isPrefixOf c

/-- `INV ∪ {(c, s)}`, kept in rising order of symbols (log 6). -/
def insertPair (e : CodePair) : List CodePair → List CodePair
  | [] => [e]
  | x :: l => if e.sym < x.sym then e :: x :: l else if x = e then x :: l else x :: insertPair e l

/-- `assign(s, c)`: `FWD[s] <- {1, c}`, `INV <- INV ∪ {(c, s)}`, `NSYM <- NSYM + 1` (R156, R157). -/
def CodeTable.assign (t : CodeTable) (e : CodePair) : CodeTable :=
  { fwd := t.fwd.set e.sym (some e.code), inv := insertPair e t.inv, nsym := t.nsym + 1#9 }

/-- `walk(n, p)` (R156): the pairs of the leaves below node `n`, whose path is `p`; none if the arena is no tree
there. The number bounds the depth (log 8). -/
def walk (node : Vector Node 513) : Nat → NodeIndex → Bits → Option (List CodePair)
  | 0, _, _ => none
  | d + 1, n, p =>
    match node[n.toNat]? with
    | none => none
    | some e =>
      match e.kind with
      | .free => none
      | .leaf => some [{ code := p, sym := e.sym }]
      | .internal =>
        match walk node d e.left (p ++ [false]), walk node d e.right (p ++ [true]) with
        | some l, some r => some (l ++ r)
        | _, _ => none

/-- The (codeword, symbol) pairs of the finished tree; a lone leaf gets `"0"` (R154, R156, R161). -/
def generatedPairs (t : TreeUnit) : Option (List CodePair) :=
  match t.node[t.root.toNat]? with
  | none => none
  | some e =>
    match e.kind with
    | .leaf => some [{ code := [false], sym := e.sym }]
    | _ => walk t.node 513 t.root []

/-- A node of the trie view of `INV` (R32). -/
inductive TrieNode where
  | absent
  | internal
  | leaf (s : Symbol)
  deriving DecidableEq, Repr

/-- What the trie view of `INV` holds at the path `p` (R32, R160, R211). The root, at the empty path, is always present. -/
def trieNode (inv : List CodePair) (p : Bits) : TrieNode :=
  match inv.find? fun e => e.code = p with
  | some e => .leaf e.sym
  | none => if p = [] ∨ inv.any fun e => isPre p e.code then .internal else .absent

/-! ## The bit writer -/

/-- `putbit(b)` (R181): the writer after it and the byte it emits, if its eighth bit was placed. -/
def putBit (w : Writer) (b : Bool) : Writer × Option Byte :=
  let acc := setBit w.acc (7 - w.nb.toNat) b
  let wbitcnt := w.wbitcnt + 1#64
  if w.nb = 7#3 then
    ({ w with acc := 0#8, nb := 0#3, wbitcnt := wbitcnt, outcnt := w.outcnt + 1#64 }, some acc)
  else
    ({ w with acc := acc, nb := w.nb + 1#3, wbitcnt := wbitcnt }, none)

/-- `putbit` for each bit in order: the writer after them and the bytes they emit (R182, R183). -/
def putBits (w : Writer) : Bits → Writer × List Byte
  | [] => (w, [])
  | b :: c =>
    let r := putBit w b
    let q := putBits r.1 c
    (q.1, r.2.toList ++ q.2)

/-- A codeword written, and the response of `BP.PUT` and `BP.ENC`: the number of bytes emitted (R182, R183). -/
def State.writeCode (s : State) (c : Bits) : State :=
  let r := putBits s.writer c
  ({ s with writer := r.1 }.emitOut r.2).respond .ok (BitVec.ofNat 64 r.2.length)

/-! ## The bit reader -/

/-- What `getbit()` returns (R198). -/
inductive ReadResult where
  | bit (b : Bool) (r : Reader)
  | need
  | exhausted
  deriving DecidableEq, Repr

/-- `getbit()` (R198). -/
def getBit (r : Reader) : ReadResult :=
  if r.rn = 0#3 then
    match r.inq with
    | [] => if r.eoi then .exhausted else .need
    | x :: q =>
      .bit (x.getLsbD 7) { r with inq := q, racc := x <<< 1, rn := 7#3, rbitcnt := r.rbitcnt + 1#64 }
  else
    .bit (r.racc.getLsbD 7) { r with racc := r.racc <<< 1, rn := r.rn - 1#3, rbitcnt := r.rbitcnt + 1#64 }

/-- The number of bits `getbit()` can still yield: the bound of the decoder's loops (R213, R214; log 8). -/
def Reader.available (r : Reader) : Nat := r.rn.toNat + 8 * r.inq.length

/-- `|INQ|` as a 64-bit value, the data of `IN.BYTE` and CSR `INQCNT` (R196, R54). An unbounded queue of 2^64 bytes or
more does not fit, and the spec does not say what is shown then: a free value (log 17, DESIGN CHOICE). -/
def queueLength (q : List Byte) : Word :=
  if q.length < 2 ^ 64 then BitVec.ofNat 64 q.length else Config.inqLengthBeyond q.length

/-! ## Reset -/

/-- Every item of state at its reset value except the output logs (R231, R281); the model's own fields stay. -/
def State.softReset (s : State) : State :=
  { State.reset with out := s.out, decout := s.decout, cfg := s.cfg, pending := s.pending, ports := s.ports }

end Sys2Proof.Machine
end

