-- ==== Sys2Proof/Machine/Operands.lean ====
section
/-! DEFINITION. The operand forms of the commands (spec/30_encoding.md rules R93, R96): an operand field read as the
index it names, or nothing where it is out of range (BAD_OPERAND, 60_exceptions.md rule R241 row 2). -/

namespace Sys2Proof.Machine

/-- A symbol 0..256. -/
def symbolOperand (a : BitVec 16) : Option Symbol :=
  if h : a.toNat < 257 then some ⟨a.toNat, h⟩ else none

/-- A byte 0..255. -/
def byteOperand (a : BitVec 16) : Option Byte :=
  if a.toNat ≤ 255 then some (a.setWidth 8) else none

/-- A byte 0..255 as the symbol it is the literal of (R123). -/
def literalOperand (a : BitVec 16) : Option Symbol :=
  if h : a.toNat < 256 then some ⟨a.toNat, by omega⟩ else none

/-- A node index 0..512. -/
def nodeOperand (a : BitVec 16) : Option ArenaIndex :=
  if h : a.toNat < 513 then some ⟨a.toNat, h⟩ else none

/-- A word index 0..7 into `CWR`. -/
def wordOperand (a : BitVec 16) : Option (Fin 8) :=
  if h : a.toNat < 8 then some ⟨a.toNat, h⟩ else none

/-- A bit count 1..32 and the bits below it, first the most significant (R151). -/
def bitsOperand (a : BitVec 16) (imm : BitVec 32) : Option Bits :=
  if a.toNat = 0 ∨ 32 < a.toNat then none
  else if 2 ^ a.toNat ≤ imm.toNat then none
  else some (bitsMsb imm a.toNat)

/-- The symbol and count of `FQ.SET`: a count up to `CNT_MAX`, not 0 for the sentinel (R122). -/
def countOperands (c : Config) (a : BitVec 16) (imm : BitVec 32) : Option (Symbol × Count) :=
  match symbolOperand a with
  | none => none
  | some s =>
    if c.cntMax < imm.toNat then none
    else if s = sentinel ∧ imm = 0#32 then none
    else some (s, imm)

/-- The control and status registers (10_state.md rule R54). -/
inductive Csr where
  | id
  | status
  | lasterr
  | nsym
  | pqcnt
  | root
  | next
  | wstat
  | rstat
  | cwlen
  | curlen
  | dcount
  | wbitcnt
  | rbitcnt
  | outcnt
  | inqcnt
  deriving DecidableEq, Repr

/-- A CSR number 0..15 (R54). -/
def csrOperand (a : BitVec 16) : Option Csr :=
  match a.toNat with
  | 0 => some .id
  | 1 => some .status
  | 2 => some .lasterr
  | 3 => some .nsym
  | 4 => some .pqcnt
  | 5 => some .root
  | 6 => some .next
  | 7 => some .wstat
  | 8 => some .rstat
  | 9 => some .cwlen
  | 10 => some .curlen
  | 11 => some .dcount
  | 12 => some .wbitcnt
  | 13 => some .rbitcnt
  | 14 => some .outcnt
  | 15 => some .inqcnt
  | _ => none

end Sys2Proof.Machine
end

