-- ==== Sys2Proof/Machine/Flags.lean ====
section
/-! DEFINITION. The block's flags and state fields as software sees them (spec/10_state.md rules R29, R47, R54, R55)
and what sets and clears each flag. No command computes a condition code (R55). -/

namespace Sys2Proof.Machine

/-- `NODE.kind` as a 2-bit field (R25). -/
def NodeKind.num : NodeKind → BitVec 2
  | .free => 0#2
  | .leaf => 1#2
  | .internal => 2#2

/-- `TSTATE` as a 2-bit field (R29). -/
def TState.num : TState → BitVec 2
  | .empty => 0#2
  | .building => 1#2
  | .built => 2#2

/-- `DSTATE` as a 2-bit field (R47). -/
def DState.num : DState → BitVec 2
  | .root => 0#2
  | .descending => 1#2
  | .done => 2#2
  | .error => 3#2

/-- A symbol as a 9-bit field (R7, `SYM_W`). -/
def symbolField (s : Symbol) : BitVec 9 := BitVec.ofNat 9 s.val

/-- `STATUS` (R54): `TSTATE` [1:0], `DSTATE` [3:2], `WCLOSED` [4], `EOI` [5], `TRUNC` [6], `ERRSEEN` [7]. -/
def State.statusWord (s : State) : Word :=
  0#56 ++ BitVec.ofBool s.err.errseen ++ BitVec.ofBool s.decoder.trunc ++ BitVec.ofBool s.reader.eoi
    ++ BitVec.ofBool s.writer.wclosed ++ s.decoder.dstate.num ++ s.tree.tstate.num

/-- `BP.FLUSH` sets `WCLOSED` (R184). -/
def Writer.close (w : Writer) : Writer := { w with wclosed := true }

/-- `IN.END` sets `EOI` (R197). -/
def Reader.endInput (r : Reader) : Reader := { r with eoi := true }

/-- A decode command at exhausted input sets `TRUNC` (R211). -/
def Decoder.markTruncated (d : Decoder) : Decoder := { d with trunc := true }

/-- `ERR.CLR` clears `LASTERR` and `ERRSEEN` (R233). -/
def ErrorRegs.cleared (_ : ErrorRegs) : ErrorRegs := { lasterr := 0#8, errseen := false }

end Sys2Proof.Machine
end

