-- ==== Sys2Proof/Machine/BitPacker.lean ====
section
/-! DEFINITION. The bit packer commands (spec/43_bit_packer.md rules R180 to R187). -/

namespace Sys2Proof.Machine

/-- `BP.RST` (R180). -/
def execBpRst (s : State) : Result :=
  .next ({ s with writer := Writer.reset }.respond .ok 0#64)

/-- `BP.PUT` (R182). -/
def execBpPut (s : State) : Result :=
  if s.writer.wclosed then .next (s.raise .writerClosed 0#64)
  else if s.cwr = [] then .next (s.raise .cwEmpty 0#64)
  else .next (s.writeCode s.cwr)

/-- `BP.ENC s` (R183). -/
def execBpEnc (a : BitVec 16) (s : State) : Result :=
  match symbolOperand a with
  | none => .next (s.raise .badOperand 0#64)
  | some sym =>
    if s.writer.wclosed then .next (s.raise .writerClosed 0#64)
    else
      match s.table.fwd[sym] with
      | none => .next (s.raise .noCode 0#64)
      | some c => .next (s.writeCode c)

/-- `BP.FLUSH` (R184). -/
def execBpFlush (s : State) : Result :=
  if s.writer.wclosed then .next (s.raise .writerClosed 0#64)
  else if s.writer.nb = 0#3 then .next ({ s with writer := s.writer.close }.respond .ok 0#64)
  else
    let w : Writer := { s.writer with acc := 0#8, nb := 0#3, outcnt := s.writer.outcnt + 1#64 }
    .next (({ s with writer := w.close }.emitOut [s.writer.acc]).respond .ok 1#64)

end Sys2Proof.Machine
end

