-- ==== Sys2Proof/Machine/BitReader.lean ====
section
/-! DEFINITION. The input queue and bit reader commands (spec/44_bit_reader.md rules R195 to R200). -/

namespace Sys2Proof.Machine

/-- `IN.RST` (R195). -/
def execInRst (s : State) : Result :=
  .next ({ s with reader := Reader.reset }.respond .ok 0#64)

/-- `IN.BYTE b` (R196). A queue of 2^64 bytes or more is answered with a free value (log 17, DESIGN CHOICE). -/
def execInByte (a : BitVec 16) (s : State) : Result :=
  match byteOperand a with
  | none => .next (s.raise .badOperand 0#64)
  | some b =>
    if s.reader.eoi then .next (s.raise .inputClosed 0#64)
    else if s.cfg.inqCap = some s.reader.inq.length then .next (s.raise .inqFull 0#64)
    else
      let q := s.reader.inq ++ [b]
      .next ({ s with reader := { s.reader with inq := q } }.respond .ok (queueLength q))

/-- `IN.END` (R197). -/
def execInEnd (s : State) : Result :=
  .next ({ s with reader := s.reader.endInput }.respond .ok 0#64)

/-- `IN.BIT` (R199). -/
def execInBit (s : State) : Result :=
  match getBit s.reader with
  | .need => .next (s.respond .needInput 0#64)
  | .exhausted => .next (s.respond .inputExhausted 0#64)
  | .bit b r => .next ({ s with reader := r }.respond .ok (BitVec.ofNat 64 b.toNat))

end Sys2Proof.Machine
end

