-- ==== Sys2Proof/Machine/CodeTable.lean ====
section
/-! DEFINITION. The code table commands (spec/42_codeword_lut.md rules R154 to R162). -/

namespace Sys2Proof.Machine

/-- `CT.CLR` (R155). -/
def execCtClr (s : State) : Result :=
  .next ({ s with table := CodeTable.reset }.respond .ok 0#64)

/-- `CT.GEN` (R156). -/
def execCtGen (s : State) : Result :=
  if s.tree.tstate = .built then
    match generatedPairs s.tree with
    | none => .fault .treeMalformed
    | some l =>
      let t := l.foldl CodeTable.assign CodeTable.reset
      .next ({ s with table := t }.respond .ok (t.nsym.setWidth 64))
  else .next (s.raise .treeState 0#64)

/-- Whether a stored codeword equals, extends or is a prefix of `c` (R157). -/
def codeConflicts (inv : List CodePair) (c : Bits) : Bool :=
  inv.any fun e => isPre e.code c || isPre c e.code

/-- `CT.INS s` (R157). -/
def execCtIns (a : BitVec 16) (s : State) : Result :=
  match symbolOperand a with
  | none => .next (s.raise .badOperand 0#64)
  | some sym =>
    if s.cwr = [] then .next (s.raise .cwEmpty 0#64)
    else if s.table.fwd[sym].isSome then .next (s.raise .dupSymbol 0#64)
    else if codeConflicts s.table.inv s.cwr then .next (s.raise .codeConflict 0#64)
    else
      let t := s.table.assign { code := s.cwr, sym := sym }
      .next ({ s with table := t }.respond .ok (t.nsym.setWidth 64))

/-- `CT.LKP s` (R159). -/
def execCtLkp (a : BitVec 16) (s : State) : Result :=
  match symbolOperand a with
  | none => .next (s.raise .badOperand 0#64)
  | some sym =>
    match s.table.fwd[sym] with
    | none => .next (s.raise .noCode 0#64)
    | some c => .next ({ s with cwr := c }.respond .ok (BitVec.ofNat 64 c.length))

/-- The data of `CT.FIND` (R160): kind in [1:0], the symbol of a leaf in [10:2]. -/
def TrieNode.found : TrieNode → Word
  | .absent => 0#64
  | .internal => 1#64
  | .leaf s => (symbolField s).setWidth 64 <<< 2 ||| 2#64

/-- `CT.FIND` (R160). -/
def execCtFind (s : State) : Result :=
  if s.cwr = [] then .next (s.raise .cwEmpty 0#64)
  else .next (s.respond .ok (trieNode s.table.inv s.cwr).found)

end Sys2Proof.Machine
end

