-- ==== Sys2Proof/Machine/CodewordRegister.lean ====
section
/-! DEFINITION. The codeword staging register commands (spec/42_codeword_lut.md rules R150 to R153). -/

namespace Sys2Proof.Machine

/-- `CW.CLR` (R150). -/
def execCwClr (s : State) : Result :=
  .next ({ s with cwr := [] }.respond .ok 0#64)

/-- `CW.APP n, v` (R151). -/
def execCwApp (a : BitVec 16) (imm : BitVec 32) (s : State) : Result :=
  match bitsOperand a imm with
  | none => .next (s.raise .badOperand 0#64)
  | some bits =>
    if lMax < s.cwr.length + bits.length then .next (s.raise .cwOverflow 0#64)
    else
      .next ({ s with cwr := s.cwr ++ bits }.respond .ok (BitVec.ofNat 64 (s.cwr ++ bits).length))

/-- `CW.RD k` (R153). -/
def execCwRd (a : BitVec 16) (s : State) : Result :=
  match wordOperand a with
  | none => .next (s.raise .badOperand 0#64)
  | some k => .next (s.respond .ok ((wordOfBits s.cwr k.val).setWidth 64))

end Sys2Proof.Machine
end

