-- ==== Sys2Proof/Machine/Decoder.lean ====
section
/-! DEFINITION. The decoder commands (spec/45_decoder.md rules R209 to R216). -/

namespace Sys2Proof.Machine

/-- `DEC.RST` (R210). -/
def execDecRst (s : State) : Result :=
  .next ({ s with decoder := Decoder.reset }.respond .ok 0#64)

/-- The decoder's move to the node for `cur`, the bit just read included (R209, R211). -/
def decodeMove (s : State) (cur : Bits) : State × Reply :=
  match trieNode s.table.inv cur with
  | .leaf sym =>
    if sym.val ≤ 255 then
      ({ s with decoder := { s.decoder with cur := [], dcount := s.decoder.dcount + 1#64, dstate := .root } }.emitDec
          (BitVec.ofNat 8 sym.val),
        { code := .ok, data := (symbolField sym).setWidth 64 <<< 2 ||| 1#64 })
    else
      ({ s with decoder := { s.decoder with cur := [], dstate := .done } },
        { code := .ok, data := 256#64 <<< 2 ||| 2#64 })
  | .internal =>
    ({ s with decoder := { s.decoder with cur := cur, dstate := .descending } }, { code := .ok, data := 0#64 })
  | .absent =>
    ({ s with decoder := { s.decoder with cur := cur, dstate := .error } }.recordFault .decodeMismatch,
      { code := .decodeMismatch, data := s.reader.rbitcnt })

/-- One transition of the decoder and its response, not yet sent; a fault's effect on the error registers is
included (R211, R213). -/
def decodeBit (s : State) : State × Reply :=
  if s.table.nsym = 0#9 then (s.recordFault .tableEmpty, { code := .tableEmpty, data := 0#64 })
  else if s.decoder.dstate = .done ∨ s.decoder.dstate = .error then
    (s.recordFault .decoderState, { code := .decoderState, data := 0#64 })
  else
    match getBit s.reader with
    | .need => (s, { code := .needInput, data := 0#64 })
    | .exhausted =>
      ({ s with decoder := s.decoder.markTruncated }, { code := .inputExhausted, data := s.decoder.dcount })
    | .bit b r => decodeMove { s with reader := r } (s.decoder.cur ++ [b])

/-- Sends a decode command's response. -/
def sendReply (r : State × Reply) : State := r.1.respond r.2.code r.2.data

/-- `DEC.BIT` (R211). -/
def execDecBit (s : State) : Result := .next (sendReply (decodeBit s))

/-- The kind field [1:0] of a decode response (R211): 0 NONE, 1 LITERAL, 2 SENTINEL. -/
def Reply.kind (r : Reply) : BitVec 2 := r.data.extractLsb' 0 2

/-- `DEC.SYM`'s loop (R213): transitions until one answers anything but `(OK, NONE)`. The number bounds the
transitions; it is the bits available, so the last one finds none (log 8). -/
def decodeSymbol : Nat → State → State × Reply
  | 0, s => decodeBit s
  | n + 1, s =>
    let r := decodeBit s
    if r.2.code = .ok ∧ r.2.kind = 0#2 then decodeSymbol n r.1 else r

/-- `DEC.SYM` (R213). -/
def execDecSym (s : State) : Result := .next (sendReply (decodeSymbol s.reader.available s))

/-- `DEC.RUN`'s loop (R214): transitions until one answers the sentinel, a fault or a condition (log 8). -/
def decodeRun : Nat → State → State × Reply
  | 0, s => decodeBit s
  | n + 1, s =>
    let r := decodeBit s
    if r.2.code = .ok ∧ r.2.kind ≠ 2#2 then decodeRun n r.1 else r

/-- `DEC.RUN` (R214): at the sentinel the data is `DCOUNT`. -/
def execDecRun (s : State) : Result :=
  let r := decodeRun s.reader.available s
  if r.2.code = .ok then .next (r.1.respond .ok r.1.decoder.dcount) else .next (sendReply r)

end Sys2Proof.Machine
end

