-- ==== Sys2Proof/Machine/FrequencyTable.lean ====
section
/-! DEFINITION. The frequency memory commands (spec/40_frequency_table.md rules R120 to R125). -/

namespace Sys2Proof.Machine

/-- `FQ.CLR` (R121). -/
def execFqClr (s : State) : Result :=
  .next ({ s with freq := freqReset }.respond .ok 0#64)

/-- `FQ.SET s, c` (R122). -/
def execFqSet (a : BitVec 16) (imm : BitVec 32) (s : State) : Result :=
  match countOperands s.cfg a imm with
  | none => .next (s.raise .badOperand 0#64)
  | some (sym, c) => .next ({ s with freq := s.freq.set sym c }.respond .ok 0#64)

/-- `FQ.INC b` (R123). -/
def execFqInc (a : BitVec 16) (s : State) : Result :=
  match literalOperand a with
  | none => .next (s.raise .badOperand 0#64)
  | some b =>
    if s.freq[b].toNat = s.cfg.cntMax then .next (s.raise .countOverflow 0#64)
    else .next ({ s with freq := s.freq.set b (s.freq[b] + 1#32) }.respond .ok 0#64)

/-- `FQ.RD s` (R124). -/
def execFqRd (a : BitVec 16) (s : State) : Result :=
  match symbolOperand a with
  | none => .next (s.raise .badOperand 0#64)
  | some sym => .next (s.respond .ok (s.freq[sym].setWidth 64))

end Sys2Proof.Machine
end

