-- ==== Sys2Proof/Machine/System.lean ====
section
/-! DEFINITION. The system commands (spec/46_system.md rules R230 to R233). -/

namespace Sys2Proof.Machine

/-- `NOP` (R230). -/
def execNop (s : State) : Result := .next (s.respond .ok 0#64)

/-- `SRST` (R231). -/
def execSrst (s : State) : Result := .next (s.softReset.respond .ok 0#64)

/-- A length shown in a 9-bit field (R54: `PQCNT`, `CWLEN`, `CURLEN`). -/
def lengthField (n : Nat) : Word := (BitVec.ofNat 9 n).setWidth 64

/-- The value of a CSR (10_state.md rule R54). INQCNT of 2^64 bytes or more is a free value (log 17, DESIGN CHOICE). -/
def csrValue (s : State) : Csr → Word
  | .id => 0x4855464600000001#64
  | .status => s.statusWord
  | .lasterr => s.err.lasterr.setWidth 64
  | .nsym => s.table.nsym.setWidth 64
  | .pqcnt => lengthField s.tree.pq.length
  | .root => s.tree.root.setWidth 64
  | .next => s.tree.next.setWidth 64
  | .wstat => 0#53 ++ s.writer.nb ++ s.writer.acc
  | .rstat => 0#53 ++ s.reader.rn ++ s.reader.racc
  | .cwlen => lengthField s.cwr.length
  | .curlen => lengthField s.decoder.cur.length
  | .dcount => s.decoder.dcount
  | .wbitcnt => s.writer.wbitcnt
  | .rbitcnt => s.reader.rbitcnt
  | .outcnt => s.writer.outcnt
  | .inqcnt => queueLength s.reader.inq

/-- `CSR.RD n` (R232). -/
def execCsrRd (a : BitVec 16) (s : State) : Result :=
  match csrOperand a with
  | none => .next (s.raise .badOperand 0#64)
  | some n => .next (s.respond .ok (csrValue s n))

/-- `ERR.CLR` (R233). -/
def execErrClr (s : State) : Result :=
  .next ({ s with err := s.err.cleared }.respond .ok 0#64)

end Sys2Proof.Machine
end

