-- ==== Sys2Proof/Machine/TreeBuilder.lean ====
section
/-! DEFINITION. The tree builder commands (spec/41_tree_builder.md rules R130 to R143). -/

namespace Sys2Proof.Machine

/-- `TB.INIT` (R131). -/
def execTbInit (s : State) : Result :=
  if presentSymbols s.freq = [] then .next (s.raise .emptyFreq 0#64)
  else .next ({ s with tree := initialTree s.freq }.respond .ok (BitVec.ofNat 64 (presentSymbols s.freq).length))

/-- `TB.STEP` (R132). -/
def execTbStep (s : State) : Result :=
  if s.tree.tstate = .building then
    match mergeOnce s.tree with
    | .error e => .fault e
    | .ok (t, n) => .next ({ s with tree := t }.respond .ok (n.setWidth 64))
  else .next (s.raise .treeState 0#64)

/-- `TB.BUILD` (R134). -/
def execTbBuild (s : State) : Result :=
  if presentSymbols s.freq = [] then .next (s.raise .emptyFreq 0#64)
  else
    match mergeAll (presentSymbols s.freq).length (initialTree s.freq) with
    | .error e => .fault e
    | .ok t => .next ({ s with tree := t }.respond .ok (t.root.setWidth 64))

/-- What `TB.RDN n` reads (R137): 23 zero bits, `inpq`, `right`, `left`, `sym`, `key`, `kind`. -/
def nodeRecord (t : TreeUnit) (n : ArenaIndex) : Word :=
  let e := t.node[n]
  0#23 ++ BitVec.ofBool (t.pq.contains n) ++ e.right ++ e.left ++ symbolField e.sym ++ symbolField e.key ++ e.kind.num

/-- `TB.RDN n` (R137). -/
def execTbRdn (a : BitVec 16) (s : State) : Result :=
  match nodeOperand a with
  | none => .next (s.raise .badOperand 0#64)
  | some n => .next (s.respond .ok (nodeRecord s.tree n))

/-- `TB.RDF n` (R138). -/
def execTbRdf (a : BitVec 16) (s : State) : Result :=
  match nodeOperand a with
  | none => .next (s.raise .badOperand 0#64)
  | some n => .next (s.respond .ok (s.tree.node[n].freq.setWidth 64))

/-- `TB.FREE` (R139). -/
def execTbFree (s : State) : Result :=
  .next ({ s with tree := TreeUnit.reset }.respond .ok 0#64)

end Sys2Proof.Machine
end

