-- ==== Sys2Proof/Syntax.lean ====
section
/-! DEFINITION. The 34 commands (spec/30_encoding.md rule R96) and the assembler's pseudo-instructions (R101). -/

namespace Sys2Proof

/-- A command, one constructor per row of the opcode map (R96). An operand is the whole field as it stands in the
word (R92, R93): `a` is the 16-bit field `A`, `imm` the 32-bit field `IMM`; a value outside the command's range
is still that command, which refuses it when it runs (R94 step 3). -/
inductive Instr where
  | nop
  | srst
  | csrRd (a : BitVec 16)
  | errClr
  | fqClr
  | fqSet (a : BitVec 16) (imm : BitVec 32)
  | fqInc (a : BitVec 16)
  | fqRd (a : BitVec 16)
  | tbInit
  | tbStep
  | tbBuild
  | tbRdn (a : BitVec 16)
  | tbRdf (a : BitVec 16)
  | tbFree
  | cwClr
  | cwApp (a : BitVec 16) (imm : BitVec 32)
  | cwRd (a : BitVec 16)
  | ctClr
  | ctGen
  | ctIns (a : BitVec 16)
  | ctLkp (a : BitVec 16)
  | ctFind
  | bpRst
  | bpPut
  | bpEnc (a : BitVec 16)
  | bpFlush
  | inRst
  | inByte (a : BitVec 16)
  | inEnd
  | inBit
  | decRst
  | decBit
  | decSym
  | decRun
  deriving DecidableEq, Repr

/-- A row of the opcode map (R96). -/
structure OpcodeRow where
  mnemonic : String
  pattern : Word
  mask : Word
  deriving DecidableEq, Repr

/-- A pseudo-instruction of the assembler (R101); the block sees only its expansion (Machine/Sessions.lean). -/
inductive Pseudo where
  /-- `CW.PUSH b` -/
  | cwPush (b : Bool)
  /-- `CW.SET "bits"` -/
  | cwSet (bits : Bits)
  /-- `CT.ROW s, "bits"` -/
  | ctRow (s : BitVec 16) (bits : Bits)
  /-- `FQ.HIST "text"` -/
  | fqHist (text : List Byte)
  /-- `BP.TEXT "text"` -/
  | bpText (text : List Byte)
  /-- `BP.EOS` -/
  | bpEos
  /-- `IN.BYTES b0, b1, ...` -/
  | inBytes (operands : List (BitVec 16))
  deriving DecidableEq, Repr

end Sys2Proof
end

