-- ==== Sys2Proof/Machine/Dispatch.lean ====
section
/-! DEFINITION. The meaning of every command, one arm per constructor. -/

namespace Sys2Proof.Machine

def exec (i : Instr) (s : State) : Host.Outcome State Fault Refusal :=
  match i with
  | .nop => Sys2Proof.Machine.execNop s
  | .srst => Sys2Proof.Machine.execSrst s
  | .csrRd a => Sys2Proof.Machine.execCsrRd a s
  | .errClr => Sys2Proof.Machine.execErrClr s
  | .fqClr => Sys2Proof.Machine.execFqClr s
  | .fqSet a imm => Sys2Proof.Machine.execFqSet a imm s
  | .fqInc a => Sys2Proof.Machine.execFqInc a s
  | .fqRd a => Sys2Proof.Machine.execFqRd a s
  | .tbInit => Sys2Proof.Machine.execTbInit s
  | .tbStep => Sys2Proof.Machine.execTbStep s
  | .tbBuild => Sys2Proof.Machine.execTbBuild s
  | .tbRdn a => Sys2Proof.Machine.execTbRdn a s
  | .tbRdf a => Sys2Proof.Machine.execTbRdf a s
  | .tbFree => Sys2Proof.Machine.execTbFree s
  | .cwClr => Sys2Proof.Machine.execCwClr s
  | .cwApp a imm => Sys2Proof.Machine.execCwApp a imm s
  | .cwRd a => Sys2Proof.Machine.execCwRd a s
  | .ctClr => Sys2Proof.Machine.execCtClr s
  | .ctGen => Sys2Proof.Machine.execCtGen s
  | .ctIns a => Sys2Proof.Machine.execCtIns a s
  | .ctLkp a => Sys2Proof.Machine.execCtLkp a s
  | .ctFind => Sys2Proof.Machine.execCtFind s
  | .bpRst => Sys2Proof.Machine.execBpRst s
  | .bpPut => Sys2Proof.Machine.execBpPut s
  | .bpEnc a => Sys2Proof.Machine.execBpEnc a s
  | .bpFlush => Sys2Proof.Machine.execBpFlush s
  | .inRst => Sys2Proof.Machine.execInRst s
  | .inByte a => Sys2Proof.Machine.execInByte a s
  | .inEnd => Sys2Proof.Machine.execInEnd s
  | .inBit => Sys2Proof.Machine.execInBit s
  | .decRst => Sys2Proof.Machine.execDecRst s
  | .decBit => Sys2Proof.Machine.execDecBit s
  | .decSym => Sys2Proof.Machine.execDecSym s
  | .decRun => Sys2Proof.Machine.execDecRun s

end Sys2Proof.Machine
end

