-- ==== Sys2Proof/Decode.lean ====
section
/-! DEFINITION. The command word, its decoder and its encoder (spec/30_encoding.md rules R92 to R99). -/

namespace Sys2Proof

/-- Why a word is no command (R94 steps 1 and 2; R98). The block answers each with ILLEGAL_CMD. -/
inductive DecodeReject where
  /-- `OP` is none of the 34 opcodes. -/
  | unknownOp
  /-- `RSV ≠ 0`. -/
  | reservedNotZero
  /-- `A ≠ 0` in a command without an `A` operand. -/
  | unusedANotZero
  /-- `IMM ≠ 0` in a command without an `IMM` operand. -/
  | unusedImmNotZero
  deriving DecidableEq, Repr

/-- `OP`, bits [63:56] (R92). -/
def opField (w : Word) : BitVec 8 := w.extractLsb' 56 8

/-- `RSV`, bits [55:48]. -/
def rsvField (w : Word) : BitVec 8 := w.extractLsb' 48 8

/-- `A`, bits [47:32]. -/
def aField (w : Word) : BitVec 16 := w.extractLsb' 32 16

/-- `IMM`, bits [31:0]. -/
def immField (w : Word) : BitVec 32 := w.extractLsb' 0 32

/-- Which operand fields a command has, and the command they make (R96, columns `A` and `IMM`). -/
inductive Shape where
  | plain (i : Instr)
  | withA (mk : BitVec 16 → Instr)
  | withAImm (mk : BitVec 16 → BitVec 32 → Instr)

/-- The opcode map (R96): the shape of the command an opcode value names. -/
def shapeOf (op : BitVec 8) : Option Shape :=
  match op.toNat with
  | 0x00 => some (.plain .nop)
  | 0x01 => some (.plain .srst)
  | 0x02 => some (.withA .csrRd)
  | 0x03 => some (.plain .errClr)
  | 0x10 => some (.plain .fqClr)
  | 0x11 => some (.withAImm .fqSet)
  | 0x12 => some (.withA .fqInc)
  | 0x13 => some (.withA .fqRd)
  | 0x20 => some (.plain .tbInit)
  | 0x21 => some (.plain .tbStep)
  | 0x22 => some (.plain .tbBuild)
  | 0x23 => some (.withA .tbRdn)
  | 0x24 => some (.withA .tbRdf)
  | 0x25 => some (.plain .tbFree)
  | 0x30 => some (.plain .cwClr)
  | 0x31 => some (.withAImm .cwApp)
  | 0x32 => some (.withA .cwRd)
  | 0x38 => some (.plain .ctClr)
  | 0x39 => some (.plain .ctGen)
  | 0x3A => some (.withA .ctIns)
  | 0x3B => some (.withA .ctLkp)
  | 0x3C => some (.plain .ctFind)
  | 0x40 => some (.plain .bpRst)
  | 0x41 => some (.plain .bpPut)
  | 0x42 => some (.withA .bpEnc)
  | 0x43 => some (.plain .bpFlush)
  | 0x50 => some (.plain .inRst)
  | 0x51 => some (.withA .inByte)
  | 0x52 => some (.plain .inEnd)
  | 0x53 => some (.plain .inBit)
  | 0x60 => some (.plain .decRst)
  | 0x61 => some (.plain .decBit)
  | 0x62 => some (.plain .decSym)
  | 0x63 => some (.plain .decRun)
  | _ => none

/-- The command a word spells, or why it spells none, in the order of R94 steps 1 and 2. Total (R99). -/
def decode (w : Word) : Except DecodeReject Instr :=
  match shapeOf (opField w) with
  | none => .error .unknownOp
  | some sh =>
    if rsvField w ≠ 0#8 then .error .reservedNotZero
    else match sh with
      | .plain i =>
        if aField w ≠ 0#16 then .error .unusedANotZero
        else if immField w ≠ 0#32 then .error .unusedImmNotZero
        else .ok i
      | .withA mk => if immField w ≠ 0#32 then .error .unusedImmNotZero else .ok (mk (aField w))
      | .withAImm mk => .ok (mk (aField w) (immField w))

/-- The word with opcode `op`, `RSV = 0`, and the given fields (R92). -/
def commandWord (op : BitVec 8) (a : BitVec 16) (imm : BitVec 32) : Word := op ++ 0#8 ++ a ++ imm

/-- The word that spells a command (R96). -/
def encode : Instr → Word
  | .nop => commandWord 0x00#8 0#16 0#32
  | .srst => commandWord 0x01#8 0#16 0#32
  | .csrRd a => commandWord 0x02#8 a 0#32
  | .errClr => commandWord 0x03#8 0#16 0#32
  | .fqClr => commandWord 0x10#8 0#16 0#32
  | .fqSet a imm => commandWord 0x11#8 a imm
  | .fqInc a => commandWord 0x12#8 a 0#32
  | .fqRd a => commandWord 0x13#8 a 0#32
  | .tbInit => commandWord 0x20#8 0#16 0#32
  | .tbStep => commandWord 0x21#8 0#16 0#32
  | .tbBuild => commandWord 0x22#8 0#16 0#32
  | .tbRdn a => commandWord 0x23#8 a 0#32
  | .tbRdf a => commandWord 0x24#8 a 0#32
  | .tbFree => commandWord 0x25#8 0#16 0#32
  | .cwClr => commandWord 0x30#8 0#16 0#32
  | .cwApp a imm => commandWord 0x31#8 a imm
  | .cwRd a => commandWord 0x32#8 a 0#32
  | .ctClr => commandWord 0x38#8 0#16 0#32
  | .ctGen => commandWord 0x39#8 0#16 0#32
  | .ctIns a => commandWord 0x3A#8 a 0#32
  | .ctLkp a => commandWord 0x3B#8 a 0#32
  | .ctFind => commandWord 0x3C#8 0#16 0#32
  | .bpRst => commandWord 0x40#8 0#16 0#32
  | .bpPut => commandWord 0x41#8 0#16 0#32
  | .bpEnc a => commandWord 0x42#8 a 0#32
  | .bpFlush => commandWord 0x43#8 0#16 0#32
  | .inRst => commandWord 0x50#8 0#16 0#32
  | .inByte a => commandWord 0x51#8 a 0#32
  | .inEnd => commandWord 0x52#8 0#16 0#32
  | .inBit => commandWord 0x53#8 0#16 0#32
  | .decRst => commandWord 0x60#8 0#16 0#32
  | .decBit => commandWord 0x61#8 0#16 0#32
  | .decSym => commandWord 0x62#8 0#16 0#32
  | .decRun => commandWord 0x63#8 0#16 0#32

/-- The 64-bit word of a table word `w` of `nbits` bits: the bits at and above `nbits` are 0 (R92: one format, 64 bits). -/
def tableWord (nbits w : Nat) : Word := BitVec.ofNat 64 (w % 2 ^ nbits)

/-- The command the decoder reads from a word numbered as spec/opcode_table.json numbers it (bit 0 the least significant). -/
def decodeTableWord (nbits w : Nat) : Option Instr :=
  match decode (tableWord nbits w) with
  | .ok i => some i
  | .error _ => none

/-- The rows of the opcode map (R96): mnemonic, match and mask. A word `w` spells the command iff `w & mask = match`. -/
def opcodeRows : List OpcodeRow :=
  [⟨"NOP", 0x0000000000000000#64, 0xFFFFFFFFFFFFFFFF#64⟩,
      ⟨"SRST", 0x0100000000000000#64, 0xFFFFFFFFFFFFFFFF#64⟩,
      ⟨"CSR.RD", 0x0200000000000000#64, 0xFFFF0000FFFFFFFF#64⟩,
      ⟨"ERR.CLR", 0x0300000000000000#64, 0xFFFFFFFFFFFFFFFF#64⟩]
  ++ [⟨"FQ.CLR", 0x1000000000000000#64, 0xFFFFFFFFFFFFFFFF#64⟩,
      ⟨"FQ.SET", 0x1100000000000000#64, 0xFFFF000000000000#64⟩,
      ⟨"FQ.INC", 0x1200000000000000#64, 0xFFFF0000FFFFFFFF#64⟩,
      ⟨"FQ.RD", 0x1300000000000000#64, 0xFFFF0000FFFFFFFF#64⟩]
  ++ [⟨"TB.INIT", 0x2000000000000000#64, 0xFFFFFFFFFFFFFFFF#64⟩,
      ⟨"TB.STEP", 0x2100000000000000#64, 0xFFFFFFFFFFFFFFFF#64⟩,
      ⟨"TB.BUILD", 0x2200000000000000#64, 0xFFFFFFFFFFFFFFFF#64⟩,
      ⟨"TB.RDN", 0x2300000000000000#64, 0xFFFF0000FFFFFFFF#64⟩,
      ⟨"TB.RDF", 0x2400000000000000#64, 0xFFFF0000FFFFFFFF#64⟩,
      ⟨"TB.FREE", 0x2500000000000000#64, 0xFFFFFFFFFFFFFFFF#64⟩]
  ++ [⟨"CW.CLR", 0x3000000000000000#64, 0xFFFFFFFFFFFFFFFF#64⟩,
      ⟨"CW.APP", 0x3100000000000000#64, 0xFFFF000000000000#64⟩,
      ⟨"CW.RD", 0x3200000000000000#64, 0xFFFF0000FFFFFFFF#64⟩]
  ++ [⟨"CT.CLR", 0x3800000000000000#64, 0xFFFFFFFFFFFFFFFF#64⟩,
      ⟨"CT.GEN", 0x3900000000000000#64, 0xFFFFFFFFFFFFFFFF#64⟩,
      ⟨"CT.INS", 0x3A00000000000000#64, 0xFFFF0000FFFFFFFF#64⟩,
      ⟨"CT.LKP", 0x3B00000000000000#64, 0xFFFF0000FFFFFFFF#64⟩,
      ⟨"CT.FIND", 0x3C00000000000000#64, 0xFFFFFFFFFFFFFFFF#64⟩]
  ++ [⟨"BP.RST", 0x4000000000000000#64, 0xFFFFFFFFFFFFFFFF#64⟩,
      ⟨"BP.PUT", 0x4100000000000000#64, 0xFFFFFFFFFFFFFFFF#64⟩,
      ⟨"BP.ENC", 0x4200000000000000#64, 0xFFFF0000FFFFFFFF#64⟩,
      ⟨"BP.FLUSH", 0x4300000000000000#64, 0xFFFFFFFFFFFFFFFF#64⟩]
  ++ [⟨"IN.RST", 0x5000000000000000#64, 0xFFFFFFFFFFFFFFFF#64⟩,
      ⟨"IN.BYTE", 0x5100000000000000#64, 0xFFFF0000FFFFFFFF#64⟩,
      ⟨"IN.END", 0x5200000000000000#64, 0xFFFFFFFFFFFFFFFF#64⟩,
      ⟨"IN.BIT", 0x5300000000000000#64, 0xFFFFFFFFFFFFFFFF#64⟩]
  ++ [⟨"DEC.RST", 0x6000000000000000#64, 0xFFFFFFFFFFFFFFFF#64⟩,
      ⟨"DEC.BIT", 0x6100000000000000#64, 0xFFFFFFFFFFFFFFFF#64⟩,
      ⟨"DEC.SYM", 0x6200000000000000#64, 0xFFFFFFFFFFFFFFFF#64⟩,
      ⟨"DEC.RUN", 0x6300000000000000#64, 0xFFFFFFFFFFFFFFFF#64⟩]

/-- The mnemonic of a command's row (R96). -/
def mnemonicOf : Instr → String
  | .nop => "NOP"
  | .srst => "SRST"
  | .csrRd _ => "CSR.RD"
  | .errClr => "ERR.CLR"
  | .fqClr => "FQ.CLR"
  | .fqSet _ _ => "FQ.SET"
  | .fqInc _ => "FQ.INC"
  | .fqRd _ => "FQ.RD"
  | .tbInit => "TB.INIT"
  | .tbStep => "TB.STEP"
  | .tbBuild => "TB.BUILD"
  | .tbRdn _ => "TB.RDN"
  | .tbRdf _ => "TB.RDF"
  | .tbFree => "TB.FREE"
  | .cwClr => "CW.CLR"
  | .cwApp _ _ => "CW.APP"
  | .cwRd _ => "CW.RD"
  | .ctClr => "CT.CLR"
  | .ctGen => "CT.GEN"
  | .ctIns _ => "CT.INS"
  | .ctLkp _ => "CT.LKP"
  | .ctFind => "CT.FIND"
  | .bpRst => "BP.RST"
  | .bpPut => "BP.PUT"
  | .bpEnc _ => "BP.ENC"
  | .bpFlush => "BP.FLUSH"
  | .inRst => "IN.RST"
  | .inByte _ => "IN.BYTE"
  | .inEnd => "IN.END"
  | .inBit => "IN.BIT"
  | .decRst => "DEC.RST"
  | .decBit => "DEC.BIT"
  | .decSym => "DEC.SYM"
  | .decRun => "DEC.RUN"

end Sys2Proof
end

