-- ==== Sys2Proof/Machine/Ports.lean ====
section
/-! DEFINITION. What a step does around a command: taking the host's next input (spec/30_encoding.md rules R90, R91),
an illegal word (R94, R98), hardware reset (70_reset_and_hazards.md rule R280). The block has no program counter
and no instruction memory (10_state.md rule R22); the list `pending` stands in the host's place (log 1). -/

namespace Sys2Proof.Machine

/-- The `cmd` transaction of word `w`, the inputs `rest` still to come (R91). -/
def State.accept (s : State) (w : Word) (rest : List HostInput) : State :=
  { s with pending := rest, ports := s.ports ++ [.cmd w] }

/-- The answer to a word that matches no command (R94, R98). -/
def State.answerIllegal (s : State) : State := s.raise .illegalCmd 0#64

/-- Hardware reset: every item at its reset value, the output logs empty; the implementation's parameters stay
(R280, R281). -/
def State.hardwareReset (s : State) (rest : List HostInput) : State :=
  { State.reset with cfg := s.cfg, pending := rest }

/-- The state in which the host gives the command word `w` next. -/
def State.withNextWord (s : State) (w : Word) : State :=
  { s with pending := .command w :: s.pending }

end Sys2Proof.Machine
end

