-- ==== Sys2Proof/Machine/Step.lean ====
section
/-! DEFINITION. One step: the host's next input, taken whole (spec/20_memory.md rules R80, R83; 30_encoding.md rule R91). -/

namespace Sys2Proof.Machine

/-- One step. A command word is accepted, decoded and executed to its response; an illegal word is answered
ILLEGAL_CMD; a hardware reset resets; with no input nothing changes (log 1). -/
def step (s : State) : Host.Outcome State Fault Refusal :=
  match s.pending with
  | [] => .next s
  | .reset :: rest => .next (s.hardwareReset rest)
  | .command w :: rest =>
    match decode w with
    | .ok i => exec i (s.accept w rest)
    | .error _ => .next (s.accept w rest).answerIllegal

/-- `s` with the table word `w` given as the host's next command (log 1). -/
def State.withFetchWord (s : State) (nbits w : Nat) : State := s.withNextWord (tableWord nbits w)

end Sys2Proof.Machine
end

