-- ==== Sys2Proof/Machine/Sessions.lean ====
section
/-! DEFINITION. The host's command sequences: pseudo-instructions (spec/30_encoding.md rule R101) and the sessions of
70_reset_and_hazards.md rules R290 and R292. The block sees only the commands. -/

namespace Sys2Proof.Machine

/-- A number as the 16-bit field `A`. -/
def aOf (n : Nat) : BitVec 16 := BitVec.ofNat 16 n

/-- A byte as the operand `A`. -/
def aByte (b : Byte) : BitVec 16 := b.setWidth 16

/-- `CW.APP |g|, value(g)` for a group of at most 32 bits (R101). -/
def appendGroup (g : Bits) : Instr := .cwApp (aOf g.length) (BitVec.ofNat 32 (bitsValue g))

/-- `bits` cut from the left into groups of 32 with a shorter last group (R101); the number bounds the groups. -/
def groups32 : Nat → Bits → List Bits
  | 0, _ => []
  | _ + 1, [] => []
  | n + 1, b :: c => (b :: c).take 32 :: groups32 n ((b :: c).drop 32)

/-- `CW.SET "bits"` (R101). -/
def cwSetCommands (bits : Bits) : List Instr := .cwClr :: (groups32 bits.length bits).map appendGroup

/-- The expansion of a pseudo-instruction (R101). -/
def expandPseudo : Pseudo → List Instr
  | .cwPush b => [.cwApp 1#16 (BitVec.ofNat 32 b.toNat)]
  | .cwSet bits => cwSetCommands bits
  | .ctRow s bits => cwSetCommands bits ++ [.ctIns s]
  | .fqHist text => text.map fun b => .fqInc (aByte b)
  | .bpText text => text.map fun b => .bpEnc (aByte b)
  | .bpEos => [.bpEnc 256#16]
  | .inBytes operands => operands.map .inByte

/-- R290 steps 1 and 2: the histogram of the source, the tree, the tables. -/
def buildCommands (source : List Byte) : List Instr :=
  .fqClr :: (source.map fun b => Instr.fqInc (aByte b)) ++ [.tbBuild, .ctGen]

/-- R290 step 3: the read-backs the host writes its codebook rows from. -/
def codebookCommands : List Instr :=
  (List.range 257).flatMap fun s =>
    Instr.ctLkp (aOf s) :: (List.range 8).map (fun k => Instr.cwRd (aOf k)) ++ [Instr.fqRd (aOf s)]

/-- R290 step 4: the writing session. -/
def writeCommands (source : List Byte) : List Instr :=
  .bpRst :: (source.map fun b => Instr.bpEnc (aByte b)) ++ [.bpEnc 256#16, .bpFlush]

/-- R290, the encode pipeline without its read-backs. -/
def encodeCommands (source : List Byte) : List Instr := buildCommands source ++ writeCommands source

/-- R292: the table loaded row by row. -/
def loadCommands (rows : List (BitVec 16 × Bits)) : List Instr :=
  .ctClr :: rows.flatMap fun r => expandPseudo (.ctRow r.1 r.2)

/-- R292: the reading session over the packed bytes. -/
def decodeCommands (packed : List Byte) : List Instr :=
  [.inRst, .decRst] ++ (packed.map fun b => Instr.inByte (aByte b)) ++ [.inEnd, .decRun]

/-- A list of commands run one after another (R22, R80), stopping where the model stops. -/
def runCommands : List Instr → State → Result
  | [], s => .next s
  | i :: is, s =>
    match exec i s with
    | .next t => runCommands is t
    | .fault e => .fault e
    | .refused e => .refused e

end Sys2Proof.Machine
end

