-- ==== Sys2Proof/WellFormed.lean ====
section
/-! DEFINITION. Which commands have every operand inside its range (spec/30_encoding.md rules R93, R96;
60_exceptions.md rule R241 row 2). A command that is not well formed still decodes; it answers BAD_OPERAND. -/

namespace Sys2Proof

/-- A symbol operand, 0..256. -/
def symbolInRange (a : BitVec 16) : Bool := a.toNat ≤ 256

/-- A byte operand, 0..255. -/
def byteInRange (a : BitVec 16) : Bool := a.toNat ≤ 255

/-- A node index operand, 0..512. -/
def nodeInRange (a : BitVec 16) : Bool := a.toNat ≤ 512

/-- A CSR number, 0..15. -/
def csrInRange (a : BitVec 16) : Bool := a.toNat ≤ 15

/-- A word index into `CWR`, 0..7. -/
def wordInRange (a : BitVec 16) : Bool := a.toNat ≤ 7

/-- A bit count 1..32 with bits `v < 2^n` (R151). -/
def bitsInRange (a : BitVec 16) (imm : BitVec 32) : Bool :=
  1 ≤ a.toNat && a.toNat ≤ 32 && imm.toNat < 2 ^ a.toNat

/-- A count 0..`CNT_MAX`, at least 1 for the sentinel (R122). -/
def countInRange (c : Config) (a : BitVec 16) (imm : BitVec 32) : Bool :=
  imm.toNat ≤ c.cntMax && !(a.toNat == 256 && imm == 0#32)

/-- Every operand of the command is inside its range. -/
def WellFormed (c : Config) : Instr → Bool
  | .nop | .srst | .errClr | .fqClr | .tbInit | .tbStep | .tbBuild | .tbFree | .cwClr | .ctClr | .ctGen
  | .ctFind | .bpRst | .bpPut | .bpFlush | .inRst | .inEnd | .inBit | .decRst | .decBit | .decSym | .decRun => true
  | .csrRd a => csrInRange a
  | .fqSet a imm => symbolInRange a && countInRange c a imm
  | .fqInc a | .inByte a => byteInRange a
  | .fqRd a | .ctIns a | .ctLkp a | .bpEnc a => symbolInRange a
  | .tbRdn a | .tbRdf a => nodeInRange a
  | .cwApp a imm => bitsInRange a imm
  | .cwRd a => wordInRange a

end Sys2Proof
end

