-- ==== Sys2Proof/Safety.lean ====
section
/-! DEFINITION. What a safe state is: the invariants of spec/10_state.md (R24 to R30, R33, R40 to R48, R51 to R53), unit by
unit, and the terms the statements are written in. -/

namespace Sys2Proof.Machine

/-! ## The parameters and the frequency memory -/

/-- `1 ≤ CNT_W ≤ 32` (R7, R97) and every count fits, the sentinel's at least 1 (R23, R24). -/
structure FreqInv (c : Config) (freq : Vector Count 257) : Prop where
  width : 1 ≤ c.cntW ∧ c.cntW ≤ 32
  bounded : ∀ s : Symbol, freq[s].toNat ≤ c.cntMax
  sentinel : freq[256] ≠ 0#32

/-! ## The tree -/

/-- The kind of entry `n`; FREE past the arena's end. -/
def kindAt (node : Vector Node 513) (n : Nat) : NodeKind :=
  match node[n]? with
  | some e => e.kind
  | none => .free

/-- The entries of the subtree of entry `n` (R30(a): "its descendants through `left`/`right`"), `n` first. The first
number bounds the depth; 513 is never too small where children have smaller indices than their parents. -/
def entriesBelow (node : Vector Node 513) : Nat → Nat → List Nat
  | 0, _ => []
  | d + 1, n =>
    match node[n]? with
    | none => []
    | some e =>
      if e.kind = .internal then n :: (entriesBelow node d e.left.toNat ++ entriesBelow node d e.right.toNat)
      else [n]

/-- The symbol a LEAF entry owns. -/
def leafSymbol (node : Vector Node 513) (n : Nat) : Option Symbol :=
  match node[n]? with
  | some e => if e.kind = .leaf then some e.sym else none
  | none => none

/-- The symbols of the leaves of the subtree of entry `n`. -/
def leavesBelow (node : Vector Node 513) (n : Nat) : List Symbol :=
  (entriesBelow node 513 n).filterMap (leafSymbol node)

/-- The non-FREE entries, rising. -/
def usedEntries (node : Vector Node 513) : List Nat :=
  (List.range 513).filter fun n => kindAt node n ≠ .free

/-- How many entries are of a kind. -/
def countKind (node : Vector Node 513) (k : NodeKind) : Nat :=
  ((List.range 513).filter fun n => kindAt node n = k).length

/-- An entry's fields where they are not applicable, and a leaf's key and count (R25). -/
def NodeNormal (e : Node) : Prop :=
  match e.kind with
  | .free => e = Node.freeEntry
  | .leaf => e.left = nilIndex ∧ e.right = nilIndex ∧ e.key = e.sym ∧ e.freq.toNat < 2 ^ 32
  | .internal => e.sym = 0

/-- What `TSTATE` says of `PQ`, `ROOT`, `NEXT` and the arena (R28, R29). -/
def PhaseInv (t : TreeUnit) : Prop :=
  match t.tstate with
  | .empty => t.pq = [] ∧ t.root = nilIndex ∧ t.next = firstInternal ∧ ∀ n : ArenaIndex, t.node[n] = Node.freeEntry
  | .building => 2 ≤ t.pq.length ∧ t.root = nilIndex
  | .built => ∃ n : ArenaIndex, t.pq = [n] ∧ t.root = BitVec.ofNat 10 n.val

/-- The invariants of the tree state at a command boundary (R25 to R30). -/
structure TreeInv (t : TreeUnit) : Prop where
  /-- R25. -/
  normal : ∀ n : ArenaIndex, NodeNormal t.node[n]
  /-- R26: the leaf of symbol `s` is entry `s`. -/
  leafPlace : ∀ n : ArenaIndex, t.node[n].kind = .leaf → n.val = t.node[n].sym.val
  /-- R26, R30(d): the internal nodes are the entries 257 up to `NEXT`. -/
  internalPlace : ∀ n : ArenaIndex, t.node[n].kind = .internal ↔ 257 ≤ n.val ∧ n.val < t.next.toNat
  /-- R28. -/
  nextRange : 257 ≤ t.next.toNat ∧ t.next.toNat ≤ 513
  /-- The listing of the set `PQ` (log 6). -/
  queueRising : t.pq.Pairwise (· < ·)
  /-- R30(a): the trees of `PQ`'s members hold every non-FREE entry, each exactly once. -/
  forest : ((t.pq.map (·.val)).flatMap (entriesBelow t.node 513)).Perm (usedEntries t.node)
  /-- R30(b), first half. -/
  keyLeast : ∀ n : ArenaIndex, t.node[n].kind ≠ .free →
    t.node[n].key ∈ leavesBelow t.node n.val ∧ ∀ s ∈ leavesBelow t.node n.val, t.node[n].key ≤ s
  /-- R30(b), second half. -/
  freqSum : ∀ n : ArenaIndex, t.node[n].kind ≠ .free →
    t.node[n].freq.toNat = ((leavesBelow t.node n.val).map fun s => t.node[leafIndex s].freq.toNat).sum
  /-- R30(c). -/
  keysDistinct : (t.pq.map fun n => t.node[n].key).Nodup
  /-- R30(d). -/
  queueCount : t.tstate ≠ .empty → t.pq.length + countKind t.node .internal = countKind t.node .leaf
  /-- R30(e). -/
  childrenBelow : ∀ n : ArenaIndex, t.node[n].kind = .internal →
    t.node[n].left.toNat < n.val ∧ t.node[n].right.toNat < n.val ∧
    kindAt t.node t.node[n].left.toNat ≠ .free ∧ kindAt t.node t.node[n].right.toNat ≠ .free
  /-- R28, R29. -/
  phase : PhaseInv t

/-- The entry reached from entry `n` by the branches `p` (R156: left by 0, right by 1); none past a leaf. -/
def follow (node : Vector Node 513) : NodeIndex → Bits → Option NodeIndex
  | n, [] => some n
  | n, b :: p =>
    match node[n.toNat]? with
    | some e => if e.kind = .internal then follow node (if b then e.right else e.left) p else none
    | none => none

/-! ## The code table -/

/-- The invariants of the code table at a command boundary (R33). -/
structure TableInv (t : CodeTable) : Prop where
  /-- R33(a). -/
  consistent : ∀ (c : Bits) (s : Symbol), { code := c, sym := s } ∈ t.inv ↔ t.fwd[s] = some c
  /-- R33(b). -/
  prefixFree : ∀ e1 ∈ t.inv, ∀ e2 ∈ t.inv, e1.sym ≠ e2.sym → ¬ e1.code <+: e2.code
  /-- R33(c). -/
  lengths : ∀ e ∈ t.inv, 1 ≤ e.code.length ∧ e.code.length ≤ lMax
  /-- R33(d), R34. -/
  counted : t.nsym.toNat = t.inv.length
  /-- The listing of the set `INV` (log 6). -/
  rising : t.inv.Pairwise (fun e1 e2 => e1.sym < e2.sym)

/-! ## The bit writer and the bit reader -/

/-- The eight bits of a byte in stream order, bit 7 first (R73). -/
def byteBits (b : Byte) : Bits := bitsMsb b 8

/-- Byte `k` of the packing of `w`: its bit `7 − j` is element `8k + j`, 0 past the end (R73, R75). -/
def packedByte (w : Bits) (k : Nat) : Byte :=
  BitVec.ofNat 8 (bitsValue ((List.range 8).map fun j => w.getD (8 * k + j) false))

/-- The whole bytes of `w` (R185). -/
def wholeBytes (w : Bits) : List Byte := (List.range (w.length / 8)).map (packedByte w)

/-- The `ceil(m / 8)` bytes of the flushed stream of `w`, zero-padded (R75, R185). -/
def packedBytes (w : Bits) : List Byte := (List.range ((w.length + 7) / 8)).map (packedByte w)

/-- A writer that has accepted exactly `w` since its `BP.RST` (R185). -/
structure WriterHolds (r : Writer) (w : Bits) : Prop where
  held : r.nb.toNat = w.length % 8
  pending : r.acc = packedByte w (w.length / 8)
  bitCount : r.wbitcnt = BitVec.ofNat 64 w.length
  byteCount : r.outcnt = BitVec.ofNat 64 (w.length / 8)

/-- The bits of `ACC` below the held ones are 0 (R41). -/
def WriterInv (r : Writer) : Prop := ∀ i, i + r.nb.toNat < 8 → r.acc.getLsbD i = false

/-- The bits of `RACC` below the unread ones are 0 (R45), and the queue is within its capacity (R44). -/
structure ReaderInv (c : Config) (r : Reader) : Prop where
  low : ∀ i, i + r.rn.toNat < 8 → r.racc.getLsbD i = false
  capacity : ∀ cap, c.inqCap = some cap → r.inq.length ≤ cap

/-- The bits the reader has still to yield, in order (R45, R200). -/
def Reader.unread (r : Reader) : Bits := (byteBits r.racc).take r.rn.toNat ++ r.inq.flatMap byteBits

/-! ## The decoder, the staging register, the error registers, the logs -/

/-- R48, with the length that a proper prefix of a codeword has. -/
structure DecoderInv (d : Decoder) : Prop where
  atRoot : d.dstate = .root ∨ d.dstate = .done → d.cur = []
  inside : d.dstate = .descending → 1 ≤ d.cur.length ∧ d.cur.length < lMax
  bounded : d.cur.length ≤ lMax

/-- R51: `LASTERR` is 0 exactly while no fault was seen, else the code of a fault. -/
structure ErrorInv (e : ErrorRegs) : Prop where
  seen : e.errseen = true ↔ e.lasterr ≠ 0#8
  assigned : e.lasterr.toNat ≤ 16

/-- The byte of an `out` transaction. -/
def PortEvent.outByte : PortEvent → Option Byte
  | .out b => some b
  | _ => none

/-- The byte of a `dec` transaction. -/
def PortEvent.decByte : PortEvent → Option Byte
  | .dec b => some b
  | _ => none

/-- The output logs hold exactly the bytes that left on their ports (R52, R53, R90). -/
structure LogInv (s : State) : Prop where
  out : s.out = s.ports.filterMap PortEvent.outByte
  decout : s.decout = s.ports.filterMap PortEvent.decByte

/-- Every invariant of the state at a command boundary. -/
structure State.Inv (s : State) : Prop where
  freq : FreqInv s.cfg s.freq
  tree : TreeInv s.tree
  table : TableInv s.table
  cwr : s.cwr.length ≤ lMax
  writer : WriterInv s.writer
  reader : ReaderInv s.cfg s.reader
  decoder : DecoderInv s.decoder
  err : ErrorInv s.err
  logs : LogInv s

/-! ## Responses and logs -/

/-- The response of the last command: the last transaction, if it is one on `rsp` (R91). -/
def State.lastReply (s : State) : Option (Byte × Word) :=
  match s.ports.getLast? with
  | some (.rsp c d) => some (c, d)
  | _ => none

/-- `s` with other output logs and another transaction record. -/
def State.withLogs (s : State) (out decout : List Byte) (ports : List PortEvent) : State :=
  { s with out := out, decout := decout, ports := ports }

/-- `s` with other error registers and another transaction record: all that a precise fault changes (R243, R244). -/
def State.withError (s : State) (e : ErrorRegs) (ports : List PortEvent) : State :=
  { s with err := e, ports := ports }

/-- The codewords of the symbols `xs` one after another, if each has one (R185, R215). -/
def codeStream (t : CodeTable) : List Symbol → Option Bits
  | [] => some []
  | x :: xs =>
    match t.fwd[x], codeStream t xs with
    | some c, some w => some (c ++ w)
    | _, _ => none

/-- The literal symbol of a byte (R12). -/
def literal (b : Byte) : Symbol := ⟨b.toNat, by omega⟩

/-- `s` after a command that only answers `(code, data)` (R95). -/
def State.answered (s : State) (code : Byte) (data : Word) : State :=
  { s with ports := s.ports ++ [.rsp code data] }

/-- `s` after a precise fault whose data is 0: the error registers and the response, nothing else (R243, R244). -/
def State.faulted (s : State) (code : Byte) : State :=
  { s with err := { lasterr := code, errseen := true }, ports := s.ports ++ [.rsp code 0#64] }

/-- Every item of state but the output logs at its reset value, written out from R281's table. -/
structure AtReset (t : State) : Prop where
  counts : ∀ x : Symbol, t.freq[x] = if x.val = 256 then 1#32 else 0#32
  nodes : ∀ n : ArenaIndex, t.tree.node[n] =
    { kind := .free, sym := 0, left := 0x3FF#10, right := 0x3FF#10, freq := 0#41, key := 0 }
  tree : t.tree.pq = [] ∧ t.tree.root = 0x3FF#10 ∧ t.tree.next = 257#10 ∧ t.tree.tstate = .empty
  table : (∀ x : Symbol, t.table.fwd[x] = none) ∧ t.table.inv = [] ∧ t.table.nsym = 0#9
  cwr : t.cwr = []
  writer : t.writer = { acc := 0#8, nb := 0#3, wclosed := false, wbitcnt := 0#64, outcnt := 0#64 }
  reader : t.reader = { inq := [], eoi := false, racc := 0#8, rn := 0#3, rbitcnt := 0#64 }
  decoder : t.decoder = { dstate := .root, cur := [], dcount := 0#64, trunc := false }
  err : t.err = { lasterr := 0#8, errseen := false }

/-! ## Orders, readers and codebooks -/

/-- `a ≺ b`, written out from R11. -/
def Before (node : Vector Node 513) (a b : ArenaIndex) : Prop :=
  node[a].freq.toNat < node[b].freq.toNat ∨ node[a].freq.toNat = node[b].freq.toNat ∧ node[a].key < node[b].key

/-- `a` is `min≺` of the listed indices (R11). -/
def LeastOf (node : Vector Node 513) (l : List ArenaIndex) (a : ArenaIndex) : Prop :=
  a ∈ l ∧ ∀ m ∈ l, m ≠ a → Before node a m

/-- A reader that was given exactly the bytes `bs` since its `IN.RST` and has yielded `k` bits of them (R200). -/
structure ReaderAt (r : Reader) (bs : List Byte) (k : Nat) : Prop where
  within : k ≤ 8 * bs.length
  queue : r.inq = bs.drop ((k + 7) / 8)
  left : r.rn.toNat = (8 - k % 8) % 8
  held : r.racc = if k % 8 = 0 then 0#8 else bs.getD (k / 8) 0#8 <<< (k % 8)
  count : r.rbitcnt = BitVec.ofNat 64 k

/-- Rows a codebook may have (R12, R33): codewords of 1 to 256 bits, no symbol twice, no codeword a prefix of another. -/
structure GoodRows (rows : List (Symbol × Bits)) : Prop where
  lengths : ∀ r ∈ rows, 1 ≤ r.2.length ∧ r.2.length ≤ 256
  symbols : (rows.map (·.1)).Nodup
  prefixFree : rows.Pairwise fun r q => ¬ r.2 <+: q.2 ∧ ¬ q.2 <+: r.2

/-- The bytes on `INQ` fit (R44). -/
def fitsQueue (c : Config) (n : Nat) : Prop := ∀ cap, c.inqCap = some cap → n ≤ cap

end Sys2Proof.Machine
end

