-- ==== Sys2Proof/Certificates/Slice0/Obligations.lean ====
section
/-! DEFINITION. The statements for the provers. Each says which rule of spec/ it formalises, or that it is the model's own. -/

section
open Sys2Proof Sys2Proof.Machine

/-! ## Encoding -/

/-- R102 (30_encoding.md): the worked encodings decode to the commands they stand for, and the last is refused. -/
def Obligations.WorkedEncodingsDecodeAsStated : Prop :=
  decode 0x1100006100000003#64 = .ok (.fqSet 0x0061#16 3#32) ∧
  decode 0x4200010000000000#64 = .ok (.bpEnc 0x0100#16) ∧
  decode 0x3100000300000005#64 = .ok (.cwApp 3#16 5#32) ∧
  decode 0x2200000000000000#64 = .ok .tbBuild ∧
  decode 0x2200000000000001#64 = .error .unusedImmNotZero ∧
  decode 0x1200010000000000#64 = .ok (.fqInc 256#16) ∧
  ∀ s : State, exec (.fqInc 256#16) s = .next (s.faulted 2#8)

/-- R92, R96: the word of every command, with every value of its operand fields, decodes to that command; so does its
number as the opcode table numbers it. The encoder is the model's own. -/
def Obligations.EveryCommandDecodesFromItsWord : Prop :=
  ∀ i : Instr, decode (encode i) = .ok i ∧ decodeTableWord 64 (encode i).toNat = some i

/-- R92, R96: a word that decodes to a command is that command's word, so no bit of a word is dropped. -/
def Obligations.DecodedWordIsItsCommandsWord : Prop :=
  ∀ (w : Word) (i : Instr), decode w = .ok i → encode i = w

/-- R96: "a word `w` spells the command iff `w & mask = match`", for every row of the opcode map. -/
def Obligations.WordSpellsTheCommandOfItsRow : Prop :=
  ∀ (w : Word), ∀ r ∈ opcodeRows, w &&& r.mask = r.pattern ↔ ∃ i, decode w = .ok i ∧ mnemonicOf i = r.mnemonic

/-- R99: every word is one command or illegal, and no two of the 34 rows overlap: they differ in `OP`, which every mask
covers. -/
def Obligations.OpcodeRowsDoNotOverlap : Prop :=
  opcodeRows.length = 34 ∧
  (∀ r ∈ opcodeRows, r.mask &&& 0xFF00000000000000#64 = 0xFF00000000000000#64) ∧
  (opcodeRows.Pairwise fun r q => r.pattern &&& 0xFF00000000000000#64 ≠ q.pattern &&& 0xFF00000000000000#64) ∧
  (∀ (w : Word), ∀ r ∈ opcodeRows, ∀ q ∈ opcodeRows, w &&& r.mask = r.pattern → w &&& q.mask = q.pattern → r = q) ∧
  ∀ w : Word, (∃ i, decode w = .ok i ∧ ∃ r ∈ opcodeRows, w &&& r.mask = r.pattern) ∨
    ((∃ e, decode w = .error e) ∧ ∀ r ∈ opcodeRows, w &&& r.mask ≠ r.pattern)

/-- R98: a word that matches no row, in particular one with `RSV ≠ 0` or an unlisted opcode, is answered ILLEGAL_CMD and
changes nothing but the error registers. -/
def Obligations.IllegalWordChangesOnlyTheErrorRegisters : Prop :=
  ∀ (s : State) (w : Word) (rest : List HostInput), s.pending = .command w :: rest →
    ((∀ r ∈ opcodeRows, w &&& r.mask ≠ r.pattern) ∨ rsvField w ≠ 0#8 ∨
      (0x04 ≤ (opField w).toNat ∧ (opField w).toNat ≤ 0x0F) ∨ (0x14 ≤ (opField w).toNat ∧ (opField w).toNat ≤ 0x1F) ∨
      (0x26 ≤ (opField w).toNat ∧ (opField w).toNat ≤ 0x2F) ∨ (0x33 ≤ (opField w).toNat ∧ (opField w).toNat ≤ 0x37) ∨
      (0x3D ≤ (opField w).toNat ∧ (opField w).toNat ≤ 0x3F) ∨ (0x44 ≤ (opField w).toNat ∧ (opField w).toNat ≤ 0x4F) ∨
      (0x54 ≤ (opField w).toNat ∧ (opField w).toNat ≤ 0x5F) ∨ 0x64 ≤ (opField w).toNat) →
    step s = .next { s with pending := rest, err := { lasterr := 1#8, errseen := true },
                            ports := s.ports ++ [.cmd w, .rsp 1#8 0#64] }

/-! ## The step and reset -/

/-- R91, and the model's host inputs (logs 1, 2): a step takes the next input, records its `cmd` transaction and runs the
command it decodes to; with no input it changes nothing. -/
def Obligations.StepRunsTheDecodedCommand : Prop :=
  (∀ (s : State) (w : Word) (rest : List HostInput) (i : Instr), s.pending = .command w :: rest → decode w = .ok i →
    step s = exec i { s with pending := rest, ports := s.ports ++ [.cmd w] }) ∧
  ∀ s : State, s.pending = [] → step s = .next s

/-- R280, R281, R231: what hardware reset and `SRST` leave, item by item (`AtReset` is R281's table written out); the output
logs are emptied by the first and kept by the second. That the parameters and the waiting inputs stay is the model's
(logs 1, 3). -/
def Obligations.ResetsLeaveTheTabulatedValues : Prop :=
  (AtReset State.reset ∧ State.reset.out = [] ∧ State.reset.decout = []) ∧
  (∀ (s : State) (rest : List HostInput), s.pending = .reset :: rest →
    ∃ t, step s = .next t ∧ AtReset t ∧ t.out = [] ∧ t.decout = [] ∧ t.cfg = s.cfg ∧ t.pending = rest) ∧
  ∀ s : State, ∃ t, exec .srst s = .next t ∧ AtReset t ∧ t.out = s.out ∧ t.decout = s.decout ∧ t.cfg = s.cfg ∧
    t.pending = s.pending ∧ t.ports = s.ports ++ [.rsp 0#8 0#64]

/-- R283: the eight unit resets one after another leave what one `SRST` leaves. -/
def Obligations.UnitResetsTogetherEqualSoftReset : Prop :=
  ∀ s : State, ∃ t u,
    runCommands [.fqClr, .tbFree, .ctClr, .cwClr, .bpRst, .inRst, .decRst, .errClr] s = .next t ∧
    exec .srst s = .next u ∧ t.withLogs u.out u.decout u.ports = u ∧ t.out = u.out ∧ t.decout = u.decout

/-! ## System commands -/

/-- R230, R233: `NOP` changes no state; `ERR.CLR` clears the error registers and nothing else. -/
def Obligations.NopAndErrorClearAnswerOk : Prop :=
  ∀ s : State, exec .nop s = .next (s.answered 0#8 0#64) ∧
    exec .errClr s = .next ({ s with err := { lasterr := 0#8, errseen := false } }.answered 0#8 0#64)

/-- R232, R54: every CSR reads as the table lays it out, changing no state; a number above 15 is refused. With 2^64 bytes or
more in `INQ`, INQCNT is answered as some value: the spec states none (log 17). -/
def Obligations.CsrReadsAreLaidOutAsTabulated : Prop :=
  (∀ s : State, s.tree.pq.length ≤ 257 → s.cwr.length ≤ 256 → s.decoder.cur.length ≤ 256 →
    exec (.csrRd 0#16) s = .next (s.answered 0#8 0x4855464600000001#64) ∧
    exec (.csrRd 1#16) s = .next (s.answered 0#8 (BitVec.ofNat 64
      (s.tree.tstate.num.toNat + 4 * s.decoder.dstate.num.toNat + 16 * s.writer.wclosed.toNat + 32 * s.reader.eoi.toNat
        + 64 * s.decoder.trunc.toNat + 128 * s.err.errseen.toNat))) ∧
    exec (.csrRd 2#16) s = .next (s.answered 0#8 (BitVec.ofNat 64 s.err.lasterr.toNat)) ∧
    exec (.csrRd 3#16) s = .next (s.answered 0#8 (BitVec.ofNat 64 s.table.nsym.toNat)) ∧
    exec (.csrRd 4#16) s = .next (s.answered 0#8 (BitVec.ofNat 64 s.tree.pq.length)) ∧
    exec (.csrRd 5#16) s = .next (s.answered 0#8 (BitVec.ofNat 64 s.tree.root.toNat)) ∧
    exec (.csrRd 6#16) s = .next (s.answered 0#8 (BitVec.ofNat 64 s.tree.next.toNat)) ∧
    exec (.csrRd 7#16) s = .next (s.answered 0#8 (BitVec.ofNat 64 (s.writer.acc.toNat + 256 * s.writer.nb.toNat))) ∧
    exec (.csrRd 8#16) s = .next (s.answered 0#8 (BitVec.ofNat 64 (s.reader.racc.toNat + 256 * s.reader.rn.toNat))) ∧
    exec (.csrRd 9#16) s = .next (s.answered 0#8 (BitVec.ofNat 64 s.cwr.length)) ∧
    exec (.csrRd 10#16) s = .next (s.answered 0#8 (BitVec.ofNat 64 s.decoder.cur.length)) ∧
    exec (.csrRd 11#16) s = .next (s.answered 0#8 s.decoder.dcount) ∧
    exec (.csrRd 12#16) s = .next (s.answered 0#8 s.writer.wbitcnt) ∧
    exec (.csrRd 13#16) s = .next (s.answered 0#8 s.reader.rbitcnt) ∧
    exec (.csrRd 14#16) s = .next (s.answered 0#8 s.writer.outcnt) ∧
    (s.reader.inq.length < 2 ^ 64 →
      exec (.csrRd 15#16) s = .next (s.answered 0#8 (BitVec.ofNat 64 s.reader.inq.length)))) ∧
  (∀ s : State, 2 ^ 64 ≤ s.reader.inq.length → ∃ d : Word, exec (.csrRd 15#16) s = .next (s.answered 0#8 d)) ∧
  ∀ (s : State) (a : BitVec 16), 15 < a.toNat → exec (.csrRd a) s = .next (s.faulted 2#8)

/-! ## The frequency memory -/

/-- R121 to R124: the result and every refusal of `FQ.CLR`, `FQ.SET`, `FQ.INC` and `FQ.RD`; nothing but the count named
changes. -/
def Obligations.FrequencyCommandsFollowTheirRules : Prop :=
  (∀ s : State, ∃ f : Vector Count 257, exec .fqClr s = .next ({ s with freq := f }.answered 0#8 0#64) ∧
    ∀ x : Symbol, f[x] = if x.val = 256 then 1#32 else 0#32) ∧
  (∀ (s : State) (a : BitVec 16) (c : BitVec 32),
    (256 < a.toNat ∨ 2 ^ s.cfg.cntW - 1 < c.toNat ∨ (a.toNat = 256 ∧ c.toNat = 0) →
      exec (.fqSet a c) s = .next (s.faulted 2#8)) ∧
    ∀ x : Symbol, a.toNat = x.val → c.toNat ≤ 2 ^ s.cfg.cntW - 1 → (x.val = 256 → 1 ≤ c.toNat) →
      exec (.fqSet a c) s = .next ({ s with freq := s.freq.set x c }.answered 0#8 0#64)) ∧
  (∀ (s : State) (a : BitVec 16),
    (255 < a.toNat → exec (.fqInc a) s = .next (s.faulted 2#8)) ∧
    ∀ x : Symbol, x.val ≤ 255 → a.toNat = x.val →
      (s.freq[x].toNat = 2 ^ s.cfg.cntW - 1 → exec (.fqInc a) s = .next (s.faulted 3#8)) ∧
      (s.freq[x].toNat ≠ 2 ^ s.cfg.cntW - 1 →
        exec (.fqInc a) s = .next ({ s with freq := s.freq.set x (s.freq[x] + 1#32) }.answered 0#8 0#64))) ∧
  ∀ (s : State) (a : BitVec 16),
    (256 < a.toNat → exec (.fqRd a) s = .next (s.faulted 2#8)) ∧
    ∀ x : Symbol, a.toNat = x.val → exec (.fqRd a) s = .next (s.answered 0#8 (BitVec.ofNat 64 s.freq[x].toNat))

/-! ## The tree builder -/

/-- R131: `TB.INIT` with `L` the symbols of non-zero count. That `PQ` is listed in rising order is the model's (log 6). -/
def Obligations.TreeInitMakesOneLeafPerCountedSymbol : Prop :=
  ∀ (s : State) (l : List Symbol), l.Nodup → (∀ x, x ∈ l ↔ 0 < s.freq[x].toNat) →
    (l = [] → exec .tbInit s = .next (s.faulted 4#8)) ∧
    (l ≠ [] → ∃ tr : TreeUnit,
      exec .tbInit s = .next ({ s with tree := tr }.answered 0#8 (BitVec.ofNat 64 l.length)) ∧
      (∀ x ∈ l, tr.node[leafIndex x] =
        { kind := .leaf, sym := x, left := 0x3FF#10, right := 0x3FF#10, freq := s.freq[x].setWidth 41, key := x }) ∧
      (∀ n : ArenaIndex, (∀ x ∈ l, n ≠ leafIndex x) → tr.node[n] =
        { kind := .free, sym := 0, left := 0x3FF#10, right := 0x3FF#10, freq := 0#41, key := 0 }) ∧
      (∀ n : ArenaIndex, n ∈ tr.pq ↔ ∃ x ∈ l, n = leafIndex x) ∧ tr.pq.Pairwise (· < ·) ∧ tr.next = 257#10 ∧
      (∀ x, l = [x] → tr.root = BitVec.ofNat 10 x.val ∧ tr.tstate = .built) ∧
      (2 ≤ l.length → tr.root = 0x3FF#10 ∧ tr.tstate = .building))

/-- R132, with R11 and R135: one merge of the two least members of `PQ`, the least becoming the left child; refused outside
BUILDING. That `PQ` is listed in rising order is the model's (log 6). -/
def Obligations.TreeStepMergesTheTwoLeast : Prop :=
  (∀ s : State, s.tree.tstate ≠ .building → exec .tbStep s = .next (s.faulted 5#8)) ∧
  ∀ s : State, TreeInv s.tree → s.tree.tstate = .building → ∃ (a b n : ArenaIndex) (tr : TreeUnit),
    LeastOf s.tree.node s.tree.pq a ∧ LeastOf s.tree.node (s.tree.pq.erase a) b ∧ n.val = s.tree.next.toNat ∧
    exec .tbStep s = .next ({ s with tree := tr }.answered 0#8 (BitVec.ofNat 64 n.val)) ∧
    tr.node[n] = { kind := .internal, sym := 0, left := BitVec.ofNat 10 a.val, right := BitVec.ofNat 10 b.val,
                   freq := s.tree.node[a].freq + s.tree.node[b].freq,
                   key := min s.tree.node[a].key s.tree.node[b].key } ∧
    (∀ m : ArenaIndex, m ≠ n → tr.node[m] = s.tree.node[m]) ∧
    (∀ m : ArenaIndex, m ∈ tr.pq ↔ m = n ∨ (m ∈ s.tree.pq ∧ m ≠ a ∧ m ≠ b)) ∧ tr.pq.Pairwise (· < ·) ∧
    tr.next.toNat = s.tree.next.toNat + 1 ∧
    (tr.pq.length = 1 → tr.root = BitVec.ofNat 10 n.val ∧ tr.tstate = .built) ∧
    (tr.pq.length ≠ 1 → tr.root = s.tree.root ∧ tr.tstate = .building)

/-- R140: the sum that a merge stores never carries out of the 41 bits. -/
def Obligations.MergedFrequencyIsTheExactSum : Prop :=
  ∀ t : TreeUnit, TreeInv t → ∀ a ∈ t.pq, ∀ b ∈ t.pq, a ≠ b →
    (t.node[a].freq + t.node[b].freq).toNat = t.node[a].freq.toNat + t.node[b].freq.toNat ∧
    t.node[a].freq.toNat ≤ 257 * (2 ^ 32 - 1)

/-- R134, R136: `TB.BUILD` ends BUILT with a tree whose leaves are the counted symbols, each with its count, after
`|L| − 1` merges, and of depth at most `|L| − 1`; refused when every count is 0. -/
def Obligations.TreeBuildFinishesTheTree : Prop :=
  ∀ (s : State) (l : List Symbol), l.Nodup → (∀ x, x ∈ l ↔ 0 < s.freq[x].toNat) →
    (l = [] → exec .tbBuild s = .next (s.faulted 4#8)) ∧
    (l ≠ [] → ∃ tr : TreeUnit,
      exec .tbBuild s = .next ({ s with tree := tr }.answered 0#8 (BitVec.ofNat 64 tr.root.toNat)) ∧
      tr.tstate = .built ∧ TreeInv tr ∧ (leavesBelow tr.node tr.root.toNat).Perm l ∧
      (∀ x ∈ l, tr.node[leafIndex x].freq.toNat = s.freq[x].toNat) ∧
      tr.next.toNat = 256 + l.length ∧ (2 ≤ l.length → tr.root.toNat = 255 + l.length) ∧
      ∀ (c : Bits) (n : NodeIndex), follow tr.node tr.root c = some n → c.length ≤ l.length - 1)

/-- R134: `TB.BUILD` does what `TB.INIT` and then exactly `|L| − 1` `TB.STEP`s do, each of them in BUILDING, with one response
in place of theirs; or it is refused as `TB.INIT` is. -/
def Obligations.BuildIsInitFollowedBySteps : Prop :=
  ∀ (s : State) (l : List Symbol), l.Nodup → (∀ x, x ∈ l ↔ 0 < s.freq[x].toNat) →
    (l = [] → exec .tbBuild s = .next (s.faulted 4#8) ∧ exec .tbInit s = .next (s.faulted 4#8)) ∧
    (l ≠ [] → ∃ t u,
      exec .tbBuild s = .next t ∧ runCommands (.tbInit :: List.replicate (l.length - 1) .tbStep) s = .next u ∧
      u.tree.tstate = .built ∧ t = { u with ports := s.ports ++ [.rsp 0#8 (BitVec.ofNat 64 u.tree.root.toNat)] } ∧
      ∀ k : Nat, k < l.length - 1 →
        ∃ v, runCommands (.tbInit :: List.replicate k .tbStep) s = .next v ∧ v.tree.tstate = .building)

/-- R133: `≺` is a strict total order on `PQ`, so `min≺` is unique. -/
def Obligations.QueueOrderIsStrictAndTotal : Prop :=
  ∀ t : TreeUnit, TreeInv t →
    (∀ a ∈ t.pq, ∀ b ∈ t.pq, a ≠ b → t.node[a].key ≠ t.node[b].key ∧
      (Before t.node a b ∧ ¬ Before t.node b a ∨ Before t.node b a ∧ ¬ Before t.node a b)) ∧
    (∀ a b c : ArenaIndex, Before t.node a b → Before t.node b c → Before t.node a c) ∧
    (t.pq ≠ [] → ∃ a, LeastOf t.node t.pq a ∧ ∀ b, LeastOf t.node t.pq b → b = a)

/-- R141: the tree after `TB.BUILD` is a function of `FREQ` alone. -/
def Obligations.TreeIsAFunctionOfTheCounts : Prop :=
  ∀ s s' t t' : State, s.freq = s'.freq → (∃ x : Symbol, 0 < s.freq[x].toNat) →
    exec .tbBuild s = .next t → exec .tbBuild s' = .next t' → t.tree = t'.tree

/-- R137, R138, R139: what `TB.RDN` and `TB.RDF` read, field by field, and what `TB.FREE` leaves. -/
def Obligations.TreeReadsAndFreeFollowTheirRules : Prop :=
  (∀ (s : State) (a : BitVec 16), 512 < a.toNat →
    exec (.tbRdn a) s = .next (s.faulted 2#8) ∧ exec (.tbRdf a) s = .next (s.faulted 2#8)) ∧
  (∀ (s : State) (a : BitVec 16) (n : ArenaIndex), a.toNat = n.val →
    exec (.tbRdn a) s = .next (s.answered 0#8 (BitVec.ofNat 64
      (s.tree.node[n].kind.num.toNat + 2 ^ 2 * s.tree.node[n].key.val + 2 ^ 11 * s.tree.node[n].sym.val
        + 2 ^ 20 * s.tree.node[n].left.toNat + 2 ^ 30 * s.tree.node[n].right.toNat
        + 2 ^ 40 * (if n ∈ s.tree.pq then 1 else 0)))) ∧
    exec (.tbRdf a) s = .next (s.answered 0#8 (BitVec.ofNat 64 s.tree.node[n].freq.toNat))) ∧
  ∀ s : State, ∃ tr : TreeUnit, exec .tbFree s = .next ({ s with tree := tr }.answered 0#8 0#64) ∧
    tr.pq = [] ∧ tr.root = 0x3FF#10 ∧ tr.next = 257#10 ∧ tr.tstate = .empty ∧
    ∀ n : ArenaIndex, tr.node[n] =
      { kind := .free, sym := 0, left := 0x3FF#10, right := 0x3FF#10, freq := 0#41, key := 0 }

/-! ## The codeword register and the code table -/

/-- R150, R151, R153: `CW.CLR`, `CW.APP` and `CW.RD`, with every refusal. -/
def Obligations.CodewordRegisterCommandsFollowTheirRules : Prop :=
  (∀ s : State, exec .cwClr s = .next ({ s with cwr := [] }.answered 0#8 0#64)) ∧
  (∀ (s : State) (a : BitVec 16) (v : BitVec 32),
    (a.toNat = 0 ∨ 32 < a.toNat ∨ 2 ^ a.toNat ≤ v.toNat → exec (.cwApp a v) s = .next (s.faulted 2#8)) ∧
    (1 ≤ a.toNat → a.toNat ≤ 32 → v.toNat < 2 ^ a.toNat → 256 < s.cwr.length + a.toNat →
      exec (.cwApp a v) s = .next (s.faulted 6#8)) ∧
    (1 ≤ a.toNat → a.toNat ≤ 32 → v.toNat < 2 ^ a.toNat → s.cwr.length + a.toNat ≤ 256 →
      exec (.cwApp a v) s =
        .next ({ s with cwr := s.cwr ++ (List.range a.toNat).map fun j => v.getLsbD (a.toNat - 1 - j) }.answered 0#8
          (BitVec.ofNat 64 (s.cwr.length + a.toNat))))) ∧
  ∀ (s : State) (a : BitVec 16),
    (7 < a.toNat → exec (.cwRd a) s = .next (s.faulted 2#8)) ∧
    (a.toNat ≤ 7 → ∃ d : Word, exec (.cwRd a) s = .next (s.answered 0#8 d) ∧
      ∀ j : Nat, d.getLsbD j = (decide (j < 32) && s.cwr.getD (32 * a.toNat + (31 - j)) false))

/-- R155, R157: `CT.CLR` empties both tables; `CT.INS` adds one pair to both, or is refused in the order of its checks; rows
inserted in another order leave the same tables. -/
def Obligations.CodeTableInsertFollowsItsRule : Prop :=
  (∀ s : State, ∃ tb : CodeTable, exec .ctClr s = .next ({ s with table := tb }.answered 0#8 0#64) ∧
    (∀ x : Symbol, tb.fwd[x] = none) ∧ tb.inv = [] ∧ tb.nsym = 0#9) ∧
  (∀ (s t t' : State) (rows rows' : List (Symbol × Bits)), GoodRows rows → rows'.Perm rows →
    runCommands (loadCommands (rows.map fun r => (aOf r.1.val, r.2))) s = .next t →
    runCommands (loadCommands (rows'.map fun r => (aOf r.1.val, r.2))) s = .next t' → t'.table = t.table) ∧
  ∀ (s : State) (a : BitVec 16),
    (256 < a.toNat → exec (.ctIns a) s = .next (s.faulted 2#8)) ∧
    ∀ x : Symbol, a.toNat = x.val →
      (s.cwr = [] → exec (.ctIns a) s = .next (s.faulted 7#8)) ∧
      (s.cwr ≠ [] → s.table.fwd[x] ≠ none → exec (.ctIns a) s = .next (s.faulted 9#8)) ∧
      (s.cwr ≠ [] → s.table.fwd[x] = none → (∃ e ∈ s.table.inv, e.code <+: s.cwr ∨ s.cwr <+: e.code) →
        exec (.ctIns a) s = .next (s.faulted 8#8)) ∧
      (s.cwr ≠ [] → s.table.fwd[x] = none → (∀ e ∈ s.table.inv, ¬ e.code <+: s.cwr ∧ ¬ s.cwr <+: e.code) →
        ∃ tb : CodeTable,
          exec (.ctIns a) s = .next ({ s with table := tb }.answered 0#8 (BitVec.ofNat 64 tb.nsym.toNat)) ∧
          tb.fwd = s.table.fwd.set x (some s.cwr) ∧
          (∀ e : CodePair, e ∈ tb.inv ↔ e = { code := s.cwr, sym := x } ∨ e ∈ s.table.inv) ∧
          tb.nsym = s.table.nsym + 1#9)

/-- R292 with R101, R155, R157: loading a codebook's rows stores exactly those pairs and raises nothing. -/
def Obligations.LoadingACodebookStoresExactlyItsRows : Prop :=
  ∀ (s : State) (rows : List (Symbol × Bits)), GoodRows rows → ∃ t,
    runCommands (loadCommands (rows.map fun r => (aOf r.1.val, r.2))) s = .next t ∧
    (∀ (x : Symbol) (c : Bits), t.table.fwd[x] = some c ↔ (x, c) ∈ rows) ∧
    (∀ e : CodePair, e ∈ t.table.inv ↔ (e.sym, e.code) ∈ rows) ∧ t.table.nsym.toNat = rows.length ∧ t.err = s.err

/-- R156, R154, R161: `CT.GEN` gives each leaf the bits of its path from the root (a lone leaf `"0"`), in both tables, in
place of what they held; refused outside BUILT. -/
def Obligations.CodeGenerationStoresRootPaths : Prop :=
  (∀ s : State, s.tree.tstate ≠ .built → exec .ctGen s = .next (s.faulted 5#8)) ∧
  ∀ s : State, TreeInv s.tree → s.tree.tstate = .built → ∃ tb : CodeTable,
    exec .ctGen s = .next ({ s with table := tb }.answered 0#8 (BitVec.ofNat 64 tb.nsym.toNat)) ∧
    tb.nsym.toNat = countKind s.tree.node .leaf ∧
    (∀ (x : Symbol) (c : Bits), tb.fwd[x] = some c → 1 ≤ c.length ∧ c.length ≤ 256) ∧
    (∀ (x : Symbol) (c : Bits), { code := c, sym := x } ∈ tb.inv ↔ tb.fwd[x] = some c) ∧
    (kindAt s.tree.node s.tree.root.toNat = .leaf → ∀ (x : Symbol) (c : Bits),
      tb.fwd[x] = some c ↔ s.tree.root = BitVec.ofNat 10 x.val ∧ c = [false]) ∧
    (kindAt s.tree.node s.tree.root.toNat = .internal → ∀ (x : Symbol) (c : Bits),
      tb.fwd[x] = some c ↔
        kindAt s.tree.node x.val = .leaf ∧ follow s.tree.node s.tree.root c = some (BitVec.ofNat 10 x.val))

/-- R162(a), (b): after `TB.BUILD` and `CT.GEN`, `NSYM` is the number of counted symbols, and the code is complete (every
internal trie node has both children and the Kraft sum, here over 2^256, is 1) unless it has one symbol. -/
def Obligations.GeneratedCodeIsComplete : Prop :=
  ∀ (s : State) (l : List Symbol), l.Nodup → (∀ x, x ∈ l ↔ 0 < s.freq[x].toNat) → l ≠ [] → ∃ t,
    runCommands [.tbBuild, .ctGen] s = .next t ∧ t.table.nsym.toNat = l.length ∧ t.err = s.err ∧
    (∀ x : Symbol, t.table.fwd[x] ≠ none ↔ x ∈ l) ∧
    (2 ≤ l.length → (t.table.inv.map fun e => 2 ^ (256 - e.code.length)).sum = 2 ^ 256 ∧
      ∀ p : Bits, trieNode t.table.inv p = .internal →
        trieNode t.table.inv (p ++ [false]) ≠ .absent ∧ trieNode t.table.inv (p ++ [true]) ≠ .absent) ∧
    (l.length = 1 → (t.table.inv.map fun e => 2 ^ (256 - e.code.length)).sum = 2 ^ 255)

/-- R162(d), R143(b), (c): one byte repeated `n` times gets a two-row code of lengths 1. -/
def Obligations.OneRepeatedByteGetsATwoRowCode : Prop :=
  ∀ (s : State) (b : Byte) (n : Nat), s.cfg.cntW ≤ 32 → 1 ≤ n → n ≤ 2 ^ s.cfg.cntW - 1 → ∃ t,
    runCommands (buildCommands (List.replicate n b)) s = .next t ∧ t.table.nsym = 2#9 ∧ t.err = s.err ∧
    (n = 1 → t.table.fwd[literal b] = some [false] ∧ t.table.fwd[sentinel] = some [true]) ∧
    (2 ≤ n → t.table.fwd[sentinel] = some [false] ∧ t.table.fwd[literal b] = some [true])

/-- R161, R187: an empty source gives the one-row code `"0"` for the sentinel and the one packed byte `0x00`. -/
def Obligations.EmptySourceGivesOneZeroByte : Prop :=
  ∀ s : State, ∃ t, runCommands (encodeCommands []) s = .next t ∧
    t.table.fwd[sentinel] = some [false] ∧ (∀ x : Symbol, x ≠ sentinel → t.table.fwd[x] = none) ∧
    t.table.inv = [{ code := [false], sym := sentinel }] ∧ t.table.nsym = 1#9 ∧ t.out = s.out ++ [0x00#8]

/-- R159, R160: `CT.LKP` and `CT.FIND`, with every refusal. -/
def Obligations.LookupAndFindFollowTheirRules : Prop :=
  (∀ (s : State) (a : BitVec 16),
    (256 < a.toNat → exec (.ctLkp a) s = .next (s.faulted 2#8)) ∧
    ∀ x : Symbol, a.toNat = x.val →
      (s.table.fwd[x] = none → exec (.ctLkp a) s = .next (s.faulted 10#8)) ∧
      ∀ c : Bits, s.table.fwd[x] = some c →
        exec (.ctLkp a) s = .next ({ s with cwr := c }.answered 0#8 (BitVec.ofNat 64 c.length))) ∧
  ∀ s : State,
    (s.cwr = [] → exec .ctFind s = .next (s.faulted 7#8)) ∧
    (TableInv s.table → s.cwr ≠ [] →
      (∀ x : Symbol, { code := s.cwr, sym := x } ∈ s.table.inv →
        exec .ctFind s = .next (s.answered 0#8 (BitVec.ofNat 64 (4 * x.val + 2)))) ∧
      ((∀ e ∈ s.table.inv, e.code ≠ s.cwr) → (∃ e ∈ s.table.inv, s.cwr <+: e.code) →
        exec .ctFind s = .next (s.answered 0#8 1#64)) ∧
      ((∀ e ∈ s.table.inv, ¬ s.cwr <+: e.code) → exec .ctFind s = .next (s.answered 0#8 0#64)))

/-! ## The bit packer -/

/-- R181: `putbit` places the bit at position `7 − NB`, which is an OR while the bits below the held ones are 0, and emits the
byte in the step that places its eighth bit. -/
def Obligations.PutbitPlacesOneBit : Prop :=
  ∀ (r : Writer) (b : Bool), ∃ v : Byte,
    (∀ j : Nat, j < 8 → v.getLsbD j = if j = 7 - r.nb.toNat then b else r.acc.getLsbD j) ∧
    (WriterInv r → v = r.acc ||| ((if b then 1#8 else 0#8) <<< (7 - r.nb.toNat))) ∧
    (r.nb.toNat = 7 → putBit r b =
      ({ r with acc := 0#8, nb := 0#3, wbitcnt := r.wbitcnt + 1#64, outcnt := r.outcnt + 1#64 }, some v)) ∧
    (r.nb.toNat ≠ 7 → putBit r b = ({ r with acc := v, nb := r.nb + 1#3, wbitcnt := r.wbitcnt + 1#64 }, none))

/-- R180, R182, R183, R184: `BP.RST`, `BP.PUT`, `BP.ENC` and `BP.FLUSH`, with every refusal in order; `putBits` is `putbit`
for each bit in order. -/
def Obligations.BitPackerCommandsFollowTheirRules : Prop :=
  ((∀ r : Writer, putBits r [] = (r, [])) ∧ ∀ (r : Writer) (b : Bool) (c : Bits), putBits r (b :: c) =
    ((putBits (putBit r b).1 c).1, (putBit r b).2.toList ++ (putBits (putBit r b).1 c).2)) ∧
  (∀ s : State, exec .bpRst s = .next ({ s with writer :=
    { acc := 0#8, nb := 0#3, wclosed := false, wbitcnt := 0#64, outcnt := 0#64 } }.answered 0#8 0#64)) ∧
  (∀ s : State,
    (s.writer.wclosed = true → exec .bpPut s = .next (s.faulted 11#8) ∧ exec .bpFlush s = .next (s.faulted 11#8)) ∧
    (s.writer.wclosed = false → s.cwr = [] → exec .bpPut s = .next (s.faulted 7#8)) ∧
    (s.writer.wclosed = false → s.cwr ≠ [] → exec .bpPut s = .next
      { s with writer := (putBits s.writer s.cwr).1, out := s.out ++ (putBits s.writer s.cwr).2,
               ports := s.ports ++ (putBits s.writer s.cwr).2.map .out
                 ++ [.rsp 0#8 (BitVec.ofNat 64 (putBits s.writer s.cwr).2.length)] }) ∧
    (s.writer.wclosed = false → s.writer.nb.toNat = 0 →
      exec .bpFlush s = .next ({ s with writer := { s.writer with wclosed := true } }.answered 0#8 0#64)) ∧
    (s.writer.wclosed = false → 0 < s.writer.nb.toNat → exec .bpFlush s = .next
      { s with writer := { s.writer with acc := 0#8, nb := 0#3, wclosed := true, outcnt := s.writer.outcnt + 1#64 },
               out := s.out ++ [s.writer.acc], ports := s.ports ++ [.out s.writer.acc, .rsp 0#8 1#64] })) ∧
  ∀ (s : State) (a : BitVec 16),
    (256 < a.toNat → exec (.bpEnc a) s = .next (s.faulted 2#8)) ∧
    ∀ x : Symbol, a.toNat = x.val →
      (s.writer.wclosed = true → exec (.bpEnc a) s = .next (s.faulted 11#8)) ∧
      (s.writer.wclosed = false → s.table.fwd[x] = none → exec (.bpEnc a) s = .next (s.faulted 10#8)) ∧
      ∀ c : Bits, s.writer.wclosed = false → s.table.fwd[x] = some c → exec (.bpEnc a) s = .next
        { s with writer := (putBits s.writer c).1, out := s.out ++ (putBits s.writer c).2,
                 ports := s.ports ++ (putBits s.writer c).2.map .out
                   ++ [.rsp 0#8 (BitVec.ofNat 64 (putBits s.writer c).2.length)] }

/-- R185, with R73 and R75: what the writer holds and has emitted after the bits `w`, and the bytes a flush completes. -/
def Obligations.WriterEmitsThePackingOfItsBits : Prop :=
  (∀ w : Bits, (packedBytes w).length = (w.length + 7) / 8 ∧ wholeBytes w = (packedBytes w).take (w.length / 8) ∧
    ∀ k : Nat, k < 8 * (packedBytes w).length →
      ((packedBytes w).getD (k / 8) 0#8).getLsbD (7 - k % 8) = w.getD k false) ∧
  (∀ s : State, ∃ t, exec .bpRst s = .next t ∧ WriterHolds t.writer [] ∧ t.writer.wclosed = false ∧ t.out = s.out) ∧
  (∀ (s : State) (w : Bits), WriterHolds s.writer w → s.writer.wclosed = false → s.cwr ≠ [] → ∃ t,
    exec .bpPut s = .next t ∧ WriterHolds t.writer (w ++ s.cwr) ∧ t.writer.wclosed = false ∧ t.cwr = s.cwr ∧
    t.out = s.out ++ (wholeBytes (w ++ s.cwr)).drop (w.length / 8)) ∧
  (∀ (s : State) (w c : Bits) (a : BitVec 16) (x : Symbol), WriterHolds s.writer w → s.writer.wclosed = false →
    a.toNat = x.val → s.table.fwd[x] = some c → ∃ t,
    exec (.bpEnc a) s = .next t ∧ WriterHolds t.writer (w ++ c) ∧ t.writer.wclosed = false ∧ t.cwr = s.cwr ∧
    t.out = s.out ++ (wholeBytes (w ++ c)).drop (w.length / 8)) ∧
  ∀ (s : State) (w : Bits), WriterHolds s.writer w → s.writer.wclosed = false → ∃ t,
    exec .bpFlush s = .next t ∧ t.out = s.out ++ (packedBytes w).drop (w.length / 8) ∧
    t.writer = { acc := 0#8, nb := 0#3, wclosed := true, wbitcnt := BitVec.ofNat 64 w.length,
                 outcnt := BitVec.ofNat 64 ((w.length + 7) / 8) }

/-! ## The bit reader -/

/-- R195 to R199: `IN.RST`, `IN.BYTE`, `IN.END`, `getbit` and `IN.BIT`, with every refusal and condition. The answer of
`IN.BYTE` to a queue of 2^64 bytes or more is some value: the spec states none (log 17). -/
def Obligations.InputCommandsFollowTheirRules : Prop :=
  (∀ s : State,
    exec .inRst s = .next ({ s with reader :=
      { inq := [], eoi := false, racc := 0#8, rn := 0#3, rbitcnt := 0#64 } }.answered 0#8 0#64) ∧
    exec .inEnd s = .next ({ s with reader := { s.reader with eoi := true } }.answered 0#8 0#64)) ∧
  (∀ (s : State) (a : BitVec 16),
    (255 < a.toNat → exec (.inByte a) s = .next (s.faulted 2#8)) ∧
    ∀ b : Byte, a.toNat = b.toNat →
      (s.reader.eoi = true → exec (.inByte a) s = .next (s.faulted 12#8)) ∧
      (s.reader.eoi = false → s.cfg.inqCap = some s.reader.inq.length →
        exec (.inByte a) s = .next (s.faulted 13#8)) ∧
      (s.reader.eoi = false → s.cfg.inqCap ≠ some s.reader.inq.length → ∃ d : Word,
        exec (.inByte a) s =
          .next ({ s with reader := { s.reader with inq := s.reader.inq ++ [b] } }.answered 0#8 d) ∧
        (s.reader.inq.length + 1 < 2 ^ 64 → d.toNat = s.reader.inq.length + 1))) ∧
  (∀ r : Reader,
    (r.rn.toNat = 0 → r.inq = [] → getBit r = if r.eoi then .exhausted else .need) ∧
    (∀ (x : Byte) (q : List Byte), r.rn.toNat = 0 → r.inq = x :: q → getBit r = .bit (x.getLsbD 7)
      { r with inq := q, racc := x <<< 1, rn := 7#3, rbitcnt := r.rbitcnt + 1#64 }) ∧
    (r.rn.toNat ≠ 0 → getBit r = .bit (r.racc.getLsbD 7)
      { r with racc := r.racc <<< 1, rn := r.rn - 1#3, rbitcnt := r.rbitcnt + 1#64 })) ∧
  ∀ s : State,
    (getBit s.reader = .need → exec .inBit s = .next (s.answered 32#8 0#64)) ∧
    (getBit s.reader = .exhausted → exec .inBit s = .next (s.answered 33#8 0#64)) ∧
    ∀ (b : Bool) (r : Reader), getBit s.reader = .bit b r →
      exec .inBit s = .next ({ s with reader := r }.answered 0#8 (if b then 1#64 else 0#64))

/-- R200, with R73: the `k`-th bit taken is bit `7 − (k mod 8)` of byte `k div 8`, and what the reader then holds. -/
def Obligations.ReaderYieldsTheBitsOfItsBytes : Prop :=
  (∀ s : State, ∃ t, exec .inRst s = .next t ∧ ReaderAt t.reader [] 0) ∧
  (∀ (s : State) (bs : List Byte) (k : Nat) (a : BitVec 16) (b : Byte), ReaderAt s.reader bs k → a.toNat = b.toNat →
    s.reader.eoi = false → s.cfg.inqCap ≠ some s.reader.inq.length →
    ∃ t, exec (.inByte a) s = .next t ∧ ReaderAt t.reader (bs ++ [b]) k) ∧
  (∀ (s : State) (bs : List Byte) (k : Nat), ReaderAt s.reader bs k → k < 8 * bs.length →
    ∃ t, exec .inBit s = .next t ∧ ReaderAt t.reader bs (k + 1) ∧
      t.lastReply = some (0#8, if (bs.getD (k / 8) 0#8).getLsbD (7 - k % 8) then 1#64 else 0#64)) ∧
  ∀ (s : State) (bs : List Byte), ReaderAt s.reader bs (8 * bs.length) →
    exec .inBit s = .next (s.answered (if s.reader.eoi then 33#8 else 32#8) 0#64)

/-! ## The decoder -/

/-- R210, R211, R209: `DEC.RST`, and `DEC.BIT` with every refusal, condition and transition. -/
def Obligations.DecoderTransitionsFollowTheirRules : Prop :=
  (∀ s : State, exec .decRst s = .next ({ s with decoder :=
    { dstate := .root, cur := [], dcount := 0#64, trunc := false } }.answered 0#8 0#64)) ∧
  (∀ s : State, s.table.nsym = 0#9 → exec .decBit s = .next (s.faulted 14#8)) ∧
  (∀ s : State, s.table.nsym ≠ 0#9 → s.decoder.dstate = .done ∨ s.decoder.dstate = .error →
    exec .decBit s = .next (s.faulted 15#8)) ∧
  ∀ s : State, TableInv s.table → s.table.nsym ≠ 0#9 → s.decoder.dstate = .root ∨ s.decoder.dstate = .descending →
    (getBit s.reader = .need → exec .decBit s = .next (s.answered 32#8 0#64)) ∧
    (getBit s.reader = .exhausted → exec .decBit s =
      .next ({ s with decoder := { s.decoder with trunc := true } }.answered 33#8 s.decoder.dcount)) ∧
    ∀ (b : Bool) (r : Reader) (p : Bits), getBit s.reader = .bit b r → p = s.decoder.cur ++ [b] →
      (∀ x : Symbol, x.val ≤ 255 → { code := p, sym := x } ∈ s.table.inv → exec .decBit s = .next
        { s with reader := r,
                 decoder := { s.decoder with cur := [], dcount := s.decoder.dcount + 1#64, dstate := .root },
                 decout := s.decout ++ [BitVec.ofNat 8 x.val],
                 ports := s.ports ++ [.dec (BitVec.ofNat 8 x.val), .rsp 0#8 (BitVec.ofNat 64 (4 * x.val + 1))] }) ∧
      ({ code := p, sym := sentinel } ∈ s.table.inv → exec .decBit s = .next
        ({ s with reader := r, decoder := { s.decoder with cur := [], dstate := .done } }.answered 0#8 0x402#64)) ∧
      ((∀ e ∈ s.table.inv, e.code ≠ p) → (∃ e ∈ s.table.inv, p <+: e.code) → exec .decBit s = .next
        ({ s with reader := r, decoder := { s.decoder with cur := p, dstate := .descending } }.answered 0#8 0#64)) ∧
      ((∀ e ∈ s.table.inv, ¬ p <+: e.code) → exec .decBit s = .next
        { s with reader := r, decoder := { s.decoder with cur := p, dstate := .error },
                 err := { lasterr := 16#8, errseen := true }, ports := s.ports ++ [.rsp 16#8 r.rbitcnt] })

/-- R213: `DEC.SYM` repeats the transition while it answers `(OK, NONE)`; its answer is the first other one. -/
def Obligations.DecodeSymbolRepeatsTransitions : Prop :=
  ∀ s : State, ∃ t c d, exec .decBit s = .next t ∧ t.lastReply = some (c, d) ∧
    (c = 0#8 ∧ d.toNat % 4 = 0 → exec .decSym s = exec .decSym { t with ports := t.ports.dropLast }) ∧
    (¬ (c = 0#8 ∧ d.toNat % 4 = 0) → exec .decSym s = .next t)

/-- R214: `DEC.RUN` repeats the transition until the sentinel, answered with `DCOUNT`, or a fault or condition, passed on. -/
def Obligations.DecodeRunRepeatsTransitions : Prop :=
  ∀ s : State, ∃ t c d, exec .decBit s = .next t ∧ t.lastReply = some (c, d) ∧
    (c = 0#8 → d.toNat % 4 ≠ 2 → exec .decRun s = exec .decRun { t with ports := t.ports.dropLast }) ∧
    (c = 0#8 → d.toNat % 4 = 2 →
      exec .decRun s = .next { t with ports := t.ports.dropLast ++ [.rsp 0#8 t.decoder.dcount] }) ∧
    (c ≠ 0#8 → exec .decRun s = .next t)

/-- R211 to R214, R241 codes 14, 15, 32, 33: every decode command with no table, after the end of a session, or with no bit
to read is refused or waits, and takes nothing from the reader. -/
def Obligations.DecoderRefusesOrWaitsWithoutReading : Prop :=
  ∀ (s : State) (i : Instr), i = .decBit ∨ i = .decSym ∨ i = .decRun →
    (s.table.nsym = 0#9 → exec i s = .next (s.faulted 14#8)) ∧
    (s.table.nsym ≠ 0#9 → s.decoder.dstate = .done ∨ s.decoder.dstate = .error →
      exec i s = .next (s.faulted 15#8)) ∧
    (s.table.nsym ≠ 0#9 → s.decoder.dstate = .root ∨ s.decoder.dstate = .descending → s.reader.inq = [] →
      s.reader.rn.toNat = 0 →
      (s.reader.eoi = false → exec i s = .next (s.answered 32#8 0#64)) ∧
      (s.reader.eoi = true → exec i s =
        .next ({ s with decoder := { s.decoder with trunc := true } }.answered 33#8 s.decoder.dcount)))

/-- R213, R214 on a stream that holds whole codewords: what `DEC.SYM` and `DEC.RUN` answer, emit and leave unread. -/
def Obligations.DecodeCommandsReadWholeCodewords : Prop :=
  ∀ s : State, TableInv s.table → s.decoder.dstate = .root → s.decoder.cur = [] →
    (∀ (x : Symbol) (c z : Bits), x.val ≤ 255 → s.table.fwd[x] = some c → s.reader.unread = c ++ z → ∃ r : Reader,
      r.unread = z ∧ r.eoi = s.reader.eoi ∧ r.rbitcnt = s.reader.rbitcnt + BitVec.ofNat 64 c.length ∧
      exec .decSym s = .next
        { s with reader := r, decoder := { s.decoder with dcount := s.decoder.dcount + 1#64 },
                 decout := s.decout ++ [BitVec.ofNat 8 x.val],
                 ports := s.ports ++ [.dec (BitVec.ofNat 8 x.val), .rsp 0#8 (BitVec.ofNat 64 (4 * x.val + 1))] }) ∧
    (∀ c z : Bits, s.table.fwd[sentinel] = some c → s.reader.unread = c ++ z → ∃ r : Reader,
      r.unread = z ∧ r.eoi = s.reader.eoi ∧ r.rbitcnt = s.reader.rbitcnt + BitVec.ofNat 64 c.length ∧
      exec .decSym s = .next
        ({ s with reader := r, decoder := { s.decoder with dstate := .done } }.answered 0#8 0x402#64)) ∧
    ∀ (xs : List Byte) (w z : Bits), codeStream s.table (xs.map literal ++ [sentinel]) = some w →
      s.reader.unread = w ++ z → ∃ r : Reader,
      r.unread = z ∧ r.eoi = s.reader.eoi ∧ r.rbitcnt = s.reader.rbitcnt + BitVec.ofNat 64 w.length ∧
      exec .decRun s = .next
        { s with reader := r,
                 decoder := { s.decoder with dstate := .done,
                                             dcount := s.decoder.dcount + BitVec.ofNat 64 xs.length },
                 decout := s.decout ++ xs,
                 ports := s.ports ++ xs.map .dec
                   ++ [.rsp 0#8 (s.decoder.dcount + BitVec.ofNat 64 xs.length)] }

/-- R215: writing symbols and the sentinel with a table and decoding the bytes with the same table gives the symbols back. -/
def Obligations.WrittenSymbolsDecodeToThemselves : Prop :=
  ∀ (s : State) (xs : List Byte), TableInv s.table → (∀ b ∈ xs, s.table.fwd[literal b] ≠ none) →
    s.table.fwd[sentinel] ≠ none → ∃ t packed,
    runCommands (writeCommands xs) s = .next t ∧ t.out = s.out ++ packed ∧ t.table = s.table ∧
    (fitsQueue s.cfg packed.length → ∃ u, runCommands (decodeCommands packed) t = .next u ∧
      u.decout = s.decout ++ xs ∧ u.decoder.dstate = .done ∧ u.decoder.dcount = BitVec.ofNat 64 xs.length ∧
      u.decoder.trunc = false ∧ u.err = s.err ∧ u.lastReply = some (0#8, BitVec.ofNat 64 xs.length))

/-- R290, R295 and 95_test_vectors.md S1: from any state, the encode sequence of any source whose counts fit, then the decode
session over the bytes it emitted, gives the source back. -/
def Obligations.EncodedSourceDecodesToItself : Prop :=
  ∀ (s : State) (xs : List Byte), s.cfg.cntW ≤ 32 → (∀ b : Byte, xs.count b ≤ 2 ^ s.cfg.cntW - 1) → ∃ t packed,
    runCommands (encodeCommands xs) s = .next t ∧ t.out = s.out ++ packed ∧ packed ≠ [] ∧
    t.table.nsym.toNat = xs.dedup.length + 1 ∧
    (fitsQueue s.cfg packed.length → ∃ u, runCommands (decodeCommands packed) t = .next u ∧
      u.decout = s.decout ++ xs ∧ u.decoder.dstate = .done ∧ u.decoder.trunc = false ∧ u.err = s.err ∧
      u.lastReply = some (0#8, BitVec.ofNat 64 xs.length))

/-! ## The whole machine -/

/-- R91, R81, R52, R53: for each command one `cmd`, then its `out` and `dec` transactions, then one `rsp`; the logs grow by
exactly the bytes emitted. -/
def Obligations.CommandEmitsThenRespondsOnce : Prop :=
  ∀ (s t : State) (w : Word) (rest : List HostInput), s.pending = .command w :: rest → step s = .next t →
    ∃ (evs : List PortEvent) (c : Byte) (d : Word), t.ports = s.ports ++ [.cmd w] ++ evs ++ [.rsp c d] ∧
      (∀ e ∈ evs, (∃ b, e = .out b) ∨ ∃ b, e = .dec b) ∧ t.out = s.out ++ evs.filterMap PortEvent.outByte ∧
      t.decout = s.decout ++ evs.filterMap PortEvent.decByte

/-- R241, R95: the codes that occur, which commands answer them, and the data of faults and conditions. -/
def Obligations.ResponseCodesAreTheAssignedOnes : Prop :=
  ∀ (i : Instr) (s t : State), exec i s = .next t → ∃ c d, t.lastReply = some (c, d) ∧
    (c = 0#8 ∨ (2 ≤ c.toNat ∧ c.toNat ≤ 16) ∨ c = 32#8 ∨ c = 33#8) ∧
    (2 ≤ c.toNat → c.toNat ≤ 15 → d = 0#64) ∧ (c = 16#8 → d = t.reader.rbitcnt ∧ t.decoder.dstate = .error) ∧
    (c = 32#8 → d = 0#64) ∧ (c = 33#8 → i = .inBit → d = 0#64) ∧
    (c = 33#8 → i ≠ .inBit → d = t.decoder.dcount ∧ t.decoder.trunc = true) ∧
    (c = 2#8 → mnemonicOf i ∈ ["CSR.RD", "FQ.SET", "FQ.INC", "FQ.RD", "TB.RDN", "TB.RDF", "CW.APP", "CW.RD", "CT.INS",
      "CT.LKP", "BP.ENC", "IN.BYTE"]) ∧
    (c = 3#8 → mnemonicOf i = "FQ.INC") ∧ (c = 4#8 → mnemonicOf i ∈ ["TB.INIT", "TB.BUILD"]) ∧
    (c = 5#8 → mnemonicOf i ∈ ["TB.STEP", "CT.GEN"]) ∧ (c = 6#8 → mnemonicOf i = "CW.APP") ∧
    (c = 7#8 → mnemonicOf i ∈ ["CT.INS", "CT.FIND", "BP.PUT"]) ∧ (c = 8#8 → mnemonicOf i = "CT.INS") ∧
    (c = 9#8 → mnemonicOf i = "CT.INS") ∧ (c = 10#8 → mnemonicOf i ∈ ["CT.LKP", "BP.ENC"]) ∧
    (c = 11#8 → mnemonicOf i ∈ ["BP.PUT", "BP.ENC", "BP.FLUSH"]) ∧ (c = 12#8 → mnemonicOf i = "IN.BYTE") ∧
    (c = 13#8 → mnemonicOf i = "IN.BYTE") ∧
    (14 ≤ c.toNat → c.toNat ≤ 16 → mnemonicOf i ∈ ["DEC.BIT", "DEC.SYM", "DEC.RUN"]) ∧
    (32 ≤ c.toNat → mnemonicOf i ∈ ["IN.BIT", "DEC.BIT", "DEC.SYM", "DEC.RUN"])

/-- R243, R244, R248, R249: a fault records its code and, but for DECODE_MISMATCH and the completed transitions of `DEC.SYM`
and `DEC.RUN`, changes nothing else; a condition and a success leave the error registers alone. -/
def Obligations.FaultsArePreciseAndRecorded : Prop :=
  ∀ (i : Instr) (s t : State) (c : Byte) (d : Word), exec i s = .next t → t.lastReply = some (c, d) →
    (1 ≤ c.toNat → c.toNat ≤ 31 → t.err = { lasterr := c, errseen := true } ∧
      (c ≠ 16#8 → i ≠ .decSym → i ≠ .decRun → t = s.faulted c)) ∧
    (c = 32#8 ∨ c = 33#8 → t.err = s.err) ∧
    (c = 32#8 → i ≠ .decSym → i ≠ .decRun → t = s.answered 32#8 0#64) ∧
    (c = 33#8 → i = .inBit → t = s.answered 33#8 0#64) ∧
    (c = 0#8 → i ≠ .srst → i ≠ .errClr → t.err = s.err)

/-- R93, R245: BAD_OPERAND is answered, before every other check, exactly where an operand is out of its range. -/
def Obligations.BadOperandExactlyOutOfRange : Prop :=
  ∀ (i : Instr) (s : State),
    (WellFormed s.cfg i = false → exec i s = .next (s.faulted 2#8)) ∧
    (WellFormed s.cfg i = true → ∀ t d, exec i s = .next t → t.lastReply ≠ some (2#8, d))

/-- R71's column "written by", R23, R31, R40: each table changes only by the commands named for it. -/
def Obligations.IndexSpacesAreWrittenOnlyByTheirCommands : Prop :=
  ∀ (i : Instr) (s t : State), exec i s = .next t →
    (mnemonicOf i ∉ ["FQ.CLR", "FQ.SET", "FQ.INC", "SRST"] → t.freq = s.freq) ∧
    (mnemonicOf i ∉ ["TB.INIT", "TB.STEP", "TB.BUILD", "TB.FREE", "SRST"] → t.tree = s.tree) ∧
    (mnemonicOf i ∉ ["CT.CLR", "CT.GEN", "CT.INS", "SRST"] → t.table = s.table) ∧
    (mnemonicOf i ∉ ["CW.CLR", "CW.APP", "CT.LKP", "SRST"] → t.cwr = s.cwr)

/-- R41 to R53, by unit: the writer, the reader, the decoder and the logs change only by the commands that name them. That
`CSR.RD`, `FQ.RD`, `TB.RDN`, `TB.RDF`, `CW.RD` and `CT.FIND` change none of them is R79. -/
def Obligations.UnitRegistersAreWrittenOnlyByTheirCommands : Prop :=
  ∀ (i : Instr) (s t : State), exec i s = .next t →
    (mnemonicOf i ∉ ["BP.RST", "BP.PUT", "BP.ENC", "BP.FLUSH", "SRST"] → t.writer = s.writer) ∧
    (mnemonicOf i ∉ ["BP.PUT", "BP.ENC", "BP.FLUSH"] → t.out = s.out) ∧
    (mnemonicOf i ∉ ["IN.RST", "IN.BYTE", "IN.END", "IN.BIT", "DEC.BIT", "DEC.SYM", "DEC.RUN", "SRST"] →
      t.reader = s.reader) ∧
    (mnemonicOf i ∉ ["DEC.RST", "DEC.BIT", "DEC.SYM", "DEC.RUN", "SRST"] → t.decoder = s.decoder) ∧
    (mnemonicOf i ∉ ["DEC.BIT", "DEC.SYM", "DEC.RUN"] → t.decout = s.decout)

/-- R55, R29, R47: what sets and what clears each flag, and which commands move `TSTATE` and `DSTATE`. -/
def Obligations.FlagsChangeOnlyByTheirCommands : Prop :=
  ∀ (i : Instr) (s t : State), exec i s = .next t →
    (s.writer.wclosed = false → t.writer.wclosed = true → i = .bpFlush) ∧
    (s.writer.wclosed = true → t.writer.wclosed = false → i = .bpRst ∨ i = .srst) ∧
    (s.reader.eoi = false → t.reader.eoi = true → i = .inEnd) ∧
    (s.reader.eoi = true → t.reader.eoi = false → i = .inRst ∨ i = .srst) ∧
    (s.decoder.trunc = false → t.decoder.trunc = true →
      (i = .decBit ∨ i = .decSym ∨ i = .decRun) ∧ ∃ d, t.lastReply = some (33#8, d)) ∧
    (s.decoder.trunc = true → t.decoder.trunc = false → i = .decRst ∨ i = .srst) ∧
    (s.err.errseen = false → t.err.errseen = true → ∃ c d, t.lastReply = some (c, d) ∧ 1 ≤ c.toNat ∧ c.toNat ≤ 31) ∧
    (s.err.errseen = true → t.err.errseen = false → i = .errClr ∨ i = .srst) ∧
    (t.tree.tstate ≠ s.tree.tstate → mnemonicOf i ∈ ["TB.INIT", "TB.STEP", "TB.BUILD", "TB.FREE", "SRST"]) ∧
    (t.decoder.dstate ≠ s.decoder.dstate → mnemonicOf i ∈ ["DEC.RST", "DEC.BIT", "DEC.SYM", "DEC.RUN", "SRST"])

/-- R22 and logs 1, 3: no command changes the host's waiting inputs or the parameters, and none depends on what waits. -/
def Obligations.CommandsLeaveHostInputsAndParameters : Prop :=
  ∀ (i : Instr) (s t : State), exec i s = .next t → t.cfg = s.cfg ∧ t.pending = s.pending ∧
    ∀ q : List HostInput, exec i { s with pending := q } = .next { t with pending := q }

/-- R231: "indistinguishable, to any later command": no command depends on the output logs or the transaction record; it
only appends to them. -/
def Obligations.OutputLogsInfluenceNoCommand : Prop :=
  ∀ (i : Instr) (s t : State) (out decout : List Byte) (ports : List PortEvent), exec i s = .next t →
    exec i (s.withLogs out decout ports) = .next (t.withLogs (out ++ t.out.drop s.out.length)
      (decout ++ t.decout.drop s.decout.length) (ports ++ t.ports.drop s.ports.length))

/-- R83, R303: "Every command terminates": under the tree's invariant every command answers a next state. -/
def Obligations.EveryCommandCompletes : Prop :=
  ∀ (i : Instr) (s : State), TreeInv s.tree → ∃ t c d, exec i s = .next t ∧ t.lastReply = some (c, d)

/-! ## Invariants -/

/-- The state right after reset meets every invariant of 10_state.md. -/
def Obligations.ResetMeetsEveryInvariant : Prop :=
  State.reset.Inv

/-- R24, R23: the sentinel's count stays at least 1, and every count stays within `CNT_MAX`. -/
def Obligations.StepKeepsTheSentinelCount : Prop :=
  (∀ s s' : State, 1 ≤ s.freq[sentinel].toNat → step s = .next s' → 1 ≤ s'.freq[sentinel].toNat) ∧
  ∀ s s' : State, FreqInv s.cfg s.freq → step s = .next s' → FreqInv s'.cfg s'.freq

/-- R30 with R25 to R29, R136: every step keeps the invariants of the tree state. -/
def Obligations.StepKeepsTheTreeInvariants : Prop :=
  ∀ s s' : State, TreeInv s.tree → step s = .next s' → TreeInv s'.tree

/-- R33, R158: every step keeps the invariants of the code table (consistency, prefix-freeness, lengths, `NSYM`), and `CWR`
within 256 bits. -/
def Obligations.StepKeepsTheCodeTableInvariants : Prop :=
  ∀ s s' : State, TreeInv s.tree → TableInv s.table → s.cwr.length ≤ 256 → step s = .next s' →
    TableInv s'.table ∧ s'.cwr.length ≤ 256

/-- R41, R44, R45, R51, R52, R53: every step keeps the low bits of the accumulators zero, the queue within its capacity, the
error registers consistent, and the logs equal to what left on the ports (the record of ports is the model's, log 2). -/
def Obligations.StepKeepsTheUnitInvariants : Prop :=
  ∀ s s' : State, step s = .next s' →
    (WriterInv s.writer → WriterInv s'.writer) ∧ (ReaderInv s.cfg s.reader → ReaderInv s'.cfg s'.reader) ∧
    (ErrorInv s.err → ErrorInv s'.err) ∧ (LogInv s → LogInv s')

/-- R48, R298: every step keeps `CUR` as `DSTATE` says, within 256 bits; and while `CT.CLR` and `CT.GEN` are not given, a
descending decoder stands on an internal node of the trie. -/
def Obligations.StepKeepsTheDecoderInvariant : Prop :=
  (∀ s s' : State, TableInv s.table → DecoderInv s.decoder → step s = .next s' → DecoderInv s'.decoder) ∧
  ∀ (i : Instr) (s t : State), i ≠ .ctClr → i ≠ .ctGen → TableInv s.table → exec i s = .next t →
    (s.decoder.dstate = .descending → trieNode s.table.inv s.decoder.cur = .internal) →
    t.decoder.dstate = .descending → trieNode t.table.inv t.decoder.cur = .internal

/-- R250: "The block never stops by itself": from every state that meets the invariants, any number of steps runs, and the
invariants hold after it. -/
def Obligations.MachineNeverStopsByItself : Prop :=
  ∀ s : State, s.Inv → ∀ n : Nat, ∃ t : State, Sys2Proof.core.run n s = .next t ∧ t.Inv

/-! ## The trie view -/

/-- R32: a node exists at a path iff the path is empty (the root, always present) or a prefix of a stored codeword; it is the
leaf holding `x` iff the path is `x`'s codeword, so the root never is; the child by a bit may be absent; `INV` is empty at
reset. -/
def Obligations.TrieViewFollowsItsRule : Prop :=
  State.reset.table.inv = [] ∧
  (∀ (inv : List CodePair) (p : Bits), trieNode inv p ≠ .absent ↔ p = [] ∨ ∃ e ∈ inv, p <+: e.code) ∧
  (∀ (inv : List CodePair) (p : Bits) (b : Bool),
    trieNode inv (p ++ [b]) = .absent ↔ ∀ e ∈ inv, ¬ p ++ [b] <+: e.code) ∧
  ∀ t : CodeTable, TableInv t → trieNode t.inv [] = .internal ∧
    ∀ (p : Bits) (x : Symbol), trieNode t.inv p = .leaf x ↔ { code := p, sym := x } ∈ t.inv

end
end

