-- ==== Sys2Proof/Laws/Bits.lean ====
section
/-! SUPPORT. Bit sequences, bytes and their packing (spec/20_memory.md rules R73 to R77; 43_bit_packer.md rule R185). -/

namespace Sys2Proof.Machine

@[simp] theorem bitsMsb_length {w : Nat} (v : BitVec w) (n : Nat) : (bitsMsb v n).length = n := by
  induction n with
  | zero => rfl
  | succ n ih => simp [bitsMsb, ih]

theorem bitsMsb_getElem {w : Nat} (v : BitVec w) (n i : Nat) (h : i < (bitsMsb v n).length) :
    (bitsMsb v n)[i] = v.getLsbD (n - 1 - i) := by
  induction n generalizing i with
  | zero => simp at h
  | succ n ih =>
    cases i with
    | zero => simp [bitsMsb]
    | succ i =>
      simp only [bitsMsb, List.getElem_cons_succ]
      rw [ih i (by simpa [bitsMsb] using h)]
      congr 1; omega

@[simp] theorem byteBits_length (b : Byte) : (byteBits b).length = 8 := bitsMsb_length _ _

theorem bitsValue_append (c : Bits) (b : Bool) : bitsValue (c ++ [b]) = 2 * bitsValue c + b.toNat := by
  simp [bitsValue]

theorem bitsValue_lt (c : Bits) : bitsValue c < 2 ^ c.length := by
  induction c using List.reverseRecOn with
  | nil => simp [bitsValue]
  | append_singleton c b ih =>
    rw [bitsValue_append, List.length_append, List.length_singleton, Nat.pow_succ]
    have := b.toNat_lt
    omega

/-- Bit `i` of a sequence's value, counted from its last element. -/
theorem bitsValue_testBit (c : Bits) (i : Nat) : (bitsValue c).testBit i = c.reverse.getD i false := by
  induction c using List.reverseRecOn generalizing i with
  | nil => simp [bitsValue]
  | append_singleton c b ih =>
    rw [bitsValue_append]
    cases i with
    | zero => cases b <;> simp [Nat.testBit_zero]
    | succ i =>
      rw [Nat.testBit_succ]
      have : (2 * bitsValue c + b.toNat) / 2 = bitsValue c := by have := b.toNat_lt; omega
      rw [this, ih]; simp

theorem packedByte_getLsbD (w : Bits) (k i : Nat) (h : i < 8) :
    (packedByte w k).getLsbD i = w.getD (8 * k + (7 - i)) false := by
  have hi : i < ((List.range 8).map fun j => w.getD (8 * k + j) false).reverse.length := by simpa using h
  simp only [packedByte, BitVec.getLsbD_ofNat, h, decide_true, Bool.true_and, bitsValue_testBit]
  rw [List.getD_eq_getElem _ _ hi, List.getElem_reverse]
  simp

theorem byte_ext (a b : Byte) (h : ∀ i < 8, a.getLsbD i = b.getLsbD i) : a = b :=
  BitVec.eq_of_getLsbD_eq fun i hi => h i hi

theorem setBit_getLsbD (v : Byte) (i j : Nat) (b : Bool) (hi : i < 8) (hj : j < 8) :
    (setBit v i b).getLsbD j = if j = i then b else v.getLsbD j := by
  have h1 : ((1#8 : Byte) <<< i).getLsbD j = decide (j = i) := by
    rw [BitVec.getLsbD_shiftLeft]
    simp only [hj, decide_true, Bool.true_and, BitVec.getLsbD_one]
    by_cases h : j = i
    · subst h; simp
    · have : (!decide (j < i) && decide (j - i = 0)) = false := by
        by_cases h2 : j < i <;> simp [h2]; omega
      simpa [h] using this
  unfold setBit
  cases b
  · simp only [Bool.false_eq_true, if_false, BitVec.getLsbD_and, BitVec.getLsbD_not, h1, hj, decide_true, Bool.true_and]
    by_cases h : j = i <;> simp [h]
  · simp only [if_true, BitVec.getLsbD_or, h1]
    by_cases h : j = i <;> simp [h]

theorem wholeBytes_length (w : Bits) : (wholeBytes w).length = w.length / 8 := by simp [wholeBytes]

theorem packedBytes_length (w : Bits) : (packedBytes w).length = (w.length + 7) / 8 := by simp [packedBytes]

/-- A byte wholly inside `w` does not see what follows. -/
theorem packedByte_append (w c : Bits) (k : Nat) (h : k < w.length / 8) :
    packedByte (w ++ c) k = packedByte w k := by
  apply byte_ext
  intro i hi
  rw [packedByte_getLsbD _ _ _ hi, packedByte_getLsbD _ _ _ hi]
  have : 8 * k + (7 - i) < w.length := by omega
  simp [List.getD_eq_getElem?_getD, List.getElem?_append_left this]

/-- The flushed stream is the whole bytes and, where bits are pending, one padded byte (R75, R184). -/
theorem packedBytes_eq (w : Bits) :
    packedBytes w = wholeBytes w ++ (if w.length % 8 = 0 then [] else [packedByte w (w.length / 8)]) := by
  unfold packedBytes wholeBytes
  split
  · rename_i h
    have : (w.length + 7) / 8 = w.length / 8 := by omega
    simp [this]
  · rename_i h
    have : (w.length + 7) / 8 = w.length / 8 + 1 := by omega
    rw [this, List.range_succ]; simp

end Sys2Proof.Machine
end

