-- ==== Sys2Proof/Laws/BitPacker.lean ====
section
/-! SUPPORT. `putbit` and the writer's law (spec/43_bit_packer.md rules R181, R185). -/

namespace Sys2Proof.Machine

/-- A created writer has accepted nothing (R180). -/
theorem writerHolds_reset : WriterHolds Writer.reset [] :=
  ⟨rfl, by decide, rfl, rfl⟩

/-- All that `putbit` does to a writer that has accepted `w`: it has then accepted `w ++ [b]`, and the byte it emits,
if any, is the whole byte this completes. -/
theorem putBit_holds (r : Writer) (w : Bits) (b : Bool) (h : WriterHolds r w) :
    WriterHolds (putBit r b).1 (w ++ [b]) ∧ wholeBytes (w ++ [b]) = wholeBytes w ++ (putBit r b).2.toList := by
  obtain ⟨hn, ha, hw, ho⟩ := h
  have hlen : (w ++ [b]).length = w.length + 1 := by simp
  -- the accumulator with the new bit placed is the byte of `w ++ [b]` it belongs to
  have hacc : setBit r.acc (7 - r.nb.toNat) b = packedByte (w ++ [b]) (w.length / 8) := by
    apply byte_ext
    intro i hi
    rw [setBit_getLsbD _ _ _ _ (by omega) hi, packedByte_getLsbD _ _ _ hi, ha, packedByte_getLsbD _ _ _ hi, hn]
    by_cases hc : i = 7 - w.length % 8
    · have : 8 * (w.length / 8) + (7 - i) = w.length := by omega
      simp [hc]
      have h2 : 8 * (w.length / 8) + (7 - (7 - w.length % 8)) = w.length := by omega
      rw [h2]; simp
    · simp only [hc, if_false, List.getD_eq_getElem?_getD]
      by_cases hlt : 8 * (w.length / 8) + (7 - i) < w.length
      · rw [List.getElem?_append_left hlt]
      · have h1 : w.length < 8 * (w.length / 8) + (7 - i) := by omega
        rw [List.getElem?_eq_none (by omega), List.getElem?_eq_none (by simp; omega)]
  by_cases hb : r.nb = 7#3
  · have h7 : w.length % 8 = 7 := by rw [← hn, hb]; rfl
    have hdiv : (w.length + 1) / 8 = w.length / 8 + 1 := by omega
    simp only [putBit, hb, if_true]
    refine ⟨⟨?_, ?_, ?_, ?_⟩, ?_⟩
    · simp [hlen]; omega
    · apply byte_ext
      intro i hi
      rw [packedByte_getLsbD _ _ _ hi, hlen, hdiv, List.getD_eq_getElem?_getD,
        List.getElem?_eq_none (by simp; omega)]
      simp
    · simp [hlen, hw, BitVec.ofNat_add]
    · simp [hlen, hdiv, ho, BitVec.ofNat_add]
    · rw [hb] at hacc
      simp only [wholeBytes, hlen, hdiv, List.range_succ, List.map_append, List.map_cons, List.map_nil, hacc,
        Option.toList_some]
      congr 1
      apply List.map_congr_left
      intro k hk
      exact packedByte_append w [b] k (List.mem_range.mp hk)
  · have h7 : w.length % 8 ≠ 7 := by
      intro h; apply hb; apply BitVec.eq_of_toNat_eq; rw [hn, h]; rfl
    have hdiv : (w.length + 1) / 8 = w.length / 8 := by omega
    simp only [putBit, hb, if_false]
    refine ⟨⟨?_, ?_, ?_, ?_⟩, ?_⟩
    · simp only [hlen, BitVec.toNat_add, BitVec.toNat_ofNat, hn]; omega
    · simp only [hacc, hlen, hdiv]
    · simp [hlen, hw, BitVec.ofNat_add]
    · simp [hlen, hdiv, ho]
    · simp only [wholeBytes, hlen, hdiv, Option.toList_none, List.append_nil]
      apply List.map_congr_left
      intro k hk
      exact packedByte_append w [b] k (List.mem_range.mp hk)

/-- All that writing a codeword does (R182, R183, R185). -/
theorem putBits_holds (r : Writer) (w c : Bits) (h : WriterHolds r w) :
    WriterHolds (putBits r c).1 (w ++ c) ∧ wholeBytes (w ++ c) = wholeBytes w ++ (putBits r c).2 := by
  induction c generalizing r w with
  | nil => simpa [putBits] using h
  | cons b c ih =>
    obtain ⟨h1, h2⟩ := putBit_holds r w b h
    obtain ⟨h3, h4⟩ := ih (putBit r b).1 (w ++ [b]) h1
    simp only [putBits, List.append_assoc, List.singleton_append] at *
    exact ⟨h3, by rw [h4, h2]; simp⟩

/-- Writing bits neither opens nor closes the writer (R55). -/
theorem putBits_wclosed (r : Writer) (c : Bits) : (putBits r c).1.wclosed = r.wclosed := by
  induction c generalizing r with
  | nil => rfl
  | cons b c ih => simp only [putBits, ih]; unfold putBit; split <;> rfl

/-- `putbit` keeps the bits below the held ones 0 (R41). -/
theorem putBit_writerInv (r : Writer) (b : Bool) (h : WriterInv r) : WriterInv (putBit r b).1 := by
  unfold putBit
  split
  · intro i _; simp
  · rename_i hb
    have h7 : r.nb.toNat ≠ 7 := fun h => hb (BitVec.eq_of_toNat_eq h)
    have := r.nb.isLt
    intro i hi
    simp only [BitVec.toNat_add, BitVec.toNat_ofNat] at hi
    rw [setBit_getLsbD _ _ _ _ (by omega) (by omega)]
    split
    · omega
    · exact h i (by omega)

theorem putBits_writerInv (r : Writer) (c : Bits) (h : WriterInv r) : WriterInv (putBits r c).1 := by
  induction c generalizing r with
  | nil => exact h
  | cons b c ih => exact ih _ (putBit_writerInv r b h)

end Sys2Proof.Machine
end

