-- ==== Sys2Proof/Laws/BitReader.lean ====
section
/-! SUPPORT. `getbit` and the reader's law (spec/44_bit_reader.md rules R198, R200). -/

namespace Sys2Proof.Machine

theorem byteBits_take_cons (x : Byte) (n : Nat) :
    (byteBits x).take (n + 1) = x.getLsbD 7 :: (byteBits (x <<< 1)).take n ∨ 8 ≤ n := by
  by_cases h : n < 8
  · left
    apply List.ext_getElem
    · simp; omega
    · intro i h1 h2
      simp only [List.length_take, byteBits_length] at h1
      rw [List.getElem_take]
      cases i with
      | zero => simp [byteBits, bitsMsb_getElem]
      | succ i =>
        rw [List.getElem_cons_succ, List.getElem_take]
        simp only [byteBits, bitsMsb_getElem, BitVec.getLsbD_shiftLeft]
        have hd : decide (8 - 1 - i < 8) = true := by simp; omega
        have hd2 : decide (8 - 1 - i < 1) = false := by simp; omega
        rw [hd, hd2]
        simp only [Bool.not_false, Bool.true_and]
        congr 1
  · right; omega

/-- Below 2^64 bytes the queue's length is shown as it is (R196, R54). -/
theorem queueLength_toNat (q : List Byte) (h : q.length < 2 ^ 64) : (queueLength q).toNat = q.length := by
  rw [queueLength, if_pos h, BitVec.toNat_ofNat, Nat.mod_eq_of_lt h]

/-- All that `getbit` does when it yields a bit: it takes the first unread bit, counts it, and leaves `EOI` (R198, R200). -/
theorem getBit_bit (r r' : Reader) (b : Bool) (h : getBit r = .bit b r') :
    r.unread = b :: r'.unread ∧ r'.rbitcnt = r.rbitcnt + 1#64 ∧ r'.eoi = r.eoi ∧
      r'.available + 1 = r.available := by
  unfold getBit at h
  split at h
  · rename_i h0
    cases hq : r.inq with
    | nil => rw [hq] at h; simp at h; split at h <;> cases h
    | cons x q =>
      rw [hq] at h
      simp only [ReadResult.bit.injEq] at h
      obtain ⟨rfl, rfl⟩ := h
      refine ⟨?_, rfl, rfl, ?_⟩
      · have h1 := (byteBits_take_cons x 7).resolve_right (by omega)
        have h2 : (byteBits x).take 8 = byteBits x := List.take_of_length_le (by simp)
        rw [h2] at h1
        simp [Reader.unread, h0, hq, h1]
      · simp [Reader.available, h0, hq]; omega
  · rename_i h0
    simp only [ReadResult.bit.injEq] at h
    obtain ⟨rfl, rfl⟩ := h
    have hne : r.rn.toNat ≠ 0 := fun h => h0 (BitVec.eq_of_toNat_eq h)
    have hlt := r.rn.isLt
    have hs : (r.rn - 1#3).toNat = r.rn.toNat - 1 := by
      rw [BitVec.toNat_sub]; simp; omega
    refine ⟨?_, rfl, rfl, ?_⟩
    · have h1 := (byteBits_take_cons r.racc (r.rn.toNat - 1)).resolve_right (by omega)
      rw [show r.rn.toNat - 1 + 1 = r.rn.toNat by omega] at h1
      simp only [Reader.unread, hs, h1, List.cons_append]
    · simp only [Reader.available, hs]; omega

/-- When `getbit` yields no bit there is none to yield, and `EOI` decides the answer (R198). -/
theorem getBit_none (r : Reader) :
    (getBit r = .need → r.unread = [] ∧ r.available = 0 ∧ r.eoi = false) ∧
      (getBit r = .exhausted → r.unread = [] ∧ r.available = 0 ∧ r.eoi = true) := by
  unfold getBit
  split
  · rename_i h0
    cases hq : r.inq with
    | nil => cases he : r.eoi <;> simp [Reader.unread, Reader.available, h0, hq]
    | cons x q => simp
  · simp

theorem unread_length (r : Reader) : r.unread.length = r.available := by
  have := r.rn.isLt
  have h : (r.inq.flatMap byteBits).length = 8 * r.inq.length := by
    induction r.inq with
    | nil => rfl
    | cons x q ih => simp [ih]; omega
  simp only [Reader.unread, Reader.available, List.length_append, List.length_take, byteBits_length, h]
  omega

/-- A reader with an unread bit yields it (R198). -/
theorem getBit_of_unread (r : Reader) (b : Bool) (w : Bits) (h : r.unread = b :: w) :
    ∃ r', getBit r = .bit b r' ∧ r'.unread = w := by
  cases hg : getBit r with
  | bit b' r' =>
    have h1 := (getBit_bit r r' b' hg).1
    rw [h] at h1
    injection h1 with h2 h3
    exact ⟨r', by rw [h2], h3.symm⟩
  | need => rw [((getBit_none r).1 hg).1] at h; cases h
  | exhausted => rw [((getBit_none r).2 hg).1] at h; cases h

/-- `getbit` keeps the bits below the unread ones 0 and the queue within its capacity (R44, R45). -/
theorem getBit_readerInv (c : Config) (r r' : Reader) (b : Bool) (h : getBit r = .bit b r') (hi : ReaderInv c r) :
    ReaderInv c r' := by
  unfold getBit at h
  split at h
  · rename_i h0
    cases hq : r.inq with
    | nil => rw [hq] at h; simp at h; split at h <;> cases h
    | cons x q =>
      rw [hq] at h
      simp only [ReadResult.bit.injEq] at h
      obtain ⟨rfl, rfl⟩ := h
      refine ⟨?_, ?_⟩
      · intro i hlt
        have : i = 0 := by simp at hlt; omega
        subst this; simp
      · intro cap hc
        have := hi.capacity cap hc
        rw [hq] at this; simp at this ⊢; omega
  · rename_i h0
    simp only [ReadResult.bit.injEq] at h
    obtain ⟨rfl, rfl⟩ := h
    have hne : r.rn.toNat ≠ 0 := fun h => h0 (BitVec.eq_of_toNat_eq h)
    have hlt := r.rn.isLt
    have hs : (r.rn - 1#3).toNat = r.rn.toNat - 1 := by
      rw [BitVec.toNat_sub]; simp; omega
    refine ⟨?_, hi.capacity⟩
    intro i hl
    rw [hs] at hl
    rw [BitVec.getLsbD_shiftLeft]
    by_cases h1 : i < 1
    · simp [h1]
    · rw [hi.low (i - 1) (by omega)]; simp

end Sys2Proof.Machine
end

