-- ==== Sys2Proof/Laws/TreeBuilder.lean ====
section
/-! SUPPORT. The priority order, the merge and the tree invariant (spec/00_scope.md rule R11; 41_tree_builder.md
rules R131 to R136; 10_state.md rule R30). -/

namespace Sys2Proof.Machine

/-! ## The order and the least node -/

theorem precedes_iff (node : Vector Node 513) (a b : ArenaIndex) :
    precedes node a b = true ↔ node[a].freq.toNat < node[b].freq.toNat ∨
      (node[a].freq.toNat = node[b].freq.toNat ∧ node[a].key.val < node[b].key.val) := by
  simp [precedes, BitVec.lt_def, BitVec.toNat_eq]

theorem precedes_asymm (node : Vector Node 513) (a b : ArenaIndex) (h : precedes node a b = true) :
    precedes node b a = false := by
  rw [precedes_iff] at h
  rw [Bool.eq_false_iff, ne_eq, precedes_iff]; omega

/-- Nodes with distinct keys are ordered one way or the other (R133). -/
theorem precedes_total (node : Vector Node 513) (a b : ArenaIndex) (h : node[a].key ≠ node[b].key) :
    precedes node a b = true ∨ precedes node b a = true := by
  have : node[a].key.val ≠ node[b].key.val := fun h' => h (Fin.ext h')
  rw [precedes_iff, precedes_iff]; omega

theorem leastNode_eq_none (node : Vector Node 513) (l : List ArenaIndex) : leastNode node l = none ↔ l = [] := by
  cases l with
  | nil => simp [leastNode]
  | cons a l => simp only [leastNode]; split <;> simp

/-- All that `min≺` answers: a member that no member precedes (R11). -/
theorem leastNode_spec (node : Vector Node 513) (l : List ArenaIndex) (a : ArenaIndex) (h : leastNode node l = some a) :
    a ∈ l ∧ ∀ x ∈ l, precedes node x a = false := by
  induction l generalizing a with
  | nil => simp [leastNode] at h
  | cons c l ih =>
    simp only [leastNode] at h
    have irrefl : ∀ x, precedes node x x = false := fun x => by
      rw [Bool.eq_false_iff, ne_eq, precedes_iff]; omega
    split at h
    · rename_i hn
      rw [leastNode_eq_none] at hn
      subst hn
      simp only [Option.some.injEq] at h
      subst h; simp [irrefl]
    · rename_i b hb
      obtain ⟨hm, hl⟩ := ih b hb
      simp only [Option.some.injEq] at h
      split at h
      · rename_i hp
        subst h
        refine ⟨List.mem_cons_of_mem _ hm, fun x hx => ?_⟩
        rcases List.mem_cons.mp hx with rfl | hx
        · exact precedes_asymm _ _ _ hp
        · exact hl x hx
      · rename_i hp
        subst h
        refine ⟨List.mem_cons_self, fun x hx => ?_⟩
        rcases List.mem_cons.mp hx with rfl | hx
        · exact irrefl _
        · have h1 := hl x hx
          rw [Bool.eq_false_iff, ne_eq, precedes_iff] at h1 ⊢
          rw [precedes_iff] at hp
          omega

/-! ## Sets of indices -/

theorem mem_insertIndex (n m : ArenaIndex) (l : List ArenaIndex) : m ∈ insertIndex n l ↔ m = n ∨ m ∈ l := by
  induction l with
  | nil => simp [insertIndex]
  | cons a l ih =>
    simp only [insertIndex]
    split
    · simp
    · split
      · rename_i h; subst h; simp
      · simp only [List.mem_cons, ih]; tauto

theorem insertIndex_rising (n : ArenaIndex) (l : List ArenaIndex) (h : l.Pairwise (· < ·)) :
    (insertIndex n l).Pairwise (· < ·) := by
  induction l with
  | nil => simp [insertIndex]
  | cons a l ih =>
    rw [List.pairwise_cons] at h
    simp only [insertIndex]
    split
    · rename_i hn
      refine List.pairwise_cons.mpr ⟨fun x hx => ?_, List.pairwise_cons.mpr h⟩
      rcases List.mem_cons.mp hx with rfl | hx
      · exact hn
      · exact lt_trans hn (h.1 x hx)
    · split
      · exact List.pairwise_cons.mpr h
      · rename_i h1 h2
        refine List.pairwise_cons.mpr ⟨fun x hx => ?_, ih h.2⟩
        rcases (mem_insertIndex n x l).mp hx with rfl | hx
        · exact lt_of_le_of_ne (not_lt.mp h1) (Ne.symm h2)
        · exact h.1 x hx

theorem insertIndex_perm (n : ArenaIndex) (l : List ArenaIndex) (h : n ∉ l) : (insertIndex n l).Perm (n :: l) := by
  induction l with
  | nil => simp [insertIndex]
  | cons a l ih =>
    simp only [List.mem_cons, not_or] at h
    simp only [insertIndex]
    split
    · exact List.Perm.refl _
    · rw [if_neg h.1]
      exact ((ih h.2).cons a).trans (List.Perm.swap _ _ _)

/-! ## Subtrees -/

/-- Children have smaller indices than their parents (R30(e), first half). -/
def Descends (node : Vector Node 513) : Prop :=
  ∀ n : ArenaIndex, node[n].kind = .internal → node[n].left.toNat < n.val ∧ node[n].right.toNat < n.val

theorem entriesBelow_zero (node : Vector Node 513) (n : Nat) : entriesBelow node 0 n = [] := rfl

theorem entriesBelow_of_ge (node : Vector Node 513) (d n : Nat) (h : 513 ≤ n) : entriesBelow node d n = [] := by
  cases d with
  | zero => rfl
  | succ d => simp [entriesBelow, h]

theorem entriesBelow_succ (node : Vector Node 513) (d : Nat) (n : ArenaIndex) :
    entriesBelow node (d + 1) n.val =
      if node[n].kind = .internal then
        n.val :: (entriesBelow node d node[n].left.toNat ++ entriesBelow node d node[n].right.toNat)
      else [n.val] := by
  have : node[n.val]? = some node[n] := by simp
  simp only [entriesBelow, this]

/-- Any depth bound above the index gives the same subtree. -/
theorem entriesBelow_depth (node : Vector Node 513) (hd : Descends node) (n d1 d2 : Nat) (h1 : n < d1) (h2 : n < d2) :
    entriesBelow node d1 n = entriesBelow node d2 n := by
  induction n using Nat.strongRecOn generalizing d1 d2 with
  | _ n ih =>
    by_cases hn : n < 513
    · obtain ⟨d1, rfl⟩ : ∃ e, d1 = e + 1 := ⟨d1 - 1, by omega⟩
      obtain ⟨d2, rfl⟩ : ∃ e, d2 = e + 1 := ⟨d2 - 1, by omega⟩
      have e1 := entriesBelow_succ node d1 ⟨n, hn⟩
      have e2 := entriesBelow_succ node d2 ⟨n, hn⟩
      simp only at e1 e2
      rw [e1, e2]
      split
      · rename_i hk
        obtain ⟨hl, hr⟩ := hd ⟨n, hn⟩ hk
        simp only at hl hr
        rw [ih _ hl d1 d2 (by omega) (by omega), ih _ hr d1 d2 (by omega) (by omega)]
      · rfl
    · rw [entriesBelow_of_ge _ _ _ (by omega), entriesBelow_of_ge _ _ _ (by omega)]

/-- The subtree of an entry is itself and its children's subtrees (R30(a)). -/
theorem entriesBelow_internal (node : Vector Node 513) (hd : Descends node) (n : ArenaIndex)
    (hk : node[n].kind = .internal) :
    entriesBelow node 513 n.val =
      n.val :: (entriesBelow node 513 node[n].left.toNat ++ entriesBelow node 513 node[n].right.toNat) := by
  have h := entriesBelow_succ node 512 n
  rw [if_pos hk] at h
  obtain ⟨hl, hr⟩ := hd n hk
  have := n.isLt
  rw [h, entriesBelow_depth node hd _ 512 513 (by omega) (by omega),
    entriesBelow_depth node hd _ 512 513 (by omega) (by omega)]

theorem entriesBelow_other (node : Vector Node 513) (n : ArenaIndex) (hk : node[n].kind ≠ .internal) :
    entriesBelow node 513 n.val = [n.val] := by
  have h := entriesBelow_succ node 512 n
  rwa [if_neg hk] at h

/-- A subtree holds no index above its root. -/
theorem entriesBelow_le (node : Vector Node 513) (hd : Descends node) (d n : Nat) :
    ∀ m ∈ entriesBelow node d n, m ≤ n := by
  induction d generalizing n with
  | zero => simp [entriesBelow]
  | succ d ih =>
    by_cases hn : n < 513
    · have e := entriesBelow_succ node d ⟨n, hn⟩
      simp only at e
      rw [e]
      split
      · rename_i hk
        obtain ⟨hl, hr⟩ := hd ⟨n, hn⟩ hk
        simp only at hl hr
        intro m hm
        simp only [List.mem_cons, List.mem_append] at hm
        rcases hm with rfl | hm | hm
        · exact Nat.le_refl _
        · have := ih _ m hm; omega
        · have := ih _ m hm; omega
      · simp
    · rw [entriesBelow_of_ge _ _ _ (by omega)]; simp

/-- Writing an entry does not change the subtrees of lower entries. -/
theorem entriesBelow_set (node : Vector Node 513) (hd : Descends node) (m : ArenaIndex) (e : Node) (d n : Nat)
    (h : n < m.val) : entriesBelow (node.set m e) d n = entriesBelow node d n := by
  induction d generalizing n with
  | zero => rfl
  | succ d ih =>
    have hn : n < 513 := by omega
    have hg : (node.set m e)[(⟨n, hn⟩ : ArenaIndex)] = node[(⟨n, hn⟩ : ArenaIndex)] := by
      simp only [Fin.getElem_fin]
      rw [Vector.getElem_set_ne]; omega
    have e1 := entriesBelow_succ (node.set m e) d ⟨n, hn⟩
    have e2 := entriesBelow_succ node d ⟨n, hn⟩
    rw [hg] at e1
    simp only at e1 e2
    rw [e1, e2]
    split
    · rename_i hk
      obtain ⟨hl, hr⟩ := hd ⟨n, hn⟩ hk
      simp only at hl hr
      rw [ih _ (by omega), ih _ (by omega)]
    · rfl

theorem leafSymbol_set (node : Vector Node 513) (m : ArenaIndex) (e : Node) (n : Nat) (h : n ≠ m.val) :
    leafSymbol (node.set m e) n = leafSymbol node n := by
  unfold leafSymbol
  rw [Vector.getElem?_set_ne _ (Ne.symm h)]

theorem kindAt_set (node : Vector Node 513) (m : ArenaIndex) (e : Node) (n : Nat) :
    kindAt (node.set m e) n = if n = m.val then e.kind else kindAt node n := by
  unfold kindAt
  by_cases h : n = m.val
  · subst h; simp
  · rw [Vector.getElem?_set_ne _ (Ne.symm h), if_neg h]

theorem kindAt_fin (node : Vector Node 513) (n : ArenaIndex) : kindAt node n.val = node[n].kind := by
  simp [kindAt]

theorem leavesBelow_set (node : Vector Node 513) (hd : Descends node) (m : ArenaIndex) (e : Node) (n : Nat)
    (h : n < m.val) : leavesBelow (node.set m e) n = leavesBelow node n := by
  unfold leavesBelow
  rw [entriesBelow_set node hd m e 513 n h]
  apply List.filterMap_congr
  intro x hx
  have := entriesBelow_le node hd 513 n x hx
  exact leafSymbol_set node m e x (by omega)

theorem TreeInv.descends {t : TreeUnit} (h : TreeInv t) : Descends t.node :=
  fun n hk => ⟨(h.childrenBelow n hk).1, (h.childrenBelow n hk).2.1⟩

/-! ## What the invariant says of the queue and the arena -/

theorem usedEntries_nodup (node : Vector Node 513) : (usedEntries node).Nodup :=
  List.Nodup.filter _ List.nodup_range

theorem mem_usedEntries (node : Vector Node 513) (n : ArenaIndex) : n.val ∈ usedEntries node ↔ node[n].kind ≠ .free := by
  simp [usedEntries, kindAt_fin, -Fin.getElem_fin]

theorem self_mem_entriesBelow (node : Vector Node 513) (n : ArenaIndex) : n.val ∈ entriesBelow node 513 n.val := by
  rw [entriesBelow_succ]; split <;> simp

namespace TreeInv

variable {t : TreeUnit}

/-- R27: every member of `PQ` is a non-FREE entry. -/
theorem queue_used (h : TreeInv t) (n : ArenaIndex) (hn : n ∈ t.pq) : t.node[n].kind ≠ .free := by
  rw [← mem_usedEntries, ← h.forest.mem_iff, List.mem_flatMap]
  exact ⟨n.val, List.mem_map.mpr ⟨n, hn, rfl⟩, self_mem_entriesBelow _ _⟩

/-- Every entry at or past `NEXT` is FREE (R26). -/
theorem free_of_ge (h : TreeInv t) (n : ArenaIndex) (hn : t.next.toNat ≤ n.val) : t.node[n].kind = .free := by
  cases hk : t.node[n].kind with
  | free => rfl
  | leaf =>
    have h1 := h.leafPlace n hk
    have := h.nextRange.1
    have := t.node[n].sym.isLt
    omega
  | internal => have := (h.internalPlace n).mp hk; omega

theorem lt_next_of_used (h : TreeInv t) (n : ArenaIndex) (hn : t.node[n].kind ≠ .free) : n.val < t.next.toNat := by
  by_contra hc
  exact hn (h.free_of_ge n (by omega))

/-- R30(d): the internal nodes are `NEXT − 257`. -/
theorem countKind_internal (h : TreeInv t) : countKind t.node .internal = t.next.toNat - 257 := by
  have h1 := h.nextRange
  have e : ((List.range 513).filter fun n => kindAt t.node n = .internal) =
      ((List.range 513).filter fun n => decide (257 ≤ n ∧ n < t.next.toNat)) := by
    apply List.filter_congr
    intro n hn
    have hn : n < 513 := List.mem_range.mp hn
    have h2 := kindAt_fin t.node ⟨n, hn⟩
    simp only at h2
    rw [h2]
    exact decide_eq_decide.mpr (h.internalPlace ⟨n, hn⟩)
  unfold countKind
  rw [e]
  have p : ((List.range 513).filter fun n => decide (257 ≤ n ∧ n < t.next.toNat)).Perm
      (List.range' 257 (t.next.toNat - 257)) := by
    rw [List.perm_ext_iff_of_nodup (List.Nodup.filter _ List.nodup_range) List.nodup_range']
    intro a
    simp only [List.mem_filter, List.mem_range, decide_eq_true_eq, List.mem_range'_1]
    omega
  rw [p.length_eq, List.length_range']

theorem countKind_leaf_le (h : TreeInv t) : countKind t.node .leaf ≤ 257 := by
  have p : ((List.range 513).filter fun n => kindAt t.node n = .leaf) ⊆ List.range 257 := by
    intro n hn
    simp only [List.mem_filter, List.mem_range, decide_eq_true_eq] at hn
    have h2 := kindAt_fin t.node ⟨n, hn.1⟩
    simp only at h2
    have h1 := h.leafPlace ⟨n, hn.1⟩ (by rw [← h2]; exact hn.2)
    have := t.node[(⟨n, hn.1⟩ : ArenaIndex)].sym.isLt
    simp only at h1
    rw [List.mem_range]; omega
  have := (List.Nodup.filter (fun n => decide (kindAt t.node n = .leaf)) (List.nodup_range (n := 513))).subperm p
  simpa [countKind] using this.length_le

/-- R136: the arena does not overflow while two or more nodes are queued. -/
theorem next_lt (h : TreeInv t) (hs : t.tstate = .building) : t.next.toNat < 513 := by
  have h1 := h.phase
  simp only [PhaseInv, hs] at h1
  have h2 := h.queueCount (by rw [hs]; simp)
  rw [h.countKind_internal] at h2
  have := h.countKind_leaf_le
  omega

/-- A leaf below any entry is an entry of its own symbol (R26). -/
theorem leafSymbol_val (h : TreeInv t) (m : Nat) (s : Symbol) (hm : leafSymbol t.node m = some s) : m = s.val := by
  unfold leafSymbol at hm
  split at hm
  · rename_i e he
    split at hm
    · rename_i hk
      have hlt : m < 513 := by
        by_contra hc
        rw [Vector.getElem?_eq_none (by omega)] at he; cases he
      rw [Vector.getElem?_eq_getElem hlt] at he
      injection he with he
      have := h.leafPlace ⟨m, hlt⟩ (by simpa [he] using hk)
      simp only [Fin.getElem_fin, he] at this
      injection hm with hm
      rw [← hm]; exact this
    · cases hm
  · cases hm

theorem leavesBelow_val (h : TreeInv t) (l : List Nat) :
    (l.filterMap (leafSymbol t.node)).map (·.val) = l.filter fun m => kindAt t.node m = .leaf := by
  induction l with
  | nil => rfl
  | cons m l ih =>
    cases hm : leafSymbol t.node m with
    | none =>
      have : kindAt t.node m ≠ .leaf := by
        intro hk
        unfold leafSymbol at hm; unfold kindAt at hk
        split at hm <;> simp_all
      simp [hm, this, ih]
    | some s =>
      have h1 := h.leafSymbol_val m s hm
      have : kindAt t.node m = .leaf := by
        unfold leafSymbol at hm; unfold kindAt
        split at hm <;> simp_all
      simp [hm, this, ih, h1.symm]

/-- The leaves below two distinct members of `PQ` are distinct symbols (R30(a)). -/
theorem leaves_nodup (h : TreeInv t) (a b : ArenaIndex) (rest : List ArenaIndex) (hp : t.pq.Perm (a :: b :: rest)) :
    (leavesBelow t.node a.val ++ leavesBelow t.node b.val).Nodup := by
  have h1 : ((a.val :: b.val :: rest.map (·.val)).flatMap (entriesBelow t.node 513)).Nodup := by
    have := (List.Perm.flatMap_right (entriesBelow t.node 513) (hp.map (·.val))).symm.trans h.forest
    exact this.nodup_iff.mpr (usedEntries_nodup _)
  simp only [List.flatMap_cons, ← List.append_assoc] at h1
  have h2 := (List.nodup_append.mp h1).1
  have h3 : ((entriesBelow t.node 513 a.val ++ entriesBelow t.node 513 b.val).filterMap (leafSymbol t.node)).Nodup := by
    apply List.Nodup.of_map (·.val)
    rw [h.leavesBelow_val]
    exact h2.filter _
  simpa [leavesBelow, List.filterMap_append] using h3

/-- A sum of distinct leaves' counts fits in 41 bits (R140). -/
theorem sum_lt (h : TreeInv t) (l : List Symbol) (hl : l.Nodup) (hk : ∀ s ∈ l, t.node[leafIndex s].kind = .leaf) :
    (l.map fun s => t.node[leafIndex s].freq.toNat).sum < 2 ^ 41 := by
  have h1 : (l.map fun s => t.node[leafIndex s].freq.toNat).sum ≤ l.length * 2 ^ 32 := by
    have h2 : ∀ x ∈ l.map (fun s => t.node[leafIndex s].freq.toNat), x ≤ 2 ^ 32 := by
      intro x hx
      obtain ⟨s, hs, rfl⟩ := List.mem_map.mp hx
      have hn := h.normal (leafIndex s)
      simp only [NodeNormal, hk s hs] at hn
      exact le_of_lt hn.2.2.2
    simpa using List.sum_le_card_nsmul _ _ h2
  have h3 : l.length ≤ 257 := by simpa using hl.length_le_card
  have : l.length * 2 ^ 32 ≤ 257 * 2 ^ 32 := Nat.mul_le_mul_right _ h3
  omega

theorem mem_leaves_kind (h : TreeInv t) (n : Nat) (s : Symbol) (hs : s ∈ leavesBelow t.node n) :
    t.node[leafIndex s].kind = .leaf := by
  obtain ⟨m, _, hm⟩ := List.mem_filterMap.mp hs
  have h1 := h.leafSymbol_val m s hm
  subst h1
  have : (leafIndex s).val = s.val := rfl
  unfold leafSymbol at hm
  have hlt : s.val < 513 := by omega
  rw [Vector.getElem?_eq_getElem hlt] at hm
  simp only at hm
  split at hm
  · rename_i hk; simpa [leafIndex] using hk
  · cases hm

end TreeInv

end Sys2Proof.Machine
end

