-- ==== Sys2Proof/Laws/Merge.lean ====
section
/-! SUPPORT. One merge, the merges to the end and `TB.INIT`'s tree keep the tree invariant
(spec/41_tree_builder.md rules R131, R132, R136). -/

namespace Sys2Proof.Machine

/-- The tree unit after a merge of `a` (left) and `b` (right), when the queue without them is `rest`. -/
def merged (t : TreeUnit) (a b n : ArenaIndex) : TreeUnit :=
  let pq := insertIndex n ((t.pq.erase a).erase b)
  { node := t.node.set n (internalNode t.node a b), pq := pq,
    root := if pq.length = 1 then t.next else t.root, next := t.next + 1#10,
    tstate := if pq.length = 1 then .built else t.tstate }

/-- All that a merge that succeeds does (R132). -/
theorem mergeOnce_ok (t t' : TreeUnit) (k : NodeIndex) (h : mergeOnce t = .ok (t', k)) :
    ∃ (a b n : ArenaIndex), leastNode t.node t.pq = some a ∧ leastNode t.node (t.pq.erase a) = some b ∧
      t.next.toNat = n.val ∧ k = t.next ∧ t' = merged t a b n := by
  unfold mergeOnce at h
  split at h
  · cases h
  · rename_i a ha
    split at h
    · cases h
    · rename_i b hb
      split at h
      · rename_i hn
        refine ⟨a, b, ⟨t.next.toNat, hn⟩, ha, hb, rfl, ?_⟩
        simp only at h
        split at h
        · rename_i hl
          injection h with h; injection h with h1 h2
          exact ⟨h2.symm, by rw [← h1]; simp [merged, hl]⟩
        · rename_i hl
          injection h with h; injection h with h1 h2
          exact ⟨h2.symm, by rw [← h1]; simp [merged, hl]⟩
      · cases h

/-- The two members a merge removes, where two are queued (R132). -/
theorem two_least (t : TreeUnit) (h : 2 ≤ t.pq.length) :
    ∃ a b : ArenaIndex, leastNode t.node t.pq = some a ∧ leastNode t.node (t.pq.erase a) = some b ∧
      t.pq.Perm (a :: b :: (t.pq.erase a).erase b) := by
  cases ha : leastNode t.node t.pq with
  | none => rw [leastNode_eq_none] at ha; rw [ha] at h; simp at h
  | some a =>
    have hm := (leastNode_spec _ _ _ ha).1
    cases hb : leastNode t.node (t.pq.erase a) with
    | none =>
      rw [leastNode_eq_none] at hb
      have := List.length_erase_of_mem hm
      rw [hb] at this; simp at this; omega
    | some b =>
      have hm2 := (leastNode_spec _ _ _ hb).1
      exact ⟨a, b, rfl, hb, (List.perm_cons_erase hm).trans ((List.perm_cons_erase hm2).cons a)⟩

namespace TreeInv

variable {t : TreeUnit}

/-- A merge in BUILDING succeeds (R132, R136). -/
theorem mergeOnce_succeeds (h : TreeInv t) (hs : t.tstate = .building) :
    ∃ (a b n : ArenaIndex), leastNode t.node t.pq = some a ∧ leastNode t.node (t.pq.erase a) = some b ∧
      t.next.toNat = n.val ∧ mergeOnce t = .ok (merged t a b n, t.next) := by
  have hp := h.phase
  simp only [PhaseInv, hs] at hp
  obtain ⟨a, b, ha, hb, _⟩ := two_least t hp.1
  have hn := h.next_lt hs
  refine ⟨a, b, ⟨t.next.toNat, hn⟩, ha, hb, rfl, ?_⟩
  simp only [mergeOnce, ha, hb, dif_pos hn]
  split <;> rename_i hl <;> simp [merged, hl]

/-- A merge keeps the tree invariant (R136). -/
theorem merged_inv (h : TreeInv t) (hs : t.tstate = .building) (a b n : ArenaIndex) (hn : t.next.toNat = n.val)
    (hp : t.pq.Perm (a :: b :: (t.pq.erase a).erase b)) : TreeInv (merged t a b n) := by
  have hphase := h.phase
  simp only [PhaseInv, hs] at hphase
  have hd := h.descends
  have hnr := h.nextRange
  have hnlt := n.isLt
  have hnode : (merged t a b n).node = t.node.set n (internalNode t.node a b) := rfl
  have hget : ∀ m : ArenaIndex, (merged t a b n).node[m] = if m = n then internalNode t.node a b else t.node[m] := by
    intro m
    simp only [hnode, Fin.getElem_fin]
    by_cases hmn : m = n
    · subst hmn; simp
    · rw [if_neg hmn, Vector.getElem_set_ne]
      intro hc; exact hmn (Fin.ext hc.symm)
  have hgetn : (merged t a b n).node[n] = internalNode t.node a b := by rw [hget, if_pos rfl]
  have hma : a ∈ t.pq := hp.mem_iff.mpr (by simp)
  have hmb : b ∈ t.pq := hp.mem_iff.mpr (by simp)
  have hrest : ∀ x ∈ (t.pq.erase a).erase b, x ∈ t.pq := fun x hx =>
    List.mem_of_mem_erase (List.mem_of_mem_erase hx)
  have hqlt : ∀ x ∈ t.pq, x.val < n.val := fun x hx => by
    rw [← hn]; exact h.lt_next_of_used x (h.queue_used x hx)
  have halt := hqlt a hma
  have hblt := hqlt b hmb
  have hnfree : t.node[n].kind = .free := h.free_of_ge n (by omega)
  have haN : (BitVec.ofNat 10 a.val).toNat = a.val := by simp; omega
  have hbN : (BitVec.ofNat 10 b.val).toNat = b.val := by simp; omega
  have hnext' : (merged t a b n).next.toNat = n.val + 1 := by
    simp only [merged, BitVec.toNat_add, BitVec.toNat_ofNat]; omega
  have hnotin : n ∉ (t.pq.erase a).erase b := fun hc => by
    have := hqlt n (hrest n hc); omega
  have hpq : (merged t a b n).pq.Perm (n :: (t.pq.erase a).erase b) := insertIndex_perm _ _ hnotin
  have hd' : Descends (merged t a b n).node := by
    intro m hk
    rw [hget] at hk ⊢
    by_cases hmn : m = n
    · subst hmn; simp only [if_true, internalNode, haN, hbN]; exact ⟨halt, hblt⟩
    · rw [if_neg hmn] at hk ⊢; exact hd m hk
  have hbelow : ∀ m : Nat, m < n.val → entriesBelow (merged t a b n).node 513 m = entriesBelow t.node 513 m :=
    fun m hm => entriesBelow_set t.node hd n _ 513 m hm
  have hbelown : entriesBelow (merged t a b n).node 513 n.val =
      n.val :: (entriesBelow t.node 513 a.val ++ entriesBelow t.node 513 b.val) := by
    rw [entriesBelow_internal _ hd' n (by rw [hgetn]; rfl), hgetn]
    simp only [internalNode, haN, hbN]
    rw [hbelow _ halt, hbelow _ hblt]
  have hleaves : ∀ m : Nat, m < n.val → leavesBelow (merged t a b n).node m = leavesBelow t.node m :=
    fun m hm => leavesBelow_set t.node hd n _ m hm
  have hleavesn : leavesBelow (merged t a b n).node n.val = leavesBelow t.node a.val ++ leavesBelow t.node b.val := by
    unfold leavesBelow
    rw [hbelown, List.filterMap_cons]
    have : leafSymbol (merged t a b n).node n.val = none := by
      simp [leafSymbol, hnode, internalNode]
    rw [this]
    simp only [List.filterMap_append]
    congr 1
    · apply List.filterMap_congr
      intro x hx
      have := entriesBelow_le t.node hd 513 _ x hx
      exact leafSymbol_set _ _ _ _ (by omega)
    · apply List.filterMap_congr
      intro x hx
      have := entriesBelow_le t.node hd 513 _ x hx
      exact leafSymbol_set _ _ _ _ (by omega)
  have hltn : ∀ m : ArenaIndex, m ≠ n → (merged t a b n).node[m].kind ≠ .free → m.val < n.val := by
    intro m hmn hk
    rw [hget, if_neg hmn] at hk
    rw [← hn]; exact h.lt_next_of_used m hk
  have hleafIx : ∀ s : Symbol, (merged t a b n).node[leafIndex s] = t.node[leafIndex s] := by
    intro s
    rw [hget, if_neg]
    intro hc
    have : s.val = n.val := congrArg (·.val) hc
    have := s.isLt; omega
  have hkind : ∀ m : Nat, kindAt (merged t a b n).node m = if m = n.val then .internal else kindAt t.node m :=
    fun m => kindAt_set t.node n _ m
  have hkn : kindAt t.node n.val = .free := by rw [kindAt_fin]; exact hnfree
  -- the kinds counted after the merge
  have hcount : ∀ k : NodeKind, k ≠ .free → countKind (merged t a b n).node k =
      countKind t.node k + (if k = .internal then 1 else 0) := by
    intro k hk
    unfold countKind
    by_cases hki : k = .internal
    · subst hki
      have p : ((List.range 513).filter fun m => decide (kindAt (merged t a b n).node m = .internal)).Perm
          (n.val :: ((List.range 513).filter fun m => decide (kindAt t.node m = .internal))) := by
        rw [List.perm_ext_iff_of_nodup (List.Nodup.filter _ List.nodup_range)
          (List.nodup_cons.mpr ⟨by simp [hkn], List.Nodup.filter _ List.nodup_range⟩)]
        intro x
        simp only [List.mem_filter, List.mem_range, decide_eq_true_eq, List.mem_cons, hkind]
        by_cases hx : x = n.val
        · simp [hx]
        · simp [hx]
      rw [p.length_eq]; simp
    · simp only [hki, if_false, Nat.add_zero]
      refine congrArg List.length (List.filter_congr fun x _ => ?_)
      rw [hkind]
      by_cases hx : x = n.val
      · subst hx; simp [hkn, Ne.symm hki, Ne.symm hk]
      · simp [hx]
  have hnodupq : t.pq.Nodup := h.queueRising.imp (fun h => ne_of_lt h)
  have hlen : ((t.pq.erase a).erase b).length + 2 = t.pq.length := by
    have := hp.length_eq; simp only [List.length_cons] at this; omega
  have hpqlen : (merged t a b n).pq.length + 1 = t.pq.length := by
    have := hpq.length_eq; simp only [List.length_cons] at this; omega
  have hka := h.queue_used a hma
  have hkb := h.queue_used b hmb
  -- the new node's frequency does not wrap (R140)
  have hfreq : (t.node[a].freq + t.node[b].freq).toNat = t.node[a].freq.toNat + t.node[b].freq.toNat := by
    have h1 := h.sum_lt _ (h.leaves_nodup a b _ hp) (by
      intro s hs
      rcases List.mem_append.mp hs with hs | hs
      · exact h.mem_leaves_kind _ s hs
      · exact h.mem_leaves_kind _ s hs)
    rw [List.map_append, List.sum_append, ← h.freqSum a hka, ← h.freqSum b hkb] at h1
    rw [BitVec.toNat_add]; omega
  refine
    { normal := ?_, leafPlace := ?_, internalPlace := ?_, nextRange := ?_, queueRising := ?_, forest := ?_,
      keyLeast := ?_, freqSum := ?_, keysDistinct := ?_, queueCount := ?_, childrenBelow := ?_, phase := ?_ }
  · intro m
    rw [hget]
    split
    · simp [NodeNormal, internalNode]
    · exact h.normal m
  · intro m hk
    rw [hget] at hk ⊢
    split at hk
    · simp [internalNode] at hk
    · rename_i hmn; rw [if_neg hmn]; exact h.leafPlace m hk
  · intro m
    rw [hget, hnext']
    by_cases hmn : m = n
    · subst hmn; simp only [if_true, internalNode, true_iff]; omega
    · rw [if_neg hmn, h.internalPlace m]
      have : m.val ≠ n.val := fun hc => hmn (Fin.ext hc)
      omega
  · rw [hnext']; omega
  · exact insertIndex_rising _ _ ((h.queueRising.erase a).erase b)
  · have p1 := List.Perm.flatMap_right (entriesBelow (merged t a b n).node 513) (hpq.map (·.val))
    have p2 : (usedEntries (merged t a b n).node).Perm (n.val :: usedEntries t.node) := by
      rw [List.perm_ext_iff_of_nodup (usedEntries_nodup _)
        (List.nodup_cons.mpr ⟨by simp [usedEntries, hkn], usedEntries_nodup _⟩)]
      intro x
      simp only [usedEntries, List.mem_filter, List.mem_range, decide_eq_true_eq, List.mem_cons, hkind]
      by_cases hx : x = n.val
      · simp [hx]
      · simp [hx]
    have p3 := (List.Perm.flatMap_right (entriesBelow t.node 513) (hp.map (·.val))).symm.trans h.forest
    refine p1.trans (List.Perm.trans ?_ (p3.cons n.val |>.trans p2.symm))
    have e1 : (((t.pq.erase a).erase b).map (·.val)).flatMap (entriesBelow (merged t a b n).node 513) =
        (((t.pq.erase a).erase b).map (·.val)).flatMap (entriesBelow t.node 513) := by
      apply List.flatMap_congr
      intro x hx
      obtain ⟨y, hy, rfl⟩ := List.mem_map.mp hx
      exact hbelow _ (hqlt y (hrest y hy))
    simp only [List.map_cons, List.flatMap_cons, hbelown, e1]
    simp
  · intro m hk
    by_cases hmn : m = n
    · subst hmn
      rw [hgetn, hleavesn]
      obtain ⟨ka1, ka2⟩ := h.keyLeast a hka
      obtain ⟨kb1, kb2⟩ := h.keyLeast b hkb
      simp only [internalNode, List.mem_append]
      refine ⟨?_, fun s hsm => ?_⟩
      · rcases min_choice t.node[a].key t.node[b].key with hc | hc <;> rw [hc]
        · exact Or.inl ka1
        · exact Or.inr kb1
      · rcases hsm with hsm | hsm
        · exact le_trans (min_le_left _ _) (ka2 s hsm)
        · exact le_trans (min_le_right _ _) (kb2 s hsm)
    · have hlt := hltn m hmn hk
      rw [hget, if_neg hmn] at hk ⊢
      rw [hleaves _ hlt]; exact h.keyLeast m hk
  · intro m hk
    by_cases hmn : m = n
    · subst hmn
      rw [hgetn, hleavesn]
      simp only [internalNode, hfreq, h.freqSum a hka, h.freqSum b hkb, List.map_append, List.sum_append, hleafIx]
    · have hlt := hltn m hmn hk
      rw [hget, if_neg hmn] at hk ⊢
      rw [hleaves _ hlt]; simp only [hleafIx]; exact h.freqSum m hk
  · have p1 := hpq.map fun m => (merged t a b n).node[m].key
    rw [p1.nodup_iff, List.map_cons, List.nodup_cons]
    have p2 := (hp.map fun m => t.node[m].key).nodup_iff.mp h.keysDistinct
    simp only [List.map_cons, List.nodup_cons, List.mem_cons, not_or] at p2
    have e : ((t.pq.erase a).erase b).map (fun m => (merged t a b n).node[m].key) =
        ((t.pq.erase a).erase b).map (fun m => t.node[m].key) := by
      apply List.map_congr_left
      intro x hx
      have := hqlt x (hrest x hx)
      rw [hget, if_neg]
      intro hc; subst hc; omega
    rw [e, hgetn]
    refine ⟨?_, p2.2.2⟩
    simp only [internalNode]
    rcases min_choice t.node[a].key t.node[b].key with hc | hc <;> rw [hc]
    · exact p2.1.2
    · exact p2.2.1
  · intro _
    rw [hcount .internal (by simp), hcount .leaf (by simp)]
    have := h.queueCount (by rw [hs]; simp)
    simp; omega
  · intro m hk
    by_cases hmn : m = n
    · subst hmn
      rw [hgetn]
      simp only [internalNode, haN, hbN, hkind]
      refine ⟨halt, hblt, ?_, ?_⟩
      · rw [if_neg (by omega), kindAt_fin]; exact hka
      · rw [if_neg (by omega), kindAt_fin]; exact hkb
    · rw [hget, if_neg hmn] at hk ⊢
      obtain ⟨c1, c2, c3, c4⟩ := h.childrenBelow m hk
      have hm : m.val < n.val := by
        rw [← hn]; exact h.lt_next_of_used m (by rw [hk]; simp)
      refine ⟨c1, c2, ?_, ?_⟩
      · rw [hkind, if_neg (by omega)]; exact c3
      · rw [hkind, if_neg (by omega)]; exact c4
  · unfold PhaseInv
    by_cases hl : (merged t a b n).pq.length = 1
    · have e : (merged t a b n).tstate = .built := by
        simp only [merged] at hl ⊢; rw [if_pos hl]
      have er : (merged t a b n).root = t.next := by
        simp only [merged] at hl ⊢; rw [if_pos hl]
      rw [e]
      obtain ⟨x, hx⟩ := List.length_eq_one_iff.mp hl
      have : x = n := by
        have := hpq.mem_iff (a := n)
        rw [hx] at this; simp at this; exact this.symm
      subst this
      refine ⟨x, hx, ?_⟩
      rw [er]; apply BitVec.eq_of_toNat_eq; rw [hn]; simp; omega
    · have e : (merged t a b n).tstate = .building := by
        simp only [merged] at hl ⊢; rw [if_neg hl]; exact hs
      have er : (merged t a b n).root = t.root := by
        simp only [merged] at hl ⊢; rw [if_neg hl]
      rw [e]
      exact ⟨by omega, by rw [er]; exact hphase.2⟩

end TreeInv

end Sys2Proof.Machine
end

