-- ==== Sys2Proof/Laws/Build.lean ====
section
/-! SUPPORT. `TB.INIT`'s tree and the merges to the end (spec/41_tree_builder.md rules R131, R134, R136). -/

namespace Sys2Proof.Machine

@[simp] theorem tabulate_getElem {α : Type} (n : Nat) (f : Fin n → α) (i : Nat) (h : i < n) :
    (tabulate n f)[i] = f ⟨i, h⟩ := by
  simp [tabulate]

/-- An entry of `TB.INIT`'s arena (R131). -/
theorem initialNodes_getElem (freq : Vector Count 257) (n : ArenaIndex) :
    (initialNodes freq)[n] = if h : n.val < 257 then
      (if freq[n.val] ≠ 0#32 then leafNode ⟨n.val, h⟩ freq[n.val] else Node.freeEntry) else Node.freeEntry := by
  simp only [initialNodes, Fin.getElem_fin, tabulate_getElem]

theorem mem_presentSymbols (freq : Vector Count 257) (s : Symbol) : s ∈ presentSymbols freq ↔ freq[s] ≠ 0#32 := by
  simp [presentSymbols]

theorem presentSymbols_rising (freq : Vector Count 257) : (presentSymbols freq).Pairwise (· < ·) :=
  List.Pairwise.filter _ (List.pairwise_lt_finRange 257)

theorem initialNodes_leaf (freq : Vector Count 257) (s : Symbol) (h : freq[s] ≠ 0#32) :
    (initialNodes freq)[leafIndex s] = leafNode s freq[s] := by
  rw [initialNodes_getElem]
  have h1 : (leafIndex s).val = s.val := rfl
  have h2 : s.val < 257 := s.isLt
  have h3 : freq[s.val] ≠ 0#32 := h
  simp only [h1, h2, dif_pos, ne_eq, h3, not_false_iff, if_true]
  rfl

theorem initialNodes_kind (freq : Vector Count 257) (n : ArenaIndex) (h : (initialNodes freq)[n].kind ≠ .free) :
    ∃ s : Symbol, n = leafIndex s ∧ freq[s] ≠ 0#32 := by
  rw [initialNodes_getElem] at h
  split at h
  · rename_i hn
    split at h
    · rename_i hf; exact ⟨⟨n.val, hn⟩, rfl, hf⟩
    · exact absurd rfl h
  · exact absurd rfl h

theorem initialNodes_freeEntry (freq : Vector Count 257) (n : ArenaIndex) (h : (initialNodes freq)[n].kind = .free) :
    (initialNodes freq)[n] = Node.freeEntry := by
  rw [initialNodes_getElem] at h ⊢
  split
  · split
    · simp_all [leafNode]
    · rfl
  · rfl

theorem initialTree_fields (freq : Vector Count 257) :
    (initialTree freq).node = initialNodes freq ∧ (initialTree freq).pq = (presentSymbols freq).map leafIndex ∧
      (initialTree freq).next = firstInternal ∧
      (initialTree freq).root =
        (match (presentSymbols freq).map leafIndex with | [n] => BitVec.ofNat 10 n.val | _ => nilIndex) ∧
      (initialTree freq).tstate = (if (presentSymbols freq).length = 1 then .built else .building) := by
  unfold initialTree
  cases h : presentSymbols freq with
  | nil => simp
  | cons a l => cases l <;> simp

/-- `TB.INIT` establishes the tree invariant (R136). -/
theorem initialTree_inv (freq : Vector Count 257) (hne : presentSymbols freq ≠ []) : TreeInv (initialTree freq) := by
  obtain ⟨fn, fp, fx, fr, ft⟩ := initialTree_fields freq
  have hk : ∀ n : ArenaIndex, (initialNodes freq)[n].kind ≠ .internal := by
    intro n hc
    obtain ⟨s, rfl, hf⟩ := initialNodes_kind freq n (by rw [hc]; simp)
    rw [initialNodes_leaf _ _ hf] at hc; cases hc
  have hb : ∀ n : ArenaIndex, entriesBelow (initialNodes freq) 513 n.val = [n.val] :=
    fun n => entriesBelow_other _ _ (hk n)
  have hleaf : ∀ s : Symbol, freq[s] ≠ 0#32 → leavesBelow (initialNodes freq) (leafIndex s).val = [s] := by
    intro s hf
    have h1 := initialNodes_leaf freq s hf
    have h2 : (initialNodes freq)[(leafIndex s).val]? = some (leafNode s freq[s]) := by
      rw [Vector.getElem?_eq_getElem (leafIndex s).isLt]; exact congrArg some h1
    have h3 : leafSymbol (initialNodes freq) (leafIndex s).val = some s := by
      unfold leafSymbol; rw [h2]; rfl
    unfold leavesBelow
    rw [hb, List.filterMap_cons, h3]; rfl
  have hnd : (presentSymbols freq).Nodup := (presentSymbols_rising freq).imp ne_of_lt
  have hcountI : countKind (initialNodes freq) .internal = 0 := by
    unfold countKind
    rw [List.length_eq_zero_iff, List.filter_eq_nil_iff]
    intro x hx
    have := kindAt_fin (initialNodes freq) ⟨x, List.mem_range.mp hx⟩
    simp only at this
    simp [this, hk, -Fin.getElem_fin]
  have hperm : ((presentSymbols freq).map fun s => s.val).Perm
      ((List.range 513).filter fun n => decide (kindAt (initialNodes freq) n = .leaf)) := by
    rw [List.perm_ext_iff_of_nodup (hnd.map Fin.val_injective) (List.Nodup.filter _ List.nodup_range)]
    intro x
    simp only [List.mem_map, mem_presentSymbols, List.mem_filter, List.mem_range, decide_eq_true_eq]
    constructor
    · rintro ⟨s, hf, rfl⟩
      refine ⟨by omega, ?_⟩
      have := kindAt_fin (initialNodes freq) (leafIndex s)
      rw [initialNodes_leaf _ _ hf] at this
      exact this
    · rintro ⟨hx, hl⟩
      have := kindAt_fin (initialNodes freq) ⟨x, hx⟩
      simp only at this
      rw [hl] at this
      obtain ⟨s, hs, hf⟩ := initialNodes_kind freq ⟨x, hx⟩ (by rw [← this]; simp)
      exact ⟨s, hf, (congrArg (·.val) hs).symm⟩
  have hused : usedEntries (initialNodes freq) =
      (List.range 513).filter fun n => decide (kindAt (initialNodes freq) n = .leaf) := by
    refine List.filter_congr fun x hx => decide_eq_decide.mpr ?_
    have := kindAt_fin (initialNodes freq) ⟨x, List.mem_range.mp hx⟩
    simp only at this
    have hk3 : ∀ k : NodeKind, k ≠ .internal → (k ≠ .free ↔ k = .leaf) := by
      intro k; cases k <;> simp
    rw [this]
    exact hk3 _ (hk _)
  refine
    { normal := ?_, leafPlace := ?_, internalPlace := ?_, nextRange := ?_, queueRising := ?_, forest := ?_,
      keyLeast := ?_, freqSum := ?_, keysDistinct := ?_, queueCount := ?_, childrenBelow := ?_, phase := ?_ }
  · intro n
    have e : (initialTree freq).node[n] = (initialNodes freq)[n] := by simp only [fn]
    by_cases hf : (initialNodes freq)[n].kind = .free
    · have h1 := e.trans (initialNodes_freeEntry freq n hf)
      simp only [NodeNormal, h1, Node.freeEntry]
    · obtain ⟨s, rfl, hs⟩ := initialNodes_kind freq n hf
      have h1 := e.trans (initialNodes_leaf _ _ hs)
      simp only [NodeNormal, h1, leafNode, true_and, BitVec.toNat_setWidth]
      have := freq[s].isLt
      omega
  · intro n hl
    rw [fn] at hl ⊢
    obtain ⟨s, rfl, hs⟩ := initialNodes_kind freq n (by rw [hl]; simp)
    rw [initialNodes_leaf _ _ hs]; rfl
  · intro n
    rw [fn, fx]
    have : (firstInternal).toNat = 257 := rfl
    rw [this]
    exact ⟨fun h => absurd h (hk n), fun h => by omega⟩
  · rw [fx]; decide
  · rw [fp, List.pairwise_map]
    exact (presentSymbols_rising freq).imp fun h => h
  · rw [fp, fn, hused]
    refine List.Perm.trans (List.Perm.of_eq ?_) hperm
    rw [List.map_map, List.flatMap_map]
    have : ∀ l : List Symbol, l.flatMap (fun s => entriesBelow (initialNodes freq) 513 (((·.val) ∘ leafIndex) s)) =
        l.map fun s => s.val := by
      intro l
      induction l with
      | nil => rfl
      | cons s l ih =>
        have h1 := hb (leafIndex s)
        simp only [List.flatMap_cons, Function.comp, h1, List.map_cons] at ih ⊢
        rw [ih]; rfl
    exact this _
  · intro n hf
    rw [fn] at hf ⊢
    obtain ⟨s, rfl, hs⟩ := initialNodes_kind freq n hf
    rw [hleaf s hs, initialNodes_leaf _ _ hs]
    simp [leafNode]
  · intro n hf
    rw [fn] at hf ⊢
    obtain ⟨s, rfl, hs⟩ := initialNodes_kind freq n hf
    rw [hleaf s hs]; simp
  · rw [fp, fn, List.map_map]
    have e : (presentSymbols freq).map ((fun n : ArenaIndex => (initialNodes freq)[n].key) ∘ leafIndex) =
        (presentSymbols freq).map id := by
      apply List.map_congr_left
      intro s hs
      simp only [Function.comp, id]
      rw [initialNodes_leaf _ _ ((mem_presentSymbols _ _).mp hs)]; rfl
    rw [e]; simpa using hnd
  · intro _
    rw [fp, fn, hcountI, List.length_map, Nat.add_zero]
    have := hperm.length_eq
    rw [List.length_map] at this
    exact this
  · intro n hi
    rw [fn] at hi
    exact absurd hi (hk n)
  · unfold PhaseInv
    rw [ft]
    cases hp : presentSymbols freq with
    | nil => exact absurd hp hne
    | cons a l =>
      cases l with
      | nil => simp only [List.length_singleton, if_true]; rw [fp, fr, hp]; exact ⟨leafIndex a, rfl, rfl⟩
      | cons b l =>
        have : (a :: b :: l).length ≠ 1 := by simp
        rw [if_neg this]
        simp only
        rw [fp, fr, hp]; simp

/-- The merges to the end reach BUILT (R134, R136). -/
theorem mergeAll_spec (k : Nat) (t : TreeUnit) (h : TreeInv t) (hs : t.tstate ≠ .empty) (hk : t.pq.length ≤ k) :
    ∃ t', mergeAll k t = .ok t' ∧ TreeInv t' ∧ t'.tstate = .built ∧
      t'.next.toNat + 1 = t.next.toNat + t.pq.length ∧
      ∀ s : Symbol, t'.node[leafIndex s] = t.node[leafIndex s] := by
  induction k generalizing t with
  | zero =>
    have hp := h.phase
    simp only [PhaseInv] at hp
    split at hp
    · rename_i he; exact absurd he hs
    · omega
    · obtain ⟨n, hn, _⟩ := hp; rw [hn] at hk; simp at hk
  | succ k ih =>
    by_cases hb : t.tstate = .building
    · obtain ⟨a, b, n, ha, hbl, hn, hm⟩ := h.mergeOnce_succeeds hb
      have hp := h.phase
      simp only [PhaseInv, hb] at hp
      obtain ⟨a', b', ha', hb', hperm⟩ := two_least t hp.1
      rw [ha] at ha'; injection ha' with ha'; subst ha'
      rw [hbl] at hb'; injection hb' with hb'; subst hb'
      have hinv := h.merged_inv hb a b n hn hperm
      have hq : ∀ x ∈ t.pq, x.val < n.val := fun x hx => by
        rw [← hn]; exact h.lt_next_of_used x (h.queue_used x hx)
      have hnot : n ∉ (t.pq.erase a).erase b := fun hc => by
        have := hq n (List.mem_of_mem_erase (List.mem_of_mem_erase hc)); omega
      have hlen : (merged t a b n).pq.length + 1 = t.pq.length := by
        have h1 := (insertIndex_perm n _ hnot).length_eq
        have h2 := hperm.length_eq
        simp only [List.length_cons] at h1 h2
        simp only [merged]; omega
      have hnx : (merged t a b n).next.toNat = t.next.toNat + 1 := by
        have := n.isLt
        simp only [merged, BitVec.toNat_add, BitVec.toNat_ofNat]; omega
      have hs' : (merged t a b n).tstate ≠ .empty := by
        simp only [merged, hb]; split <;> simp
      obtain ⟨t', e1, e2, e3, e4, e5⟩ := ih _ hinv hs' (by omega)
      refine ⟨t', ?_, e2, e3, by omega, fun s => ?_⟩
      · simp only [mergeAll, hb, if_true, hm]; exact e1
      · rw [e5 s]
        have hne : (n.val : Nat) ≠ (leafIndex s).val := by
          have := h.nextRange.1
          have : (leafIndex s).val = s.val := rfl
          have := s.isLt
          omega
        simp only [merged, Fin.getElem_fin]
        rw [Vector.getElem_set_ne _ _ hne]
    · have hp := h.phase
      have hbuilt : t.tstate = .built := by
        cases hc : t.tstate with
        | empty => exact absurd hc hs
        | building => exact absurd hc hb
        | built => rfl
      simp only [PhaseInv, hbuilt] at hp
      obtain ⟨n, hn, _⟩ := hp
      exact ⟨t, by simp [mergeAll, hbuilt], h, hbuilt, by rw [hn]; simp, fun _ => rfl⟩

/-- `TB.BUILD` ends BUILT with one merge fewer than there are leaves (R134, R136). -/
theorem mergeAll_initialTree (freq : Vector Count 257) (hne : presentSymbols freq ≠ []) :
    ∃ t', mergeAll (presentSymbols freq).length (initialTree freq) = .ok t' ∧ TreeInv t' ∧ t'.tstate = .built ∧
      t'.next.toNat = 256 + (presentSymbols freq).length ∧
      ∀ s : Symbol, t'.node[leafIndex s] = (initialNodes freq)[leafIndex s] := by
  obtain ⟨fn, fp, fx, _, ft⟩ := initialTree_fields freq
  obtain ⟨t', e1, e2, e3, e4, e5⟩ := mergeAll_spec (presentSymbols freq).length (initialTree freq)
    (initialTree_inv freq hne) (by rw [ft]; split <;> simp) (by rw [fp]; simp)
  refine ⟨t', e1, e2, e3, ?_, fun s => by rw [e5 s, fn]⟩
  rw [fx, fp, List.length_map] at e4
  have : firstInternal.toNat = 257 := rfl
  omega

theorem treeInv_reset : TreeInv TreeUnit.reset := by
  have hn : ∀ n : ArenaIndex, TreeUnit.reset.node[n] = Node.freeEntry := by intro n; simp [TreeUnit.reset]
  have hk : ∀ n < 513, kindAt TreeUnit.reset.node n = .free := by
    intro n h
    have := kindAt_fin TreeUnit.reset.node ⟨n, h⟩
    rw [hn] at this; exact this
  have hu : usedEntries TreeUnit.reset.node = [] := by
    unfold usedEntries
    rw [List.filter_eq_nil_iff]
    intro x hx; simp [hk x (List.mem_range.mp hx)]
  refine
    { normal := ?_, leafPlace := ?_, internalPlace := ?_, nextRange := ?_, queueRising := ?_, forest := ?_,
      keyLeast := ?_, freqSum := ?_, keysDistinct := ?_, queueCount := ?_, childrenBelow := ?_, phase := ?_ }
  · intro n; rw [hn]; simp [NodeNormal, Node.freeEntry]
  · intro n h; rw [hn] at h; cases h
  · intro n
    rw [hn]
    have : TreeUnit.reset.next.toNat = 257 := rfl
    rw [this]
    exact ⟨fun h => (by cases h), fun h => (by omega)⟩
  · decide
  · exact List.Pairwise.nil
  · rw [hu]; exact List.Perm.refl _
  · intro n h; rw [hn] at h; exact absurd rfl h
  · intro n h; rw [hn] at h; exact absurd rfl h
  · exact List.nodup_nil
  · intro h; exact absurd rfl h
  · intro n h; rw [hn] at h; cases h
  · exact ⟨rfl, rfl, rfl, hn⟩

end Sys2Proof.Machine
end

