-- ==== Sys2Proof/Laws/CodeTable.lean ====
section
/-! SUPPORT. The code table's invariant, its trie view and the walk that fills it (spec/10_state.md rules R32, R33;
42_codeword_lut.md rules R156 to R161). -/

namespace Sys2Proof.Machine

/-! ## The set of pairs -/

theorem mem_insertPair (e x : CodePair) (l : List CodePair) : x ∈ insertPair e l ↔ x = e ∨ x ∈ l := by
  induction l with
  | nil => simp [insertPair]
  | cons a l ih =>
    simp only [insertPair]
    split
    · simp
    · split
      · rename_i h; subst h; simp
      · simp only [List.mem_cons, ih]; tauto

theorem insertPair_rising (e : CodePair) (l : List CodePair) (h : l.Pairwise (fun a b => a.sym < b.sym))
    (hn : ∀ x ∈ l, x.sym ≠ e.sym) :
    (insertPair e l).Pairwise (fun a b => a.sym < b.sym) ∧ (insertPair e l).length = l.length + 1 := by
  induction l with
  | nil => simp [insertPair]
  | cons a l ih =>
    rw [List.pairwise_cons] at h
    obtain ⟨h1, h2⟩ := ih h.2 fun x hx => hn x (List.mem_cons_of_mem _ hx)
    have ha := hn a List.mem_cons_self
    simp only [insertPair]
    split
    · rename_i hlt
      refine ⟨List.pairwise_cons.mpr ⟨fun x hx => ?_, List.pairwise_cons.mpr h⟩, by simp⟩
      rcases List.mem_cons.mp hx with rfl | hx
      · exact hlt
      · exact lt_trans hlt (h.1 x hx)
    · rename_i hlt
      rw [if_neg (fun hc => ha (by rw [hc]))]
      refine ⟨List.pairwise_cons.mpr ⟨fun x hx => ?_, h1⟩, by simp [h2]⟩
      rcases (mem_insertPair e x l).mp hx with rfl | hx
      · exact lt_of_le_of_ne (not_lt.mp hlt) ha
      · exact h.1 x hx

/-! ## The trie view (R32) -/

theorem isPre_iff (p c : Bits) : isPre p c = true ↔ p <+: c := List.isPrefixOf_iff_prefix

/-- All that the trie view says of a path, whatever the table. -/
theorem trieNode_cases (inv : List CodePair) (p : Bits) :
    (∃ e ∈ inv, e.code = p ∧ trieNode inv p = .leaf e.sym) ∨
    ((∀ e ∈ inv, e.code ≠ p) ∧ (p = [] ∨ ∃ e ∈ inv, p <+: e.code) ∧ trieNode inv p = .internal) ∨
    (p ≠ [] ∧ (∀ e ∈ inv, ¬ p <+: e.code) ∧ trieNode inv p = .absent) := by
  unfold trieNode
  cases hf : inv.find? fun e => e.code = p with
  | some e =>
    left
    exact ⟨e, List.mem_of_find?_eq_some hf, by simpa using List.find?_some hf, rfl⟩
  | none =>
    right
    rw [List.find?_eq_none] at hf
    have hne : ∀ e ∈ inv, e.code ≠ p := fun e he => by simpa using hf e he
    have ha : inv.any (fun e => isPre p e.code) = true ↔ ∃ e ∈ inv, p <+: e.code := by simp [isPre_iff]
    by_cases hp : p = [] ∨ ∃ e ∈ inv, p <+: e.code
    · exact .inl ⟨hne, hp, by simp only [ha, if_pos hp]⟩
    · exact .inr ⟨fun h => hp (.inl h), fun e he h => hp (.inr ⟨e, he, h⟩), by simp only [ha, if_neg hp]⟩

namespace TableInv

variable {t : CodeTable}

/-- A stored codeword is a leaf holding its symbol (R32, R33). -/
theorem trieNode_leaf (h : TableInv t) (c : Bits) (s : Symbol) (hm : { code := c, sym := s } ∈ t.inv) :
    trieNode t.inv c = .leaf s := by
  rcases trieNode_cases t.inv c with ⟨e, he, hc, hr⟩ | ⟨hne, _⟩ | ⟨_, hne, _⟩
  · rw [hr]
    by_cases hs : e.sym = s
    · rw [hs]
    · exact absurd (by rw [hc]) (h.prefixFree e he _ hm hs)
  · exact absurd rfl (hne _ hm)
  · exact absurd (List.prefix_refl c) (hne _ hm)

/-- A proper prefix of a stored codeword is an internal node (R32, R33). -/
theorem trieNode_internal (h : TableInv t) (p q : Bits) (s : Symbol) (hq : q ≠ [])
    (hm : { code := p ++ q, sym := s } ∈ t.inv) : trieNode t.inv p = .internal := by
  rcases trieNode_cases t.inv p with ⟨e, he, hc, _⟩ | ⟨_, _, hr⟩ | ⟨_, hne, _⟩
  · exfalso
    by_cases hs : e.sym = s
    · have h1 := (h.consistent e.code e.sym).mp he
      have h2 := (h.consistent _ _).mp hm
      rw [hs, h2] at h1
      injection h1 with h1
      rw [hc] at h1
      exact hq (by simpa using h1)
    · exact h.prefixFree e he _ hm hs (by rw [hc]; exact List.prefix_append _ _)
  · exact hr
  · exact absurd (List.prefix_append p q) (hne _ hm)

/-- The root is present and no leaf, whatever codewords are stored (R32; a codeword has at least one bit). -/
theorem trieNode_root (h : TableInv t) : trieNode t.inv [] = .internal := by
  rcases trieNode_cases t.inv [] with ⟨e, he, hc, _⟩ | ⟨_, _, hr⟩ | ⟨hn, _⟩
  · have := (h.lengths e he).1
    simp [hc] at this
  · exact hr
  · exact absurd rfl hn

theorem length_le (h : TableInv t) : t.inv.length ≤ 257 := by
  have h1 : (t.inv.map (·.sym)).Nodup := by
    rw [List.Nodup, List.pairwise_map]
    exact h.rising.imp ne_of_lt
  simpa using h1.length_le_card

/-- Assigning a codeword that clashes with none to a symbol that has none keeps the invariant (R158). -/
theorem assign_inv (h : TableInv t) (e : CodePair) (hf : t.fwd[e.sym] = none)
    (hl : 1 ≤ e.code.length ∧ e.code.length ≤ lMax)
    (hp : ∀ x ∈ t.inv, ¬ x.code <+: e.code ∧ ¬ e.code <+: x.code) : TableInv (t.assign e) := by
  have hsym : ∀ x ∈ t.inv, x.sym ≠ e.sym := fun x hx hc => by
    have := (h.consistent x.code x.sym).mp hx
    rw [hc, hf] at this; cases this
  obtain ⟨hr, hlen⟩ := insertPair_rising e t.inv h.rising hsym
  have hget : ∀ s : Symbol, (t.assign e).fwd[s] = if s = e.sym then some e.code else t.fwd[s] := by
    intro s
    simp only [CodeTable.assign, Fin.getElem_fin]
    by_cases hs : s = e.sym
    · subst hs; simp
    · rw [if_neg hs, Vector.getElem_set_ne]
      intro hc; exact hs (Fin.ext hc.symm)
  refine { consistent := ?_, prefixFree := ?_, lengths := ?_, counted := ?_, rising := hr }
  · intro c s
    rw [hget]
    simp only [CodeTable.assign, mem_insertPair]
    by_cases hs : s = e.sym
    · subst hs
      rw [if_pos rfl]
      constructor
      · rintro (hc | hc)
        · rw [← hc]
        · exact absurd rfl (hsym { code := c, sym := e.sym } hc)
      · intro hc
        injection hc with hc
        left; rw [← hc]
    · rw [if_neg hs, ← h.consistent]
      constructor
      · rintro (hc | hc)
        · rw [← hc] at hs; exact absurd rfl hs
        · exact hc
      · exact Or.inr
  · intro e1 h1 e2 h2 hne
    simp only [CodeTable.assign, mem_insertPair] at h1 h2
    rcases h1 with rfl | h1 <;> rcases h2 with rfl | h2
    · exact absurd rfl hne
    · exact (hp e2 h2).2
    · exact (hp e1 h1).1
    · exact h.prefixFree e1 h1 e2 h2 hne
  · intro x hx
    simp only [CodeTable.assign, mem_insertPair] at hx
    rcases hx with rfl | hx
    · exact hl
    · exact h.lengths x hx
  · have := h.length_le
    have hc := h.counted
    simp only [CodeTable.assign, hlen, BitVec.toNat_add, BitVec.toNat_ofNat, hc]
    omega

end TableInv

theorem tableInv_reset : TableInv CodeTable.reset := by
  refine { consistent := ?_, prefixFree := ?_, lengths := ?_, counted := rfl, rising := List.Pairwise.nil }
  · intro c s; simp [CodeTable.reset]
  · simp [CodeTable.reset]
  · simp [CodeTable.reset]

/-- Filling a table with pairs of distinct symbols and prefix-free codewords (R156, R158). -/
theorem foldl_assign_spec (l : List CodePair) (t : CodeTable) (h : TableInv t) (hf : ∀ e ∈ l, t.fwd[e.sym] = none)
    (hs : (l.map (·.sym)).Nodup) (hl : ∀ e ∈ l, 1 ≤ e.code.length ∧ e.code.length ≤ lMax)
    (hp : l.Pairwise fun a b => ¬ a.code <+: b.code ∧ ¬ b.code <+: a.code)
    (hc : ∀ e ∈ l, ∀ x ∈ t.inv, ¬ x.code <+: e.code ∧ ¬ e.code <+: x.code) :
    TableInv (l.foldl CodeTable.assign t) ∧ (∀ x, x ∈ (l.foldl CodeTable.assign t).inv ↔ x ∈ l ∨ x ∈ t.inv) ∧
      (l.foldl CodeTable.assign t).inv.length = l.length + t.inv.length := by
  induction l generalizing t with
  | nil => simp [h]
  | cons e l ih =>
    rw [List.map_cons, List.nodup_cons] at hs
    rw [List.pairwise_cons] at hp
    have hinv := h.assign_inv e (hf e List.mem_cons_self) (hl e List.mem_cons_self) (hc e List.mem_cons_self)
    have hsym : ∀ x ∈ t.inv, x.sym ≠ e.sym := fun x hx hc => by
      have := (h.consistent x.code x.sym).mp hx
      rw [hc, hf e List.mem_cons_self] at this; cases this
    obtain ⟨i1, i2, i3⟩ := ih (t.assign e) hinv
      (by
        intro x hx
        have hne : x.sym ≠ e.sym := fun hc => hs.1 (by rw [← hc]; exact List.mem_map.mpr ⟨x, hx, rfl⟩)
        have := hf x (List.mem_cons_of_mem _ hx)
        simp only [CodeTable.assign, Fin.getElem_fin] at this ⊢
        rw [Vector.getElem_set_ne _ _ (fun hc => hne (Fin.ext hc.symm))]; exact this)
      hs.2 (fun x hx => hl x (List.mem_cons_of_mem _ hx)) hp.2
      (by
        intro x hx y hy
        simp only [CodeTable.assign, mem_insertPair] at hy
        rcases hy with rfl | hy
        · exact hp.1 x hx
        · exact hc x (List.mem_cons_of_mem _ hx) y hy)
    refine ⟨i1, fun x => ?_, ?_⟩
    · rw [List.foldl_cons, i2]
      simp only [CodeTable.assign, mem_insertPair, List.mem_cons]; tauto
    · rw [List.foldl_cons, i3]
      have := (insertPair_rising e t.inv h.rising hsym).2
      simp only [CodeTable.assign, this, List.length_cons]; omega

/-! ## The walk -/

theorem leafSymbol_fin (node : Vector Node 513) (n : ArenaIndex) :
    leafSymbol node n.val = if node[n].kind = .leaf then some node[n].sym else none := by
  have : node[n.val]? = some node[n] := Vector.getElem?_eq_getElem n.isLt
  unfold leafSymbol
  rw [this]

/-- All that `walk` answers below a used entry of a tree: the leaves in order, each with the path that leads to it,
prefix-free, no deeper than the entry's place allows (R136, R154, R156). -/
theorem walk_spec {t : TreeUnit} (h : TreeInv t) (d : Nat) (n : NodeIndex) (p : Bits) (hd : n.toNat < d)
    (hk : kindAt t.node n.toNat ≠ .free) :
    ∃ l, walk t.node d n p = some l ∧ l.map (·.sym) = leavesBelow t.node n.toNat ∧
      (∀ e ∈ l, ∃ q, e.code = p ++ q ∧ q.length ≤ n.toNat - 256 ∧ (kindAt t.node n.toNat = .internal → q ≠ []) ∧
        follow t.node n q = some (BitVec.ofNat 10 e.sym.val)) ∧
      l.Pairwise fun a b => ¬ a.code <+: b.code ∧ ¬ b.code <+: a.code := by
  induction d generalizing n p with
  | zero => omega
  | succ d ih =>
    have hlt : n.toNat < 513 := by
      by_contra hc
      exact hk (by simp [kindAt, Vector.getElem?_eq_none (Nat.le_of_not_lt hc)])
    obtain ⟨N, hNv⟩ : ∃ N : ArenaIndex, N.val = n.toNat := ⟨⟨n.toNat, hlt⟩, rfl⟩
    have hkf : kindAt t.node n.toNat = t.node[N].kind := by rw [← hNv]; exact kindAt_fin t.node N
    have hg : t.node[n.toNat]? = some t.node[N] := by rw [← hNv]; exact Vector.getElem?_eq_getElem N.isLt
    cases hkind : t.node[N].kind with
    | free => exact absurd (hkf.trans hkind) hk
    | leaf =>
      have hp := h.leafPlace N hkind
      have hls : leafSymbol t.node n.toNat = some t.node[N].sym := by rw [← hNv, leafSymbol_fin, if_pos hkind]
      have heb : entriesBelow t.node 513 n.toNat = [n.toNat] := by
        have := entriesBelow_other t.node N (by rw [hkind]; simp)
        rwa [hNv] at this
      refine ⟨[{ code := p, sym := t.node[N].sym }], ?_, ?_, ?_, List.pairwise_singleton _ _⟩
      · simp only [walk, hg, hkind]
      · simp only [leavesBelow, heb, List.filterMap_cons, hls, List.filterMap_nil, List.map_cons, List.map_nil]
      · intro e he
        rw [List.mem_singleton] at he
        subst he
        refine ⟨[], by simp, by simp, fun hc => ?_, ?_⟩
        · rw [hkf, hkind] at hc; cases hc
        · simp only [follow, ← hp, hNv, BitVec.ofNat_toNat, BitVec.setWidth_eq]
    | internal =>
      obtain ⟨c1, c2, c3, c4⟩ := h.childrenBelow N hkind
      have c1 := lt_of_lt_of_eq c1 hNv
      have c2 := lt_of_lt_of_eq c2 hNv
      have h257 := ((h.internalPlace N).mp hkind).1
      obtain ⟨l1, w1, s1, q1, p1⟩ := ih t.node[N].left (p ++ [false]) (by omega) c3
      obtain ⟨l2, w2, s2, q2, p2⟩ := ih t.node[N].right (p ++ [true]) (by omega) c4
      have heb : entriesBelow t.node 513 n.toNat = n.toNat ::
          (entriesBelow t.node 513 t.node[N].left.toNat ++ entriesBelow t.node 513 t.node[N].right.toNat) := by
        rw [← hNv]; exact entriesBelow_internal t.node h.descends N hkind
      have hls : leafSymbol t.node n.toNat = none := by rw [← hNv, leafSymbol_fin, if_neg (by rw [hkind]; simp)]
      refine ⟨l1 ++ l2, ?_, ?_, ?_, ?_⟩
      · simp only [walk, hg, hkind, w1, w2]
      · simp only [leavesBelow, heb, List.filterMap_cons, hls, List.filterMap_append, List.map_append, s1, s2]
      · intro e he
        rcases List.mem_append.mp he with he | he
        · obtain ⟨q, e1, e2, _, e4⟩ := q1 e he
          refine ⟨false :: q, by rw [e1]; simp, by simp; omega, fun _ => by simp, ?_⟩
          simp only [follow, hg, hkind, if_true]
          simpa using e4
        · obtain ⟨q, e1, e2, _, e4⟩ := q2 e he
          refine ⟨true :: q, by rw [e1]; simp, by simp; omega, fun _ => by simp, ?_⟩
          simp only [follow, hg, hkind, if_true]
          simpa using e4
      · rw [List.pairwise_append]
        refine ⟨p1, p2, fun a ha b hb => ?_⟩
        obtain ⟨qa, ea, _⟩ := q1 a ha
        obtain ⟨qb, eb, _⟩ := q2 b hb
        rw [ea, eb]
        constructor
        · intro hc
          rw [List.append_assoc, List.append_assoc, List.prefix_append_right_inj] at hc
          simp at hc
        · intro hc
          rw [List.append_assoc, List.append_assoc, List.prefix_append_right_inj] at hc
          simp at hc

/-- All that `CT.GEN` finds in a finished tree (R156, R158, R161). -/
theorem generatedPairs_spec {t : TreeUnit} (h : TreeInv t) (hb : t.tstate = .built) :
    ∃ l, generatedPairs t = some l ∧ l.map (·.sym) = leavesBelow t.node t.root.toNat ∧
      (∀ e ∈ l, 1 ≤ e.code.length ∧ e.code.length ≤ lMax) ∧
      (∀ e ∈ l, if kindAt t.node t.root.toNat = .leaf then e.code = [false]
        else follow t.node t.root e.code = some (BitVec.ofNat 10 e.sym.val)) ∧
      l.Pairwise fun a b => ¬ a.code <+: b.code ∧ ¬ b.code <+: a.code := by
  have hp := h.phase
  simp only [PhaseInv, hb] at hp
  obtain ⟨n, hq, hr⟩ := hp
  have hrn : t.root.toNat = n.val := by rw [hr]; simp; omega
  have hg : t.node[t.root.toNat]? = some t.node[n] := by
    have : t.node[n.val]? = some t.node[n] := Vector.getElem?_eq_getElem n.isLt
    rwa [hrn]
  have hk : kindAt t.node t.root.toNat = t.node[n].kind := by rw [hrn, kindAt_fin]
  have hu := h.queue_used n (by rw [hq]; simp)
  cases hkind : t.node[n].kind with
  | free => exact absurd hkind hu
  | leaf =>
    have heb := entriesBelow_other t.node n (by rw [hkind]; simp)
    have hls : leafSymbol t.node n.val = some t.node[n].sym := by rw [leafSymbol_fin, if_pos hkind]
    refine ⟨[{ code := [false], sym := t.node[n].sym }], ?_, ?_, ?_, ?_, List.pairwise_singleton _ _⟩
    · simp only [generatedPairs, hg, hkind]
    · rw [hrn]
      simp only [leavesBelow, heb, List.filterMap_cons, hls, List.filterMap_nil, List.map_cons, List.map_nil]
    · simp [lMax]
    · simp [hk, hkind, -Fin.getElem_fin]
  | internal =>
    obtain ⟨l, w, s, q, p⟩ := walk_spec h 513 t.root [] (by rw [hrn]; exact n.isLt) (by rw [hk, hkind]; simp)
    have hi : kindAt t.node t.root.toNat = .internal := by rw [hk, hkind]
    refine ⟨l, ?_, s, ?_, ?_, p⟩
    · simp only [generatedPairs, hg, hkind, w]
    · intro e he
      obtain ⟨c, e1, e2, e3, _⟩ := q e he
      have := e3 hi
      have h1 : 0 < c.length := List.length_pos_of_ne_nil this
      have := n.isLt
      simp only [List.nil_append] at e1
      rw [e1]; simp only [lMax]; omega
    · intro e he
      obtain ⟨c, e1, _, _, e4⟩ := q e he
      simp only [List.nil_append] at e1
      rw [if_neg (by rw [hi]; simp), e1]; exact e4

/-- The leaves of a finished tree are all its leaves, each once (R30(a)). -/
theorem leavesBelow_root {t : TreeUnit} (h : TreeInv t) (hb : t.tstate = .built) :
    (leavesBelow t.node t.root.toNat).Nodup ∧
      ∀ s, s ∈ leavesBelow t.node t.root.toNat ↔ t.node[leafIndex s].kind = .leaf := by
  have hp := h.phase
  simp only [PhaseInv, hb] at hp
  obtain ⟨n, hq, hr⟩ := hp
  have hrn : t.root.toNat = n.val := by rw [hr]; simp; omega
  have hf := h.forest
  simp only [hq, List.map_cons, List.map_nil, List.flatMap_cons, List.flatMap_nil, List.append_nil, ← hrn] at hf
  constructor
  · apply List.Nodup.of_map (·.val)
    have := h.leavesBelow_val (entriesBelow t.node 513 t.root.toNat)
    unfold leavesBelow
    rw [this]
    exact (hf.nodup_iff.mpr (usedEntries_nodup _)).filter _
  · intro s
    refine ⟨h.mem_leaves_kind _ s, fun hk => ?_⟩
    have hu : (leafIndex s).val ∈ usedEntries t.node := (mem_usedEntries _ _).mpr (by rw [hk]; simp)
    refine List.mem_filterMap.mpr ⟨(leafIndex s).val, hf.mem_iff.mpr hu, ?_⟩
    rw [leafSymbol_fin, if_pos hk]
    exact congrArg some (Fin.ext (h.leafPlace _ hk).symm)

/-- The table `CT.GEN` leaves (R156, R158, R162(a)). -/
theorem generated_table {t : TreeUnit} (h : TreeInv t) (hb : t.tstate = .built) :
    ∃ l, generatedPairs t = some l ∧ TableInv (l.foldl CodeTable.assign CodeTable.reset) ∧
      (∀ x, x ∈ (l.foldl CodeTable.assign CodeTable.reset).inv ↔ x ∈ l) ∧
      l.map (·.sym) = leavesBelow t.node t.root.toNat ∧
      (∀ e ∈ l, if kindAt t.node t.root.toNat = .leaf then e.code = [false]
        else follow t.node t.root e.code = some (BitVec.ofNat 10 e.sym.val)) ∧
      (l.foldl CodeTable.assign CodeTable.reset).inv.length = l.length := by
  obtain ⟨l, g, s, b, f, p⟩ := generatedPairs_spec h hb
  have hn := (leavesBelow_root h hb).1
  obtain ⟨i1, i2, i3⟩ := foldl_assign_spec l CodeTable.reset tableInv_reset
    (fun e _ => by simp [CodeTable.reset]) (by rw [s]; exact hn) b p (fun e _ x hx => by simp [CodeTable.reset] at hx)
  refine ⟨l, g, i1, fun x => ?_, s, f, by simpa [CodeTable.reset] using i3⟩
  rw [i2]; simp [CodeTable.reset]

end Sys2Proof.Machine
end

