-- ==== Sys2Proof/Laws/Decode.lean ====
section
/-! SUPPORT. The fields of a command word put together by `commandWord` (spec/30_encoding.md rule R92). -/

namespace Sys2Proof

theorem commandWord_toNat (op : BitVec 8) (a : BitVec 16) (imm : BitVec 32) :
    (commandWord op a imm).toNat = op.toNat * 2 ^ 56 + a.toNat * 2 ^ 32 + imm.toNat := by
  have h : (commandWord op a imm).toNat =
      ((op.toNat * 2 ^ 8 + 0) * 2 ^ 16 + a.toNat) * 2 ^ 32 + imm.toNat := by
    unfold commandWord
    rw [BitVec.toNat_append, BitVec.toNat_append, BitVec.toNat_append,
      ← Nat.shiftLeft_add_eq_or_of_lt imm.isLt, ← Nat.shiftLeft_add_eq_or_of_lt a.isLt,
      ← Nat.shiftLeft_add_eq_or_of_lt (0#8).isLt]
    simp [Nat.shiftLeft_eq]
  rw [h]; omega

theorem opField_commandWord (op : BitVec 8) (a : BitVec 16) (imm : BitVec 32) :
    opField (commandWord op a imm) = op := by
  apply BitVec.eq_of_toNat_eq
  have := op.isLt; have := a.isLt; have := imm.isLt
  simp only [opField, BitVec.extractLsb'_toNat, commandWord_toNat, Nat.shiftRight_eq_div_pow]
  omega

theorem rsvField_commandWord (op : BitVec 8) (a : BitVec 16) (imm : BitVec 32) :
    rsvField (commandWord op a imm) = 0#8 := by
  apply BitVec.eq_of_toNat_eq
  have := op.isLt; have := a.isLt; have := imm.isLt
  simp only [rsvField, BitVec.extractLsb'_toNat, commandWord_toNat, Nat.shiftRight_eq_div_pow, BitVec.toNat_ofNat]
  omega

theorem aField_commandWord (op : BitVec 8) (a : BitVec 16) (imm : BitVec 32) :
    aField (commandWord op a imm) = a := by
  apply BitVec.eq_of_toNat_eq
  have := op.isLt; have := a.isLt; have := imm.isLt
  simp only [aField, BitVec.extractLsb'_toNat, commandWord_toNat, Nat.shiftRight_eq_div_pow]
  omega

theorem immField_commandWord (op : BitVec 8) (a : BitVec 16) (imm : BitVec 32) :
    immField (commandWord op a imm) = imm := by
  apply BitVec.eq_of_toNat_eq
  have := op.isLt; have := a.isLt; have := imm.isLt
  simp only [immField, BitVec.extractLsb'_toNat, commandWord_toNat, Nat.shiftRight_eq_div_pow]
  omega

/-- A word is its four fields. -/
theorem commandWord_fields (w : Word) (h : rsvField w = 0#8) :
    commandWord (opField w) (aField w) (immField w) = w := by
  apply BitVec.eq_of_toNat_eq
  have hr := congrArg BitVec.toNat h
  have := w.isLt
  rw [commandWord_toNat]
  simp only [rsvField, opField, aField, immField, BitVec.extractLsb'_toNat, Nat.shiftRight_eq_div_pow,
    BitVec.toNat_ofNat] at *
  omega

/-- Four fields masked field by field. -/
theorem commandWord_and (op x1 : BitVec 8) (a x2 : BitVec 16) (imm x3 : BitVec 32) :
    commandWord op a imm &&& (x1 ++ 0xFF#8 ++ x2 ++ x3) = commandWord (op &&& x1) (a &&& x2) (imm &&& x3) := by
  have h1 : (op ++ 0#8) &&& (x1 ++ 0xFF#8) = (op &&& x1) ++ 0#8 := BitVec.and_append.trans (by simp)
  have h2 : (op ++ 0#8 ++ a) &&& (x1 ++ 0xFF#8 ++ x2) = (op &&& x1) ++ 0#8 ++ (a &&& x2) :=
    BitVec.and_append.trans (by rw [h1])
  exact BitVec.and_append.trans (by rw [h2]; rfl)

/-- The mask of a command with `A` leaves its opcode. -/
theorem commandWord_and_a (op : BitVec 8) (a : BitVec 16) :
    commandWord op a 0#32 &&& 0xFFFF0000FFFFFFFF#64 = commandWord op 0#16 0#32 := by
  have h := commandWord_and op (BitVec.allOnes 8) a 0#16 0#32 0xFFFFFFFF#32
  rw [BitVec.and_allOnes, BitVec.and_zero, BitVec.zero_and] at h
  exact h

/-- The mask of a command with `A` and `IMM` leaves its opcode. -/
theorem commandWord_and_imm (op : BitVec 8) (a : BitVec 16) (imm : BitVec 32) :
    commandWord op a imm &&& 0xFFFF000000000000#64 = commandWord op 0#16 0#32 := by
  have h := commandWord_and op (BitVec.allOnes 8) a 0#16 imm 0#32
  rw [BitVec.and_allOnes, BitVec.and_zero, BitVec.and_zero] at h
  exact h

end Sys2Proof
end

