-- ==== Sys2Proof/Laws/State.lean ====
section
/-! SUPPORT. What each named update of the state does to each field, so that no later proof unfolds a record update. -/

namespace Sys2Proof.Machine

variable (s : State)

/-! ### `respond` -/

@[simp] theorem State.respond_freq (c : RspCode) (d : Word) : (s.respond c d).freq = s.freq := rfl
@[simp] theorem State.respond_tree (c : RspCode) (d : Word) : (s.respond c d).tree = s.tree := rfl
@[simp] theorem State.respond_table (c : RspCode) (d : Word) : (s.respond c d).table = s.table := rfl
@[simp] theorem State.respond_cwr (c : RspCode) (d : Word) : (s.respond c d).cwr = s.cwr := rfl
@[simp] theorem State.respond_writer (c : RspCode) (d : Word) : (s.respond c d).writer = s.writer := rfl
@[simp] theorem State.respond_reader (c : RspCode) (d : Word) : (s.respond c d).reader = s.reader := rfl
@[simp] theorem State.respond_decoder (c : RspCode) (d : Word) : (s.respond c d).decoder = s.decoder := rfl
@[simp] theorem State.respond_err (c : RspCode) (d : Word) : (s.respond c d).err = s.err := rfl
@[simp] theorem State.respond_out (c : RspCode) (d : Word) : (s.respond c d).out = s.out := rfl
@[simp] theorem State.respond_decout (c : RspCode) (d : Word) : (s.respond c d).decout = s.decout := rfl
@[simp] theorem State.respond_cfg (c : RspCode) (d : Word) : (s.respond c d).cfg = s.cfg := rfl
@[simp] theorem State.respond_pending (c : RspCode) (d : Word) : (s.respond c d).pending = s.pending := rfl
@[simp] theorem State.respond_ports (c : RspCode) (d : Word) : (s.respond c d).ports = s.ports ++ [.rsp c.num d] := rfl

/-! ### `recordFault` -/

@[simp] theorem State.recordFault_freq (c : RspCode) : (s.recordFault c).freq = s.freq := rfl
@[simp] theorem State.recordFault_tree (c : RspCode) : (s.recordFault c).tree = s.tree := rfl
@[simp] theorem State.recordFault_table (c : RspCode) : (s.recordFault c).table = s.table := rfl
@[simp] theorem State.recordFault_cwr (c : RspCode) : (s.recordFault c).cwr = s.cwr := rfl
@[simp] theorem State.recordFault_writer (c : RspCode) : (s.recordFault c).writer = s.writer := rfl
@[simp] theorem State.recordFault_reader (c : RspCode) : (s.recordFault c).reader = s.reader := rfl
@[simp] theorem State.recordFault_decoder (c : RspCode) : (s.recordFault c).decoder = s.decoder := rfl
@[simp] theorem State.recordFault_err (c : RspCode) : (s.recordFault c).err = { lasterr := c.num, errseen := true } := rfl
@[simp] theorem State.recordFault_out (c : RspCode) : (s.recordFault c).out = s.out := rfl
@[simp] theorem State.recordFault_decout (c : RspCode) : (s.recordFault c).decout = s.decout := rfl
@[simp] theorem State.recordFault_cfg (c : RspCode) : (s.recordFault c).cfg = s.cfg := rfl
@[simp] theorem State.recordFault_pending (c : RspCode) : (s.recordFault c).pending = s.pending := rfl
@[simp] theorem State.recordFault_ports (c : RspCode) : (s.recordFault c).ports = s.ports := rfl

/-! ### `raise` -/

@[simp] theorem State.raise_freq (c : RspCode) (d : Word) : (s.raise c d).freq = s.freq := rfl
@[simp] theorem State.raise_tree (c : RspCode) (d : Word) : (s.raise c d).tree = s.tree := rfl
@[simp] theorem State.raise_table (c : RspCode) (d : Word) : (s.raise c d).table = s.table := rfl
@[simp] theorem State.raise_cwr (c : RspCode) (d : Word) : (s.raise c d).cwr = s.cwr := rfl
@[simp] theorem State.raise_writer (c : RspCode) (d : Word) : (s.raise c d).writer = s.writer := rfl
@[simp] theorem State.raise_reader (c : RspCode) (d : Word) : (s.raise c d).reader = s.reader := rfl
@[simp] theorem State.raise_decoder (c : RspCode) (d : Word) : (s.raise c d).decoder = s.decoder := rfl
@[simp] theorem State.raise_err (c : RspCode) (d : Word) : (s.raise c d).err = { lasterr := c.num, errseen := true } := rfl
@[simp] theorem State.raise_out (c : RspCode) (d : Word) : (s.raise c d).out = s.out := rfl
@[simp] theorem State.raise_decout (c : RspCode) (d : Word) : (s.raise c d).decout = s.decout := rfl
@[simp] theorem State.raise_cfg (c : RspCode) (d : Word) : (s.raise c d).cfg = s.cfg := rfl
@[simp] theorem State.raise_pending (c : RspCode) (d : Word) : (s.raise c d).pending = s.pending := rfl
@[simp] theorem State.raise_ports (c : RspCode) (d : Word) : (s.raise c d).ports = s.ports ++ [.rsp c.num d] := rfl

/-! ### `emitOut` -/

@[simp] theorem State.emitOut_freq (bs : List Byte) : (s.emitOut bs).freq = s.freq := rfl
@[simp] theorem State.emitOut_tree (bs : List Byte) : (s.emitOut bs).tree = s.tree := rfl
@[simp] theorem State.emitOut_table (bs : List Byte) : (s.emitOut bs).table = s.table := rfl
@[simp] theorem State.emitOut_cwr (bs : List Byte) : (s.emitOut bs).cwr = s.cwr := rfl
@[simp] theorem State.emitOut_writer (bs : List Byte) : (s.emitOut bs).writer = s.writer := rfl
@[simp] theorem State.emitOut_reader (bs : List Byte) : (s.emitOut bs).reader = s.reader := rfl
@[simp] theorem State.emitOut_decoder (bs : List Byte) : (s.emitOut bs).decoder = s.decoder := rfl
@[simp] theorem State.emitOut_err (bs : List Byte) : (s.emitOut bs).err = s.err := rfl
@[simp] theorem State.emitOut_out (bs : List Byte) : (s.emitOut bs).out = s.out ++ bs := rfl
@[simp] theorem State.emitOut_decout (bs : List Byte) : (s.emitOut bs).decout = s.decout := rfl
@[simp] theorem State.emitOut_cfg (bs : List Byte) : (s.emitOut bs).cfg = s.cfg := rfl
@[simp] theorem State.emitOut_pending (bs : List Byte) : (s.emitOut bs).pending = s.pending := rfl
@[simp] theorem State.emitOut_ports (bs : List Byte) : (s.emitOut bs).ports = s.ports ++ bs.map .out := rfl

/-! ### `emitDec` -/

@[simp] theorem State.emitDec_freq (b : Byte) : (s.emitDec b).freq = s.freq := rfl
@[simp] theorem State.emitDec_tree (b : Byte) : (s.emitDec b).tree = s.tree := rfl
@[simp] theorem State.emitDec_table (b : Byte) : (s.emitDec b).table = s.table := rfl
@[simp] theorem State.emitDec_cwr (b : Byte) : (s.emitDec b).cwr = s.cwr := rfl
@[simp] theorem State.emitDec_writer (b : Byte) : (s.emitDec b).writer = s.writer := rfl
@[simp] theorem State.emitDec_reader (b : Byte) : (s.emitDec b).reader = s.reader := rfl
@[simp] theorem State.emitDec_decoder (b : Byte) : (s.emitDec b).decoder = s.decoder := rfl
@[simp] theorem State.emitDec_err (b : Byte) : (s.emitDec b).err = s.err := rfl
@[simp] theorem State.emitDec_out (b : Byte) : (s.emitDec b).out = s.out := rfl
@[simp] theorem State.emitDec_decout (b : Byte) : (s.emitDec b).decout = s.decout ++ [b] := rfl
@[simp] theorem State.emitDec_cfg (b : Byte) : (s.emitDec b).cfg = s.cfg := rfl
@[simp] theorem State.emitDec_pending (b : Byte) : (s.emitDec b).pending = s.pending := rfl
@[simp] theorem State.emitDec_ports (b : Byte) : (s.emitDec b).ports = s.ports ++ [.dec b] := rfl

/-! ### `accept` -/

@[simp] theorem State.accept_freq (w : Word) (rest : List HostInput) : (s.accept w rest).freq = s.freq := rfl
@[simp] theorem State.accept_tree (w : Word) (rest : List HostInput) : (s.accept w rest).tree = s.tree := rfl
@[simp] theorem State.accept_table (w : Word) (rest : List HostInput) : (s.accept w rest).table = s.table := rfl
@[simp] theorem State.accept_cwr (w : Word) (rest : List HostInput) : (s.accept w rest).cwr = s.cwr := rfl
@[simp] theorem State.accept_writer (w : Word) (rest : List HostInput) : (s.accept w rest).writer = s.writer := rfl
@[simp] theorem State.accept_reader (w : Word) (rest : List HostInput) : (s.accept w rest).reader = s.reader := rfl
@[simp] theorem State.accept_decoder (w : Word) (rest : List HostInput) : (s.accept w rest).decoder = s.decoder := rfl
@[simp] theorem State.accept_err (w : Word) (rest : List HostInput) : (s.accept w rest).err = s.err := rfl
@[simp] theorem State.accept_out (w : Word) (rest : List HostInput) : (s.accept w rest).out = s.out := rfl
@[simp] theorem State.accept_decout (w : Word) (rest : List HostInput) : (s.accept w rest).decout = s.decout := rfl
@[simp] theorem State.accept_cfg (w : Word) (rest : List HostInput) : (s.accept w rest).cfg = s.cfg := rfl
@[simp] theorem State.accept_pending (w : Word) (rest : List HostInput) : (s.accept w rest).pending = rest := rfl
@[simp] theorem State.accept_ports (w : Word) (rest : List HostInput) : (s.accept w rest).ports = s.ports ++ [.cmd w] := rfl

/-! ### `softReset` -/

@[simp] theorem State.softReset_freq : (s.softReset).freq = freqReset := rfl
@[simp] theorem State.softReset_tree : (s.softReset).tree = TreeUnit.reset := rfl
@[simp] theorem State.softReset_table : (s.softReset).table = CodeTable.reset := rfl
@[simp] theorem State.softReset_cwr : (s.softReset).cwr = [] := rfl
@[simp] theorem State.softReset_writer : (s.softReset).writer = Writer.reset := rfl
@[simp] theorem State.softReset_reader : (s.softReset).reader = Reader.reset := rfl
@[simp] theorem State.softReset_decoder : (s.softReset).decoder = Decoder.reset := rfl
@[simp] theorem State.softReset_err : (s.softReset).err = ErrorRegs.reset := rfl
@[simp] theorem State.softReset_out : (s.softReset).out = s.out := rfl
@[simp] theorem State.softReset_decout : (s.softReset).decout = s.decout := rfl
@[simp] theorem State.softReset_cfg : (s.softReset).cfg = s.cfg := rfl
@[simp] theorem State.softReset_pending : (s.softReset).pending = s.pending := rfl
@[simp] theorem State.softReset_ports : (s.softReset).ports = s.ports := rfl

/-! ### `hardwareReset` -/

@[simp] theorem State.hardwareReset_freq (rest : List HostInput) : (s.hardwareReset rest).freq = freqReset := rfl
@[simp] theorem State.hardwareReset_tree (rest : List HostInput) : (s.hardwareReset rest).tree = TreeUnit.reset := rfl
@[simp] theorem State.hardwareReset_table (rest : List HostInput) : (s.hardwareReset rest).table = CodeTable.reset := rfl
@[simp] theorem State.hardwareReset_cwr (rest : List HostInput) : (s.hardwareReset rest).cwr = [] := rfl
@[simp] theorem State.hardwareReset_writer (rest : List HostInput) : (s.hardwareReset rest).writer = Writer.reset := rfl
@[simp] theorem State.hardwareReset_reader (rest : List HostInput) : (s.hardwareReset rest).reader = Reader.reset := rfl
@[simp] theorem State.hardwareReset_decoder (rest : List HostInput) : (s.hardwareReset rest).decoder = Decoder.reset := rfl
@[simp] theorem State.hardwareReset_err (rest : List HostInput) : (s.hardwareReset rest).err = ErrorRegs.reset := rfl
@[simp] theorem State.hardwareReset_out (rest : List HostInput) : (s.hardwareReset rest).out = [] := rfl
@[simp] theorem State.hardwareReset_decout (rest : List HostInput) : (s.hardwareReset rest).decout = [] := rfl
@[simp] theorem State.hardwareReset_cfg (rest : List HostInput) : (s.hardwareReset rest).cfg = s.cfg := rfl
@[simp] theorem State.hardwareReset_pending (rest : List HostInput) : (s.hardwareReset rest).pending = rest := rfl
@[simp] theorem State.hardwareReset_ports (rest : List HostInput) : (s.hardwareReset rest).ports = [] := rfl

end Sys2Proof.Machine
end

