-- ==== Sys2Proof/Laws/Decoder.lean ====
section
/-! SUPPORT. The decoder's transition and its loops (spec/45_decoder.md rules R211, R213, R214, R215). -/

namespace Sys2Proof.Machine

/-- What reaching a leaf does, the bits up to it consumed by a reader that is then `r` (R211). -/
def leafMove (s : State) (r : Reader) (x : Symbol) : State × Reply :=
  if x.val ≤ 255 then
    ({ s with reader := r,
              decoder := { s.decoder with cur := [], dcount := s.decoder.dcount + 1#64, dstate := .root } }.emitDec
        (BitVec.ofNat 8 x.val),
      { code := .ok, data := (symbolField x).setWidth 64 <<< 2 ||| 1#64 })
  else
    ({ s with reader := r, decoder := { s.decoder with cur := [], dstate := .done } },
      { code := .ok, data := 256#64 <<< 2 ||| 2#64 })

theorem decodeMove_leaf (s : State) (r : Reader) (p : Bits) (x : Symbol) (h : trieNode s.table.inv p = .leaf x) :
    decodeMove { s with reader := r } p = leafMove s r x := by
  unfold decodeMove leafMove; simp only [h]

theorem decodeMove_internal (s : State) (p : Bits) (h : trieNode s.table.inv p = .internal) :
    decodeMove s p =
      ({ s with decoder := { s.decoder with cur := p, dstate := .descending } }, { code := .ok, data := 0#64 }) := by
  unfold decodeMove; simp only [h]

/-- The decoder's moves leave the reader as `getbit` left it. -/
theorem decodeMove_reader (s : State) (p : Bits) : (decodeMove s p).1.reader = s.reader := by
  unfold decodeMove; split
  · split <;> rfl
  · rfl
  · rfl

/-- A transition that answers OK has consumed one bit. -/
theorem decodeBit_available (s : State) (h : (decodeBit s).2.code = .ok) :
    (decodeBit s).1.reader.available + 1 = s.reader.available := by
  unfold decodeBit at h ⊢
  split at h
  · cases h
  · rename_i h1
    rw [if_neg h1]
    split at h
    · cases h
    · rename_i h2
      rw [if_neg h2]
      split at h
      · cases h
      · cases h
      · rename_i b r hg
        rw [decodeMove_reader]
        exact (getBit_bit _ _ _ hg).2.2.2

/-- The bound of `DEC.SYM`'s loop is never what stops it (R213: "It terminates"). -/
theorem decodeSymbol_bound (n m : Nat) (s : State) (hn : s.reader.available ≤ n) (hm : s.reader.available ≤ m) :
    decodeSymbol n s = decodeSymbol m s ∧
      ¬ ((decodeSymbol n s).2.code = .ok ∧ (decodeSymbol n s).2.kind = 0#2) := by
  induction n generalizing m s with
  | zero =>
    have h0 : (decodeBit s).2.code ≠ .ok := fun h => by have := decodeBit_available s h; omega
    cases m with
    | zero => exact ⟨rfl, fun hc => h0 hc.1⟩
    | succ m => simp [decodeSymbol, h0]
  | succ n ih =>
    by_cases hc : (decodeBit s).2.code = .ok ∧ (decodeBit s).2.kind = 0#2
    · have ha := decodeBit_available s hc.1
      cases m with
      | zero => omega
      | succ m =>
        simp only [decodeSymbol, hc, and_self, if_true]
        exact ih m _ (by omega) (by omega)
    · cases m with
      | zero => simp only [decodeSymbol, if_neg hc]; exact ⟨trivial, hc⟩
      | succ m => simp only [decodeSymbol, if_neg hc]; exact ⟨trivial, hc⟩

/-- `DEC.SYM` is one `DEC.BIT` and, while that answers `(OK, NONE)`, `DEC.SYM` again (R213). -/
theorem decodeSymbol_unfold (s : State) :
    decodeSymbol s.reader.available s =
      if (decodeBit s).2.code = .ok ∧ (decodeBit s).2.kind = 0#2 then
        decodeSymbol (decodeBit s).1.reader.available (decodeBit s).1
      else decodeBit s := by
  rw [(decodeSymbol_bound _ (s.reader.available + 1) s (Nat.le_refl _) (Nat.le_succ _)).1]
  simp only [decodeSymbol]
  split
  · rename_i h
    have := decodeBit_available s h.1
    exact (decodeSymbol_bound _ _ _ (by omega) (Nat.le_refl _)).1
  · rfl

/-- The bound of `DEC.RUN`'s loop is never what stops it (R214: "It terminates"). -/
theorem decodeRun_bound (n m : Nat) (s : State) (hn : s.reader.available ≤ n) (hm : s.reader.available ≤ m) :
    decodeRun n s = decodeRun m s ∧ ¬ ((decodeRun n s).2.code = .ok ∧ (decodeRun n s).2.kind ≠ 2#2) := by
  induction n generalizing m s with
  | zero =>
    have h0 : (decodeBit s).2.code ≠ .ok := fun h => by have := decodeBit_available s h; omega
    cases m with
    | zero => exact ⟨rfl, fun hc => h0 hc.1⟩
    | succ m => simp [decodeRun, h0]
  | succ n ih =>
    by_cases hc : (decodeBit s).2.code = .ok ∧ (decodeBit s).2.kind ≠ 2#2
    · have ha := decodeBit_available s hc.1
      cases m with
      | zero => omega
      | succ m =>
        simp only [decodeRun, if_pos hc]
        exact ih m _ (by omega) (by omega)
    · cases m with
      | zero => simp only [decodeRun, if_neg hc]; exact ⟨trivial, hc⟩
      | succ m => simp only [decodeRun, if_neg hc]; exact ⟨trivial, hc⟩

/-- `DEC.RUN` is one `DEC.BIT` and, while that answers NONE or LITERAL, `DEC.RUN` again (R214). -/
theorem decodeRun_unfold (s : State) :
    decodeRun s.reader.available s =
      if (decodeBit s).2.code = .ok ∧ (decodeBit s).2.kind ≠ 2#2 then
        decodeRun (decodeBit s).1.reader.available (decodeBit s).1
      else decodeBit s := by
  rw [(decodeRun_bound _ (s.reader.available + 1) s (Nat.le_refl _) (Nat.le_succ _)).1]
  simp only [decodeRun]
  split
  · rename_i h
    have := decodeBit_available s h.1
    exact (decodeRun_bound _ _ _ (by omega) (Nat.le_refl _)).1
  · rfl

/-- The decoder is at the root or inside a codeword and the table is not empty (R211's admission checks). -/
structure Decoding (s : State) : Prop where
  table : s.table.nsym ≠ 0#9
  state : s.decoder.dstate = .root ∨ s.decoder.dstate = .descending

theorem decodeBit_of_bit (s : State) (hd : Decoding s) (b : Bool) (r : Reader) (hg : getBit s.reader = .bit b r) :
    decodeBit s = decodeMove { s with reader := r } (s.decoder.cur ++ [b]) := by
  have h2 : ¬ (s.decoder.dstate = .done ∨ s.decoder.dstate = .error) := by
    rcases hd.state with h | h <;> simp [h]
  simp only [decodeBit, if_neg hd.table, if_neg h2, hg]

/-- The kind of a leaf's response (R211). -/
theorem leafMove_reply (s : State) (r : Reader) (x : Symbol) :
    (leafMove s r x).2.code = .ok ∧ (leafMove s r x).2.kind = if x.val ≤ 255 then 1#2 else 2#2 := by
  have h2 : ((256#64 <<< 2 ||| 2#64).extractLsb' 0 2) = 2#2 := by decide
  unfold leafMove Reply.kind
  split
  · refine ⟨rfl, ?_⟩
    apply BitVec.eq_of_getLsbD_eq
    intro i hi
    have : i = 0 ∨ i = 1 := by omega
    rcases this with rfl | rfl <;> simp
  · exact ⟨rfl, h2⟩

/-- The rest of a codeword read by `DEC.SYM` or `DEC.RUN`: the decoder reaches its leaf, having consumed exactly
the codeword (R211, R213, R214). -/
theorem decode_codeword (q : Bits) (s : State) (w : Bits) (x : Symbol) (h : TableInv s.table) (hd : Decoding s)
    (hq : q ≠ []) (hm : { code := s.decoder.cur ++ q, sym := x } ∈ s.table.inv) (hu : s.reader.unread = q ++ w) :
    ∃ r, r.unread = w ∧ r.eoi = s.reader.eoi ∧ r.rbitcnt = s.reader.rbitcnt + BitVec.ofNat 64 q.length ∧
      decodeSymbol s.reader.available s = leafMove s r x ∧
      decodeRun s.reader.available s =
        if x.val ≤ 255 then decodeRun (leafMove s r x).1.reader.available (leafMove s r x).1 else leafMove s r x := by
  induction q generalizing s with
  | nil => exact absurd rfl hq
  | cons b q ih =>
    obtain ⟨r, hg, hr⟩ := getBit_of_unread s.reader b (q ++ w) hu
    obtain ⟨_, hcnt, heoi, _⟩ := getBit_bit _ _ _ hg
    have hstep := decodeBit_of_bit s hd b r hg
    by_cases hq' : q = []
    · subst hq'
      have hl := decodeMove_leaf s r _ x (h.trieNode_leaf _ x hm)
      rw [hl] at hstep
      obtain ⟨k1, k2⟩ := leafMove_reply s r x
      refine ⟨r, by simpa using hr, heoi, by simpa using hcnt, ?_, ?_⟩
      · rw [decodeSymbol_unfold, hstep, if_neg]
        rw [k2]; split <;> simp
      · rw [decodeRun_unfold, hstep]
        by_cases hx : x.val ≤ 255
        · rw [if_pos ⟨k1, by rw [k2, if_pos hx]; decide⟩, if_pos hx]
        · rw [if_neg (by rw [k2, if_neg hx]; simp), if_neg hx]
    · have hm' : { code := (s.decoder.cur ++ [b]) ++ q, sym := x } ∈ s.table.inv := by simpa using hm
      have hi := decodeMove_internal { s with reader := r } (s.decoder.cur ++ [b])
        (h.trieNode_internal _ q x hq' hm')
      rw [hi] at hstep
      obtain ⟨r', u1, u2, u3, u4, u5⟩ := ih
        { s with reader := r, decoder := { s.decoder with cur := s.decoder.cur ++ [b], dstate := .descending } }
        h ⟨hd.table, Or.inr rfl⟩ hq' hm' hr
      have hk : ({ code := .ok, data := 0#64 } : Reply).kind = 0#2 := by decide
      refine ⟨r', u1, u2.trans heoi, ?_, ?_, ?_⟩
      · simp only [hcnt] at u3
        rw [u3, List.length_cons, BitVec.add_assoc]
        congr 1
        rw [Nat.add_comm, BitVec.ofNat_add]
      · rw [decodeSymbol_unfold, hstep, if_pos ⟨rfl, hk⟩]
        exact u4
      · rw [decodeRun_unfold, hstep, if_pos ⟨rfl, by rw [hk]; decide⟩]
        exact u5

end Sys2Proof.Machine
end

