-- ==== Sys2Proof/Laws/DecodeCommands.lean ====
section
/-! SUPPORT. What a decode command can change and answer, said once for its transitions and its loops
(spec/45_decoder.md rules R211, R213, R214; 60_exceptions.md rules R243, R244). -/

namespace Sys2Proof.Machine

@[simp] theorem lastReply_respond (s : State) (c : RspCode) (d : Word) : (s.respond c d).lastReply = some (c.num, d) := by
  simp [State.lastReply]

@[simp] theorem lastReply_raise (s : State) (c : RspCode) (d : Word) : (s.raise c d).lastReply = some (c.num, d) := by
  simp [State.lastReply]

@[simp] theorem lastReply_writeCode (s : State) (c : Bits) :
    (s.writeCode c).lastReply = some (0#8, BitVec.ofNat 64 (putBits s.writer c).2.length) := by
  simp [State.writeCode, RspCode.num]

/-- What decoding leaves alone. -/
structure DecodeFrame (s t : State) : Prop where
  freq : t.freq = s.freq
  tree : t.tree = s.tree
  table : t.table = s.table
  cwr : t.cwr = s.cwr
  writer : t.writer = s.writer
  out : t.out = s.out
  cfg : t.cfg = s.cfg
  pending : t.pending = s.pending
  eoi : t.reader.eoi = s.reader.eoi

namespace DecodeFrame

theorem refl (s : State) : DecodeFrame s s := ⟨rfl, rfl, rfl, rfl, rfl, rfl, rfl, rfl, rfl⟩

theorem trans {s t u : State} (h : DecodeFrame s t) (k : DecodeFrame t u) : DecodeFrame s u :=
  ⟨k.freq.trans h.freq, k.tree.trans h.tree, k.table.trans h.table, k.cwr.trans h.cwr, k.writer.trans h.writer,
    k.out.trans h.out, k.cfg.trans h.cfg, k.pending.trans h.pending, k.eoi.trans h.eoi⟩

theorem respond {s t : State} (h : DecodeFrame s t) (c : RspCode) (d : Word) : DecodeFrame s (t.respond c d) :=
  ⟨h.freq, h.tree, h.table, h.cwr, h.writer, h.out, h.cfg, h.pending, h.eoi⟩

end DecodeFrame

theorem decodeBit_frame (s : State) : DecodeFrame s (decodeBit s).1 := by
  unfold decodeBit
  split
  · exact ⟨rfl, rfl, rfl, rfl, rfl, rfl, rfl, rfl, rfl⟩
  split
  · exact ⟨rfl, rfl, rfl, rfl, rfl, rfl, rfl, rfl, rfl⟩
  split
  · exact DecodeFrame.refl s
  · exact ⟨rfl, rfl, rfl, rfl, rfl, rfl, rfl, rfl, rfl⟩
  · rename_i b r hg
    have he := (getBit_bit _ _ _ hg).2.2.1
    unfold decodeMove
    split
    · split <;> exact ⟨rfl, rfl, rfl, rfl, rfl, rfl, rfl, rfl, he⟩
    · exact ⟨rfl, rfl, rfl, rfl, rfl, rfl, rfl, rfl, he⟩
    · exact ⟨rfl, rfl, rfl, rfl, rfl, rfl, rfl, rfl, he⟩

/-- A relation that transitions keep and that composes is kept by `DEC.SYM`'s loop. -/
theorem decodeSymbol_induct (p : State → State → Prop) (ht : ∀ a b c, p a b → p b c → p a c)
    (hb : ∀ s, p s (decodeBit s).1) (n : Nat) (s : State) : p s (decodeSymbol n s).1 := by
  induction n generalizing s with
  | zero => exact hb s
  | succ n ih =>
    simp only [decodeSymbol]
    split
    · exact ht _ _ _ (hb s) (ih _)
    · exact hb s

/-- The same for `DEC.RUN`'s loop. -/
theorem decodeRun_induct (p : State → State → Prop) (ht : ∀ a b c, p a b → p b c → p a c)
    (hb : ∀ s, p s (decodeBit s).1) (n : Nat) (s : State) : p s (decodeRun n s).1 := by
  induction n generalizing s with
  | zero => exact hb s
  | succ n ih =>
    simp only [decodeRun]
    split
    · exact ht _ _ _ (hb s) (ih _)
    · exact hb s

/-- What a decode command leaves alone (R71, R244). -/
theorem exec_decode_frame (i : Instr) (hi : i = .decBit ∨ i = .decSym ∨ i = .decRun) (s t : State)
    (h : exec i s = .next t) : DecodeFrame s t := by
  rcases hi with rfl | rfl | rfl
  · cases h; exact (decodeBit_frame s).respond _ _
  · cases h
    exact (decodeSymbol_induct DecodeFrame (fun _ _ _ => .trans) decodeBit_frame _ s).respond _ _
  · have hf := decodeRun_induct DecodeFrame (fun _ _ _ => .trans) decodeBit_frame s.reader.available s
    simp only [exec, execDecRun] at h
    split at h <;> cases h <;> exact hf.respond _ _

/-- What one transition answers and does to the error registers and flags (R211, R243). -/
structure BitReply (s t : State) (r : Reply) : Prop where
  codes : r.code ∈ [RspCode.ok, .tableEmpty, .decoderState, .decodeMismatch, .needInput, .inputExhausted]
  refused : r.code = .tableEmpty ∨ r.code = .decoderState → r.data = 0#64 ∧ t = s.recordFault r.code
  mismatch : r.code = .decodeMismatch →
    t.err = { lasterr := 16#8, errseen := true } ∧ r.data = t.reader.rbitcnt ∧ t.decoder.dstate = .error
  need : r.code = .needInput → r.data = 0#64 ∧ t = s
  exhausted : r.code = .inputExhausted →
    r.data = s.decoder.dcount ∧ t = { s with decoder := s.decoder.markTruncated }
  ok : r.code = .ok → t.err = s.err ∧ t.decoder.trunc = s.decoder.trunc
  trunc : r.code ≠ .inputExhausted → t.decoder.trunc = s.decoder.trunc

theorem decodeBit_reply (s : State) : BitReply s (decodeBit s).1 (decodeBit s).2 := by
  unfold decodeBit
  split
  · constructor <;> simp
  split
  · constructor <;> simp
  split
  · constructor <;> simp
  · constructor <;> simp
  · unfold decodeMove
    split
    · split <;> constructor <;> simp
    · constructor <;> simp
    · constructor <;> simp [RspCode.num]

/-- What a loop of transitions ends with (R213, R214, R243, R244). -/
structure LoopReply (s t : State) (r : Reply) : Prop where
  codes : r.code ∈ [RspCode.ok, .tableEmpty, .decoderState, .decodeMismatch, .needInput, .inputExhausted]
  refused : r.code = .tableEmpty ∨ r.code = .decoderState →
    r.data = 0#64 ∧ t.err = { lasterr := r.code.num, errseen := true }
  mismatch : r.code = .decodeMismatch →
    t.err = { lasterr := 16#8, errseen := true } ∧ r.data = t.reader.rbitcnt ∧ t.decoder.dstate = .error
  need : r.code = .needInput → r.data = 0#64
  exhausted : r.code = .inputExhausted → r.data = t.decoder.dcount ∧ t.decoder.trunc = true
  silent : r.code = .needInput ∨ r.code = .inputExhausted ∨ r.code = .ok → t.err = s.err
  trunc : r.code ≠ .inputExhausted → t.decoder.trunc = s.decoder.trunc
  sticky : s.decoder.trunc = true → t.decoder.trunc = true

theorem BitReply.loop {s t : State} {r : Reply} (h : BitReply s t r) : LoopReply s t r where
  codes := h.codes
  refused := fun k => ⟨(h.refused k).1, by rw [(h.refused k).2]; rfl⟩
  mismatch := h.mismatch
  need := fun k => (h.need k).1
  exhausted := fun k => by rw [(h.exhausted k).1, (h.exhausted k).2]; exact ⟨rfl, rfl⟩
  silent := by
    rintro (k | k | k)
    · rw [(h.need k).2]
    · rw [(h.exhausted k).2]
    · exact (h.ok k).1
  trunc := h.trunc
  sticky := fun k => by
    by_cases hx : r.code = .inputExhausted
    · rw [(h.exhausted hx).2]; rfl
    · rw [h.trunc hx, k]

theorem LoopReply.after {s u t : State} {r : Reply} (he : u.err = s.err) (ht : u.decoder.trunc = s.decoder.trunc)
    (h : LoopReply u t r) : LoopReply s t r :=
  ⟨h.codes, h.refused, h.mismatch, h.need, h.exhausted, fun k => (h.silent k).trans he, fun k => (h.trunc k).trans ht,
    fun k => h.sticky (ht.trans k)⟩

theorem decodeSymbol_reply (n : Nat) (s : State) : LoopReply s (decodeSymbol n s).1 (decodeSymbol n s).2 := by
  induction n generalizing s with
  | zero => exact (decodeBit_reply s).loop
  | succ n ih =>
    simp only [decodeSymbol]
    split
    · rename_i h
      have := (decodeBit_reply s).ok h.1
      exact (ih _).after this.1 this.2
    · exact (decodeBit_reply s).loop

theorem decodeRun_reply (n : Nat) (s : State) : LoopReply s (decodeRun n s).1 (decodeRun n s).2 := by
  induction n generalizing s with
  | zero => exact (decodeBit_reply s).loop
  | succ n ih =>
    simp only [decodeRun]
    split
    · rename_i h
      have := (decodeBit_reply s).ok h.1
      exact (ih _).after this.1 this.2
    · exact (decodeBit_reply s).loop

/-- What a decode command's response is (R211, R213, R214). -/
theorem exec_decode_reply (i : Instr) (hi : i = .decBit ∨ i = .decSym ∨ i = .decRun) (s t : State)
    (h : exec i s = .next t) : ∃ u r, LoopReply s u r ∧ t = u.respond r.code r.data := by
  rcases hi with rfl | rfl | rfl
  · cases h; exact ⟨_, _, (decodeBit_reply s).loop, rfl⟩
  · cases h; exact ⟨_, _, decodeSymbol_reply _ s, rfl⟩
  · simp only [exec, execDecRun] at h
    have hr := decodeRun_reply s.reader.available s
    split at h <;> cases h
    · rename_i hc
      exact ⟨_, ⟨.ok, _⟩, ⟨by simp, by simp, by simp, by simp, by simp, fun _ => hr.silent (by simp [hc]),
        fun _ => hr.trunc (by simp [hc]), hr.sticky⟩, rfl⟩
    · exact ⟨_, _, hr, rfl⟩

end Sys2Proof.Machine
end

