-- ==== Sys2Proof/Laws/PerInstr.lean ====
section
/-! SUPPORT. Statements about every command as syntax, one lemma per constructor. -/

namespace Sys2Proof.Laws.EncodingRow

/-- The command's word spells its own row of the opcode map (spec/30_encoding.md rule R96). -/
def Statement (i : Instr) : Prop :=
  ∃ r ∈ opcodeRows, r.mnemonic = mnemonicOf i ∧ encode i &&& r.mask = r.pattern

theorem nop : Statement (.nop) :=
  ⟨⟨"NOP", 0x0000000000000000#64, 0xFFFFFFFFFFFFFFFF#64⟩, by simp [opcodeRows], rfl, by decide⟩

theorem srst : Statement (.srst) :=
  ⟨⟨"SRST", 0x0100000000000000#64, 0xFFFFFFFFFFFFFFFF#64⟩, by simp [opcodeRows], rfl, by decide⟩

theorem csrRd (a : BitVec 16) : Statement (.csrRd a) :=
  ⟨⟨"CSR.RD", 0x0200000000000000#64, 0xFFFF0000FFFFFFFF#64⟩, by simp [opcodeRows], rfl, commandWord_and_a _ _⟩

theorem errClr : Statement (.errClr) :=
  ⟨⟨"ERR.CLR", 0x0300000000000000#64, 0xFFFFFFFFFFFFFFFF#64⟩, by simp [opcodeRows], rfl, by decide⟩

theorem fqClr : Statement (.fqClr) :=
  ⟨⟨"FQ.CLR", 0x1000000000000000#64, 0xFFFFFFFFFFFFFFFF#64⟩, by simp [opcodeRows], rfl, by decide⟩

theorem fqSet (a : BitVec 16) (imm : BitVec 32) : Statement (.fqSet a imm) :=
  ⟨⟨"FQ.SET", 0x1100000000000000#64, 0xFFFF000000000000#64⟩, by simp [opcodeRows], rfl, commandWord_and_imm _ _ _⟩

theorem fqInc (a : BitVec 16) : Statement (.fqInc a) :=
  ⟨⟨"FQ.INC", 0x1200000000000000#64, 0xFFFF0000FFFFFFFF#64⟩, by simp [opcodeRows], rfl, commandWord_and_a _ _⟩

theorem fqRd (a : BitVec 16) : Statement (.fqRd a) :=
  ⟨⟨"FQ.RD", 0x1300000000000000#64, 0xFFFF0000FFFFFFFF#64⟩, by simp [opcodeRows], rfl, commandWord_and_a _ _⟩

theorem tbInit : Statement (.tbInit) :=
  ⟨⟨"TB.INIT", 0x2000000000000000#64, 0xFFFFFFFFFFFFFFFF#64⟩, by simp [opcodeRows], rfl, by decide⟩

theorem tbStep : Statement (.tbStep) :=
  ⟨⟨"TB.STEP", 0x2100000000000000#64, 0xFFFFFFFFFFFFFFFF#64⟩, by simp [opcodeRows], rfl, by decide⟩

theorem tbBuild : Statement (.tbBuild) :=
  ⟨⟨"TB.BUILD", 0x2200000000000000#64, 0xFFFFFFFFFFFFFFFF#64⟩, by simp [opcodeRows], rfl, by decide⟩

theorem tbRdn (a : BitVec 16) : Statement (.tbRdn a) :=
  ⟨⟨"TB.RDN", 0x2300000000000000#64, 0xFFFF0000FFFFFFFF#64⟩, by simp [opcodeRows], rfl, commandWord_and_a _ _⟩

theorem tbRdf (a : BitVec 16) : Statement (.tbRdf a) :=
  ⟨⟨"TB.RDF", 0x2400000000000000#64, 0xFFFF0000FFFFFFFF#64⟩, by simp [opcodeRows], rfl, commandWord_and_a _ _⟩

theorem tbFree : Statement (.tbFree) :=
  ⟨⟨"TB.FREE", 0x2500000000000000#64, 0xFFFFFFFFFFFFFFFF#64⟩, by simp [opcodeRows], rfl, by decide⟩

theorem cwClr : Statement (.cwClr) :=
  ⟨⟨"CW.CLR", 0x3000000000000000#64, 0xFFFFFFFFFFFFFFFF#64⟩, by simp [opcodeRows], rfl, by decide⟩

theorem cwApp (a : BitVec 16) (imm : BitVec 32) : Statement (.cwApp a imm) :=
  ⟨⟨"CW.APP", 0x3100000000000000#64, 0xFFFF000000000000#64⟩, by simp [opcodeRows], rfl, commandWord_and_imm _ _ _⟩

theorem cwRd (a : BitVec 16) : Statement (.cwRd a) :=
  ⟨⟨"CW.RD", 0x3200000000000000#64, 0xFFFF0000FFFFFFFF#64⟩, by simp [opcodeRows], rfl, commandWord_and_a _ _⟩

theorem ctClr : Statement (.ctClr) :=
  ⟨⟨"CT.CLR", 0x3800000000000000#64, 0xFFFFFFFFFFFFFFFF#64⟩, by simp [opcodeRows], rfl, by decide⟩

theorem ctGen : Statement (.ctGen) :=
  ⟨⟨"CT.GEN", 0x3900000000000000#64, 0xFFFFFFFFFFFFFFFF#64⟩, by simp [opcodeRows], rfl, by decide⟩

theorem ctIns (a : BitVec 16) : Statement (.ctIns a) :=
  ⟨⟨"CT.INS", 0x3A00000000000000#64, 0xFFFF0000FFFFFFFF#64⟩, by simp [opcodeRows], rfl, commandWord_and_a _ _⟩

theorem ctLkp (a : BitVec 16) : Statement (.ctLkp a) :=
  ⟨⟨"CT.LKP", 0x3B00000000000000#64, 0xFFFF0000FFFFFFFF#64⟩, by simp [opcodeRows], rfl, commandWord_and_a _ _⟩

theorem ctFind : Statement (.ctFind) :=
  ⟨⟨"CT.FIND", 0x3C00000000000000#64, 0xFFFFFFFFFFFFFFFF#64⟩, by simp [opcodeRows], rfl, by decide⟩

theorem bpRst : Statement (.bpRst) :=
  ⟨⟨"BP.RST", 0x4000000000000000#64, 0xFFFFFFFFFFFFFFFF#64⟩, by simp [opcodeRows], rfl, by decide⟩

theorem bpPut : Statement (.bpPut) :=
  ⟨⟨"BP.PUT", 0x4100000000000000#64, 0xFFFFFFFFFFFFFFFF#64⟩, by simp [opcodeRows], rfl, by decide⟩

theorem bpEnc (a : BitVec 16) : Statement (.bpEnc a) :=
  ⟨⟨"BP.ENC", 0x4200000000000000#64, 0xFFFF0000FFFFFFFF#64⟩, by simp [opcodeRows], rfl, commandWord_and_a _ _⟩

theorem bpFlush : Statement (.bpFlush) :=
  ⟨⟨"BP.FLUSH", 0x4300000000000000#64, 0xFFFFFFFFFFFFFFFF#64⟩, by simp [opcodeRows], rfl, by decide⟩

theorem inRst : Statement (.inRst) :=
  ⟨⟨"IN.RST", 0x5000000000000000#64, 0xFFFFFFFFFFFFFFFF#64⟩, by simp [opcodeRows], rfl, by decide⟩

theorem inByte (a : BitVec 16) : Statement (.inByte a) :=
  ⟨⟨"IN.BYTE", 0x5100000000000000#64, 0xFFFF0000FFFFFFFF#64⟩, by simp [opcodeRows], rfl, commandWord_and_a _ _⟩

theorem inEnd : Statement (.inEnd) :=
  ⟨⟨"IN.END", 0x5200000000000000#64, 0xFFFFFFFFFFFFFFFF#64⟩, by simp [opcodeRows], rfl, by decide⟩

theorem inBit : Statement (.inBit) :=
  ⟨⟨"IN.BIT", 0x5300000000000000#64, 0xFFFFFFFFFFFFFFFF#64⟩, by simp [opcodeRows], rfl, by decide⟩

theorem decRst : Statement (.decRst) :=
  ⟨⟨"DEC.RST", 0x6000000000000000#64, 0xFFFFFFFFFFFFFFFF#64⟩, by simp [opcodeRows], rfl, by decide⟩

theorem decBit : Statement (.decBit) :=
  ⟨⟨"DEC.BIT", 0x6100000000000000#64, 0xFFFFFFFFFFFFFFFF#64⟩, by simp [opcodeRows], rfl, by decide⟩

theorem decSym : Statement (.decSym) :=
  ⟨⟨"DEC.SYM", 0x6200000000000000#64, 0xFFFFFFFFFFFFFFFF#64⟩, by simp [opcodeRows], rfl, by decide⟩

theorem decRun : Statement (.decRun) :=
  ⟨⟨"DEC.RUN", 0x6300000000000000#64, 0xFFFFFFFFFFFFFFFF#64⟩, by simp [opcodeRows], rfl, by decide⟩

end Sys2Proof.Laws.EncodingRow
end

