-- ==== Sys2Proof/Machine/Assembler.lean ====
section
/-! DEFINITION. The assembler's text (spec/30_encoding.md rules R100, R101; 00_scope.md rule R13). It is the host's: the block
sees only the commands a line stands for. A character stands for its ASCII code (93_implementation_defined.md G2; log 14).
What R100 and R101 leave open of a line is log 18. -/

namespace Sys2Proof.Machine

/-- The mnemonics with the operands they take (R96, R100). -/
def mnemonics : List (String × Shape) :=
  [("NOP", .plain .nop), ("SRST", .plain .srst), ("CSR.RD", .withA .csrRd), ("ERR.CLR", .plain .errClr)]
  ++ [("FQ.CLR", .plain .fqClr), ("FQ.SET", .withAImm .fqSet), ("FQ.INC", .withA .fqInc), ("FQ.RD", .withA .fqRd)]
  ++ [("TB.INIT", .plain .tbInit), ("TB.STEP", .plain .tbStep), ("TB.BUILD", .plain .tbBuild),
      ("TB.RDN", .withA .tbRdn), ("TB.RDF", .withA .tbRdf), ("TB.FREE", .plain .tbFree)]
  ++ [("CW.CLR", .plain .cwClr), ("CW.APP", .withAImm .cwApp), ("CW.RD", .withA .cwRd)]
  ++ [("CT.CLR", .plain .ctClr), ("CT.GEN", .plain .ctGen), ("CT.INS", .withA .ctIns), ("CT.LKP", .withA .ctLkp),
      ("CT.FIND", .plain .ctFind)]
  ++ [("BP.RST", .plain .bpRst), ("BP.PUT", .plain .bpPut), ("BP.ENC", .withA .bpEnc), ("BP.FLUSH", .plain .bpFlush)]
  ++ [("IN.RST", .plain .inRst), ("IN.BYTE", .withA .inByte), ("IN.END", .plain .inEnd), ("IN.BIT", .plain .inBit)]
  ++ [("DEC.RST", .plain .decRst), ("DEC.BIT", .plain .decBit), ("DEC.SYM", .plain .decSym), ("DEC.RUN", .plain .decRun)]

/-- A piece of a line. -/
inductive Token where
  | comma
  | char (c : Char)
  | text (cs : List Char)
  | word (cs : List Char)
  deriving DecidableEq, Repr

/-- The word read so far, last character first, as a token. -/
def endWord : List Char → List Token
  | [] => []
  | w => [.word w.reverse]

/-- The tokens of a line (R100). The first argument is the quoted text being read, last character first; an unclosed
one is no line. A quoted character or text stands as it is written, without escapes (log 18, DESIGN CHOICE). -/
def tokens : Option (List Char) → List Char → List Char → Option (List Token)
  | some _, _, [] => none
  | some t, _, '"' :: l => (tokens none [] l).map (.text t.reverse :: ·)
  | some t, w, c :: l => tokens (some (c :: t)) w l
  | none, w, [] => some (endWord w)
  | none, w, ';' :: _ => some (endWord w)
  | none, w, '"' :: l => (tokens (some []) [] l).map (endWord w ++ ·)
  | none, w, '\'' :: c :: '\'' :: l => (tokens none [] l).map (endWord w ++ .char c :: ·)
  | none, w, ',' :: l => (tokens none [] l).map (endWord w ++ .comma :: ·)
  | none, w, c :: l =>
    if c = ' ' ∨ c = '\t' then (tokens none [] l).map (endWord w ++ ·) else tokens none (c :: w) l

/-- A digit's value. A hexadecimal digit may have either case (log 18, DESIGN CHOICE). -/
def digitValue (c : Char) : Option Nat :=
  if '0' ≤ c ∧ c ≤ '9' then some (c.toNat - '0'.toNat)
  else if 'a' ≤ c ∧ c ≤ 'f' then some (c.toNat - 'a'.toNat + 10)
  else if 'A' ≤ c ∧ c ≤ 'F' then some (c.toNat - 'A'.toNat + 10)
  else none

/-- Digits in a base, most significant first, after the value read so far. -/
def digitsValue (base : Nat) : Nat → List Char → Option Nat
  | n, [] => some n
  | n, c :: l =>
    match digitValue c with
    | some d => if d < base then digitsValue base (base * n + d) l else none
    | none => none

/-- The number an operand token stands for (R100): decimal, `0x`, `0b`, a character, or `EOF`. A character above 127 has no
ASCII code, and the spec gives it no number: its Unicode code point is the model's (log 18, DESIGN CHOICE). -/
def operandValue : Token → Option Nat
  | .char c => some c.toNat
  | .word ['E', 'O', 'F'] => some 256
  | .word ('0' :: 'x' :: c :: l) => digitsValue 16 0 (c :: l)
  | .word ('0' :: 'b' :: c :: l) => digitsValue 2 0 (c :: l)
  | .word (c :: l) => digitsValue 10 0 (c :: l)
  | _ => none

/-- An operand that fits the field `A`. A greater number is no line (log 18, DESIGN CHOICE). -/
def aOperand (t : Token) : Option (BitVec 16) :=
  match operandValue t with
  | some n => if n < 2 ^ 16 then some (aOf n) else none
  | none => none

/-- An operand that fits the field `IMM`. A greater number is no line (log 18, DESIGN CHOICE). -/
def immOperand (t : Token) : Option (BitVec 32) :=
  match operandValue t with
  | some n => if n < 2 ^ 32 then some (BitVec.ofNat 32 n) else none
  | none => none

/-- The command a mnemonic and its operands spell (R100). -/
def assembleCommand (m : List Char) (ops : List Token) : Option Instr :=
  match mnemonics.find? (fun p => p.1.toList = m), ops with
  | some (_, .plain i), [] => some i
  | some (_, .withA mk), [a] => (aOperand a).map mk
  | some (_, .withAImm mk), [a, .comma, v] =>
    match aOperand a, immOperand v with
    | some x, some y => some (mk x y)
    | _, _ => none
  | _, _ => none

/-- A text of the characters 0 and 1 as bits. -/
def textBits : List Char → Option Bits
  | [] => some []
  | '0' :: l => (textBits l).map (false :: ·)
  | '1' :: l => (textBits l).map (true :: ·)
  | _ => none

/-- A codeword text: 1 to 256 characters (R101). -/
def codeText (cs : List Char) : Option Bits :=
  match textBits cs with
  | some b => if 1 ≤ b.length ∧ b.length ≤ lMax then some b else none
  | none => none

/-- A text as the bytes of its characters' codes. A character of 128 to 255 stands for the byte of its code point, and a text
with a greater one is no line (log 18, DESIGN CHOICE). -/
def textBytes : List Char → Option (List Byte)
  | [] => some []
  | c :: l => if c.toNat < 256 then (textBytes l).map (BitVec.ofNat 8 c.toNat :: ·) else none

/-- The operands of `IN.BYTES`, separated by commas (R101). One above 255 is a line, because R101 sets no limit, and the block
answers its `IN.BYTE` with BAD_OPERAND. One that does not fit `A` is no line (log 18, DESIGN CHOICE). -/
def byteList : List Token → Option (List (BitVec 16))
  | [t] => (aOperand t).map ([·])
  | t :: .comma :: l =>
    match aOperand t, byteList l with
    | some a, some as => some (a :: as)
    | _, _ => none
  | _ => none

/-- The pseudo-instruction a name and its operands spell (R101). -/
def assemblePseudo (m : List Char) (ops : List Token) : Option Pseudo :=
  if m = "CW.PUSH".toList then
    match ops with
    | [t] => match operandValue t with
      | some 0 => some (.cwPush false)
      | some 1 => some (.cwPush true)
      | _ => none
    | _ => none
  else if m = "CW.SET".toList then
    match ops with
    | [.text cs] => (codeText cs).map .cwSet
    | _ => none
  else if m = "CT.ROW".toList then
    match ops with
    | [a, .comma, .text cs] => match aOperand a, codeText cs with
      | some s, some b => some (.ctRow s b)
      | _, _ => none
    | _ => none
  else if m = "FQ.HIST".toList then
    match ops with
    | [.text cs] => (textBytes cs).map .fqHist
    | _ => none
  else if m = "BP.TEXT".toList then
    match ops with
    | [.text cs] => (textBytes cs).map .bpText
    | _ => none
  else if m = "BP.EOS".toList then
    match ops with
    | [] => some .bpEos
    | _ => none
  else if m = "IN.BYTES".toList then (byteList ops).map .inBytes
  else none

/-- The commands a line stands for, none if it is no line of the assembler (R100, R101). An empty or comment line stands
for no command. -/
def assembleLine (line : List Char) : Option (List Instr) :=
  match tokens none [] line with
  | none => none
  | some [] => some []
  | some (.word m :: ops) =>
    match assembleCommand m ops with
    | some i => some [i]
    | none => (assemblePseudo m ops).map expandPseudo
  | some _ => none

/-- The command words a list of lines stands for. -/
def assemble : List (List Char) → Option (List Word)
  | [] => some []
  | l :: ls =>
    match assembleLine l, assemble ls with
    | some is, some ws => some (is.map encode ++ ws)
    | _, _ => none

end Sys2Proof.Machine
end

