-- ==== Sys2Proof/Tests/Slice0.lean ====
section
/-! SUPPORT. The model's own tests. Expected values are the spec's: words from 30_encoding.md rules R92, R96, R102, results
from 95_test_vectors.md (the vector is named) or the rule named. Then, for every statement with hypotheses, a witness
that meets them. -/

namespace Sys2Proof.Tests

open Sys2Proof Sys2Proof.Machine

set_option Elab.async false

/-! ## Helpers -/

/-- The state a command leads to; the state itself if it stops. -/
def nextOf (i : Instr) (s : State) : State :=
  match exec i s with
  | .next t => t
  | _ => s

/-- The response of a command. -/
def replyOf (i : Instr) (s : State) : Option (Byte × Word) :=
  match exec i s with
  | .next t => t.lastReply
  | _ => none

/-- The counts of "aaab" (T-FQ-2). -/
def aaabFreq : Vector Count 257 := (freqReset.set 97 3#32).set 98 1#32

/-- The arena with the leaves of "aaab". -/
def aaabLeaves : Vector Node 513 :=
  (((Vector.replicate 513 Node.freeEntry).set 97 (leafNode 97 3#32)).set 98 (leafNode 98 1#32)).set 256 (leafNode 256 1#32)

/-- The tree unit of "aaab" after `TB.INIT` (T-TB-1, step-wise). -/
def aaabStart : TreeUnit :=
  { node := aaabLeaves, pq := [97, 98, 256], root := nilIndex, next := 257#10, tstate := .building }

/-- The tree unit of "aaab" after `TB.BUILD` (T-TB-1). -/
def aaabTree : TreeUnit :=
  { node := (aaabLeaves.set 257
        { kind := .internal, sym := 0, left := 98#10, right := 256#10, freq := 2#41, key := 98 }).set 258
        { kind := .internal, sym := 0, left := 257#10, right := 97#10, freq := 5#41, key := 97 },
    pq := [258], root := 258#10, next := 259#10, tstate := .built }

/-- The code table of "aaab" (T-CT-1), its pairs inserted one by one. -/
def aaabTable : CodeTable :=
  ((CodeTable.reset.assign { code := [true], sym := 97 }).assign { code := [false, false], sym := 98 }).assign
    { code := [false, true], sym := 256 }

/-- Reset with the counts of "aaab". -/
def counted : State := { State.reset with freq := aaabFreq }

/-- "aaab" after `TB.INIT`. -/
def building : State := { counted with tree := aaabStart }

/-- The finished tree of "aaab". -/
def built : State := { counted with tree := aaabTree }

/-- The code table of "aaab" and a codeword staged. -/
def coded : State := { State.reset with table := aaabTable, cwr := [false, true] }

/-- Reset with the bits `bits` staged. -/
def staged (bits : Bits) : State := { State.reset with cwr := bits }

/-- The table of "aaab" and the byte `b` waiting. -/
def reading (b : Byte) : State := { coded with reader := { Reader.reset with inq := [b] } }

/-- A state that meets every invariant, with a command waiting. -/
def demo : State :=
  { counted with tree := initialTree aaabFreq, table := aaabTable, cwr := [false, true], reader := { Reader.reset with inq := [0xE2#8] },
                 pending := [.command 0x1200006100000000#64] }

/-! ## WellFormed refuses an ill-formed command, and accepts the last one in range -/

theorem test_wf_csr : WellFormed .default (.csrRd 16#16) = false ∧ WellFormed .default (.csrRd 15#16) = true := by decide
theorem test_wf_symbol : WellFormed .default (.fqRd 257#16) = false ∧ WellFormed .default (.fqRd 256#16) = true ∧
    WellFormed .default (.ctIns 257#16) = false ∧ WellFormed .default (.ctLkp 300#16) = false ∧
    WellFormed .default (.bpEnc 257#16) = false ∧ WellFormed .default (.fqSet 257#16 1#32) = false := by decide
theorem test_wf_byte : WellFormed .default (.fqInc 256#16) = false ∧ WellFormed .default (.fqInc 255#16) = true ∧
    WellFormed .default (.inByte 256#16) = false := by decide
theorem test_wf_node : WellFormed .default (.tbRdn 513#16) = false ∧ WellFormed .default (.tbRdn 512#16) = true ∧
    WellFormed .default (.tbRdf 513#16) = false := by decide
theorem test_wf_word : WellFormed .default (.cwRd 8#16) = false ∧ WellFormed .default (.cwRd 7#16) = true := by decide
theorem test_wf_bits : WellFormed .default (.cwApp 0#16 0#32) = false ∧ WellFormed .default (.cwApp 33#16 0#32) = false ∧
    WellFormed .default (.cwApp 3#16 8#32) = false ∧ WellFormed .default (.cwApp 32#16 0xFFFFFFFF#32) = true := by decide
theorem test_wf_count : WellFormed .default (.fqSet 256#16 0#32) = false ∧ WellFormed .default (.fqSet 0#16 0#32) = true ∧
    WellFormed { cntW := 8, inqCap := none } (.fqSet 0#16 256#32) = false ∧
    WellFormed { cntW := 8, inqCap := none } (.fqSet 0#16 255#32) = true := by decide

/-! ## Words written out from R96 decode to their commands -/

theorem test_decode_system : decode 0x0000000000000000#64 = .ok .nop ∧ decode 0x0100000000000000#64 = .ok .srst ∧
    decode 0x0200000F00000000#64 = .ok (.csrRd 15#16) ∧ decode 0x0300000000000000#64 = .ok .errClr := ⟨rfl, rfl, rfl, rfl⟩
theorem test_decode_frequency : decode 0x1000000000000000#64 = .ok .fqClr ∧
    decode 0x1100006100000003#64 = .ok (.fqSet 97#16 3#32) ∧ decode 0x1200006200000000#64 = .ok (.fqInc 98#16) ∧
    decode 0x1300010000000000#64 = .ok (.fqRd 256#16) := ⟨rfl, rfl, rfl, rfl⟩
theorem test_decode_tree : decode 0x2000000000000000#64 = .ok .tbInit ∧ decode 0x2100000000000000#64 = .ok .tbStep ∧
    decode 0x2200000000000000#64 = .ok .tbBuild ∧ decode 0x2300010200000000#64 = .ok (.tbRdn 258#16) ∧
    decode 0x2400010200000000#64 = .ok (.tbRdf 258#16) ∧ decode 0x2500000000000000#64 = .ok .tbFree :=
  ⟨rfl, rfl, rfl, rfl, rfl, rfl⟩
theorem test_decode_register : decode 0x3000000000000000#64 = .ok .cwClr ∧
    decode 0x31000020DEADBEEF#64 = .ok (.cwApp 32#16 0xDEADBEEF#32) ∧ decode 0x3200000700000000#64 = .ok (.cwRd 7#16) :=
  ⟨rfl, rfl, rfl⟩
theorem test_decode_table : decode 0x3800000000000000#64 = .ok .ctClr ∧ decode 0x3900000000000000#64 = .ok .ctGen ∧
    decode 0x3A00006100000000#64 = .ok (.ctIns 97#16) ∧ decode 0x3B00000A00000000#64 = .ok (.ctLkp 10#16) ∧
    decode 0x3C00000000000000#64 = .ok .ctFind := ⟨rfl, rfl, rfl, rfl, rfl⟩
theorem test_decode_packer : decode 0x4000000000000000#64 = .ok .bpRst ∧ decode 0x4100000000000000#64 = .ok .bpPut ∧
    decode 0x4200010000000000#64 = .ok (.bpEnc 256#16) ∧ decode 0x4300000000000000#64 = .ok .bpFlush :=
  ⟨rfl, rfl, rfl, rfl⟩
theorem test_decode_reader : decode 0x5000000000000000#64 = .ok .inRst ∧
    decode 0x510000E200000000#64 = .ok (.inByte 0xE2#16) ∧ decode 0x5200000000000000#64 = .ok .inEnd ∧
    decode 0x5300000000000000#64 = .ok .inBit := ⟨rfl, rfl, rfl, rfl⟩
theorem test_decode_decoder : decode 0x6000000000000000#64 = .ok .decRst ∧ decode 0x6100000000000000#64 = .ok .decBit ∧
    decode 0x6200000000000000#64 = .ok .decSym ∧ decode 0x6300000000000000#64 = .ok .decRun := ⟨rfl, rfl, rfl, rfl⟩
/-- T-E-6, T-E-7, T-E-8, T-E-9, T-E-15. -/
theorem test_decode_illegal : decode 0x2200000000000001#64 = .error .unusedImmNotZero ∧
    decode 0x2201000000000000#64 = .error .reservedNotZero ∧ decode 0x0400000000000000#64 = .error .unknownOp ∧
    decode 0xFFFFFFFFFFFFFFFF#64 = .error .unknownOp ∧ decode 0x1000000100000000#64 = .error .unusedANotZero :=
  ⟨rfl, rfl, rfl, rfl, rfl⟩
theorem test_table_word : decodeTableWord 64 0x1100006100000003 = some (.fqSet 97#16 3#32) ∧
    decodeTableWord 64 0x2200000000000001 = none := ⟨rfl, rfl⟩

/-! ## System commands -/

theorem test_nop : replyOf .nop State.reset = some (0#8, 0#64) := by decide +kernel
/-- T-SYS-3. -/
theorem test_srst : (nextOf .srst coded).table.fwd[97] = none ∧ (nextOf .srst coded).table.nsym = 0#9 ∧
    (nextOf .srst coded).cwr = [] := by decide +kernel
/-- T-SYS-1. -/
theorem test_csrRd : replyOf (.csrRd 0#16) State.reset = some (0#8, 0x4855464600000001#64) ∧
    replyOf (.csrRd 6#16) State.reset = some (0#8, 0x101#64) ∧ replyOf (.csrRd 16#16) State.reset = some (2#8, 0#64) := by
  decide +kernel
/-- T-SYS-2's `STATUS`, 0x12. -/
theorem test_csrRd_status : replyOf (.csrRd 1#16) { built with writer := { Writer.reset with wclosed := true } } =
    some (0#8, 0x12#64) := by decide +kernel
/-- T-SYS-4. -/
theorem test_errClr : (nextOf .errClr { State.reset with err := { lasterr := 1#8, errseen := true } }).err =
    { lasterr := 0#8, errseen := false } := by decide +kernel
/-- T-E-8: an illegal word is answered 1, recorded, and nothing else changes. -/
theorem test_step_illegal : (match step (counted.withFetchWord 64 0x0400000000000000) with
    | .next t => decide (t.lastReply = some (1#8, 0#64) ∧ t.err = { lasterr := 1#8, errseen := true } ∧
        t.freq[97] = 3#32 ∧ t.pending = [])
    | _ => false) = true := by decide +kernel

/-! ## Frequency memory -/

/-- T-FQ-5. -/
theorem test_fqClr : (nextOf .fqClr counted).freq[97] = 0#32 ∧ (nextOf .fqClr counted).freq[256] = 1#32 := by decide +kernel
/-- T-FQ-3. -/
theorem test_fqSet : replyOf (.fqSet 256#16 0#32) State.reset = some (2#8, 0#64) ∧
    (nextOf (.fqSet 256#16 5#32) State.reset).freq[256] = 5#32 := by decide +kernel
/-- R123's example. -/
theorem test_fqInc : (nextOf (.fqInc 97#16) counted).freq[97] = 4#32 := by decide +kernel
/-- T-FQ-4. -/
theorem test_fqInc_overflow : replyOf (.fqInc 0#16) { State.reset with freq := freqReset.set 0 0xFFFFFFFF#32 } =
    some (3#8, 0#64) := by decide +kernel
/-- T-FQ-1. -/
theorem test_fqRd : replyOf (.fqRd 256#16) State.reset = some (0#8, 1#64) ∧
    replyOf (.fqRd 97#16) counted = some (0#8, 3#64) := by decide +kernel

/-! ## Tree builder -/

/-- T-TB-1, step-wise. -/
theorem test_tbInit : replyOf .tbInit counted = some (0#8, 3#64) ∧ (nextOf .tbInit counted).tree.pq = aaabStart.pq ∧
    (nextOf .tbInit counted).tree.node[97] = leafNode 97 3#32 := by decide +kernel
/-- T-TB-1, step-wise. -/
theorem test_tbStep : replyOf .tbStep building = some (0#8, 257#64) ∧ (nextOf .tbStep building).tree.pq = [97, 257] ∧
    (nextOf .tbStep building).tree.node[257] =
      { kind := .internal, sym := 0, left := 98#10, right := 256#10, freq := 2#41, key := 98 } := by decide +kernel
/-- T-TB-1, step-wise: from reset. -/
theorem test_tbStep_refused : replyOf .tbStep State.reset = some (5#8, 0#64) := by decide +kernel
/-- T-TB-1. -/
theorem test_tbBuild : replyOf .tbBuild counted = some (0#8, 258#64) ∧ (nextOf .tbBuild counted).tree.pq = aaabTree.pq ∧
    (nextOf .tbBuild counted).tree.node[257] = aaabTree.node[257] ∧
    (nextOf .tbBuild counted).tree.node[258] = aaabTree.node[258] ∧ (nextOf .tbBuild counted).tree.next = 259#10 := by
  decide +kernel
/-- T-TB-6: the key of a merged node is the smaller of the two, not the first node's. -/
theorem test_tbBuild_key : (nextOf .tbBuild
      { State.reset with freq := ((freqReset.set 10 2#32).set 20 1#32).set 30 1#32 }).tree.node[258] =
    { kind := .internal, sym := 0, left := 256#10, right := 10#10, freq := 3#41, key := 10 } := by decide +kernel
/-- R137's table of read-backs. -/
theorem test_tbRdn : replyOf (.tbRdn 258#16) built = some (0#8, 0x0000011850100186#64) ∧
    replyOf (.tbRdn 257#16) built = some (0#8, 0x000000400620018A#64) ∧
    replyOf (.tbRdn 0#16) built = some (0#8, 0x000000FFFFF00000#64) := by decide +kernel
/-- R138's example. -/
theorem test_tbRdf : replyOf (.tbRdf 258#16) built = some (0#8, 5#64) ∧ replyOf (.tbRdf 0#16) built = some (0#8, 0#64) := by
  decide +kernel
theorem test_tbFree : (nextOf .tbFree built).tree.node[258] = Node.freeEntry ∧ (nextOf .tbFree built).tree.pq = [] ∧
    (nextOf .tbFree built).tree.root = 0x3FF#10 := by decide +kernel

/-! ## Codeword register and code table -/

theorem test_cwClr : (nextOf .cwClr coded).cwr = [] := by decide +kernel
/-- T-CW-1, T-CW-5. -/
theorem test_cwApp : (nextOf (.cwApp 2#16 1#32) (staged [true, false, true])).cwr = [true, false, true, false, true] ∧
    (nextOf (.cwApp 3#16 1#32) State.reset).cwr = [false, false, true] := by decide +kernel
/-- T-CW-3. -/
theorem test_cwApp_overflow : replyOf (.cwApp 1#16 0#32) (staged (List.replicate 256 true)) = some (6#8, 0#64) ∧
    replyOf (.cwApp 1#16 0#32) (staged (List.replicate 255 true)) = some (0#8, 256#64) := by decide +kernel
/-- T-CW-1. -/
theorem test_cwRd : replyOf (.cwRd 0#16) (staged [true, false, true, false, true]) = some (0#8, 0xA8000000#64) ∧
    replyOf (.cwRd 1#16) (staged [true, false, true, false, true]) = some (0#8, 0#64) := by decide +kernel
theorem test_ctClr : (nextOf .ctClr coded).table.fwd[97] = none ∧ (nextOf .ctClr coded).table.inv = [] := by decide +kernel
/-- T-CT-1. -/
theorem test_ctGen : (nextOf .ctGen built).table.inv = aaabTable.inv ∧ (nextOf .ctGen built).table.fwd[98] =
    some [false, false] ∧ replyOf .ctGen built = some (0#8, 3#64) := by decide +kernel
/-- T-CT-2: the lone leaf. -/
theorem test_ctGen_lone : (nextOf .ctGen { State.reset with tree := initialTree freqReset }).table.fwd[256] =
    some [false] := by decide +kernel
/-- T-CT-20: the four kinds of answer. -/
theorem test_ctIns : replyOf (.ctIns 99#16) { coded with cwr := [true, false] } = some (8#8, 0#64) ∧
    replyOf (.ctIns 98#16) coded = some (9#8, 0#64) ∧ replyOf (.ctIns 98#16) State.reset = some (7#8, 0#64) ∧
    replyOf (.ctIns 98#16) (staged [true, false]) = some (0#8, 1#64) := by decide +kernel
/-- T-CT-24: the order of two rows does not matter. -/
theorem test_ctIns_order :
    ((CodeTable.reset.assign { code := [false], sym := 98 }).assign { code := [true], sym := 97 }).inv =
    ((CodeTable.reset.assign { code := [true], sym := 97 }).assign { code := [false], sym := 98 }).inv := by decide +kernel
/-- T-CT-22. -/
theorem test_ctLkp : (nextOf (.ctLkp 98#16) coded).cwr = [false, false] ∧
    replyOf (.ctLkp 99#16) coded = some (10#8, 0#64) := by decide +kernel
/-- T-CT-23. -/
theorem test_ctFind : replyOf .ctFind coded = some (0#8, 0x402#64) ∧
    replyOf .ctFind { coded with cwr := [false] } = some (0#8, 1#64) ∧
    replyOf .ctFind { coded with cwr := [true, true] } = some (0#8, 0#64) ∧
    replyOf .ctFind { coded with cwr := [] } = some (7#8, 0#64) := by decide +kernel

/-! ## Bit packer -/

theorem test_bpRst : (nextOf .bpRst { State.reset with writer := { Writer.reset with wclosed := true, nb := 3#3 } }).writer =
    Writer.reset := by decide +kernel
/-- T-BP-9. -/
theorem test_bpPut : (nextOf .bpPut (staged [true, true, true, false, false, false, true])).writer =
    { acc := 0xE2#8, nb := 7#3, wclosed := false, wbitcnt := 7#64, outcnt := 0#64 } ∧
    (nextOf .bpPut { staged [false] with writer := { Writer.reset with acc := 0xE2#8, nb := 7#3 } }).out = [0xE2#8] := by
  decide +kernel
/-- T-BP-13. -/
theorem test_bpEnc : replyOf (.bpEnc 97#16) State.reset = some (10#8, 0#64) ∧
    (nextOf (.bpEnc 98#16) { coded with writer := { Writer.reset with acc := 0xE0#8, nb := 3#3 } }).writer.nb = 5#3 := by
  decide +kernel
/-- T-BP-1. -/
theorem test_bpFlush : (nextOf .bpFlush { State.reset with writer := { Writer.reset with acc := 0xE2#8, nb := 7#3 } }).out =
    [0xE2#8] := by decide +kernel
/-- T-BP-10. -/
theorem test_bpFlush_empty : (nextOf .bpFlush State.reset).out = [] ∧ (nextOf .bpFlush State.reset).writer.wclosed = true ∧
    replyOf .bpFlush (nextOf .bpFlush State.reset) = some (11#8, 0#64) := by decide +kernel

/-! ## Bit reader -/

theorem test_inRst : (nextOf .inRst (reading 0xE2#8)).reader = Reader.reset := by decide +kernel
/-- T-IN-1, T-IN-4. -/
theorem test_inByte : replyOf (.inByte 0xA5#16) State.reset = some (0#8, 1#64) ∧
    replyOf (.inByte 256#16) State.reset = some (2#8, 0#64) := by decide +kernel
/-- T-IN-2, and R196 with a queue of capacity 1. -/
theorem test_inByte_refused : replyOf (.inByte 1#16) { State.reset with reader := { Reader.reset with eoi := true } } =
      some (12#8, 0#64) ∧
    replyOf (.inByte 1#16) { reading 0#8 with cfg := { cntW := 32, inqCap := some 1 } } = some (13#8, 0#64) := by
  decide +kernel
theorem test_inEnd : (nextOf .inEnd State.reset).reader.eoi = true := by decide +kernel
/-- T-IN-1: the first bit of 0xA5, and what the reader then holds. -/
theorem test_inBit : replyOf .inBit (reading 0xA5#8) = some (0#8, 1#64) ∧
    (nextOf .inBit (reading 0xA5#8)).reader = { inq := [], eoi := false, racc := 0x4A#8, rn := 7#3, rbitcnt := 1#64 } := by
  decide +kernel
/-- T-IN-2. -/
theorem test_inBit_none : replyOf .inBit State.reset = some (32#8, 0#64) ∧
    replyOf .inBit { State.reset with reader := { Reader.reset with eoi := true } } = some (33#8, 0#64) := by decide +kernel

/-! ## Decoder -/

theorem test_decRst : (nextOf .decRst
    { State.reset with decoder := ⟨.error, [true], 2#64, true⟩ }).decoder = Decoder.reset := by decide +kernel
/-- T-DEC-1, its first transition. -/
theorem test_decBit : replyOf .decBit (reading 0xE2#8) = some (0#8, 0x185#64) ∧
    (nextOf .decBit (reading 0xE2#8)).decout = [0x61#8] := by decide +kernel
/-- T-DEC-7: a mismatch consumes the bit and moves to ERROR. -/
theorem test_decBit_mismatch : replyOf .decBit { reading 0x80#8 with
      table := CodeTable.reset.assign { code := [false], sym := 256 } } = some (16#8, 1#64) ∧
    (nextOf .decBit { reading 0x80#8 with table := CodeTable.reset.assign { code := [false], sym := 256 } }).decoder.cur =
      [true] := by decide +kernel
/-- T-DEC-10's fourth response, from the bits `0 0 ...`. -/
theorem test_decSym : replyOf .decSym (reading 0x00#8) = some (0#8, 0x189#64) := by decide +kernel
/-- T-DEC-2. -/
theorem test_decRun : replyOf .decRun (reading 0xE2#8) = some (0#8, 4#64) ∧
    (nextOf .decRun (reading 0xE2#8)).decout = [0x61#8, 0x61#8, 0x61#8, 0x62#8] := by decide +kernel
/-- T-DEC-3. -/
theorem test_decRun_truncated : replyOf .decRun { coded with reader := { Reader.reset with inq := [0xE0#8], eoi := true } } =
    some (33#8, 5#64) := by decide +kernel

/-! ## Assembler (R100, R101) -/

theorem test_assemble : assembleLine "FQ.SET 'a', 3 ; count".toList = some [.fqSet 97#16 3#32] ∧
    assembleLine "BP.ENC EOF".toList = some [.bpEnc 256#16] ∧ assembleLine "CW.APP 3, 0b101".toList = some [.cwApp 3#16 5#32] ∧
    assembleLine "CT.ROW 'a', \"01\"".toList = some [.cwClr, .cwApp 2#16 1#32, .ctIns 97#16] := by decide +kernel
/-- R101: `IN.BYTES` is one `IN.BYTE` for each operand, also above 255; log 18: no number that does not fit `A`. -/
theorem test_inBytes : assembleLine "IN.BYTES 0xE2, 256".toList = some [.inByte 0xE2#16, .inByte 256#16] ∧
    assembleLine "IN.BYTES 65536".toList = none := by decide +kernel
/-- T-CW-4: 33 ones are cut 32 and 1. -/
theorem test_cwSet : expandPseudo (.cwSet (List.replicate 33 true)) =
    [.cwClr, .cwApp 32#16 0xFFFFFFFF#32, .cwApp 1#16 1#32] := by decide +kernel

/-! ## Witnesses of the statements' hypotheses -/

theorem aaabTable_inv : TableInv aaabTable := by
  have h1 : TableInv (CodeTable.reset.assign { code := [true], sym := 97 }) :=
    tableInv_reset.assign_inv _ (by decide +kernel) (by decide) (by intro x hx; simp [CodeTable.reset] at hx)
  have h2 := h1.assign_inv { code := [false, false], sym := 98 } (by decide +kernel) (by decide) (by decide +kernel)
  exact h2.assign_inv { code := [false, true], sym := 256 } (by decide +kernel) (by decide) (by decide +kernel)

theorem demo_treeInv : TreeInv demo.tree := initialTree_inv aaabFreq (by decide +kernel)

theorem demo_inv : demo.Inv where
  freq := ⟨by decide, fun s => by have := (demo.freq[s]).isLt; simp only [Config.cntMax]; exact Nat.le_pred_of_lt this,
    by decide +kernel⟩
  tree := demo_treeInv
  table := aaabTable_inv
  cwr := by decide
  writer := by intro i _; simp [demo, counted, State.reset, Writer.reset]
  reader := ⟨by intro i _; simp [demo, Reader.reset], by intro cap h; cases h⟩
  decoder := ⟨fun _ => rfl, fun h => (by cases h), by decide⟩
  err := ⟨by decide, by decide⟩
  logs := ⟨rfl, rfl⟩

/-- Witness: DecodedWordIsItsCommandsWord, StepRunsTheDecodedCommand (a command word waits) and its idle clause. -/
theorem witness_decoded_word : decode 0x1200006100000000#64 = .ok (.fqInc 97#16) ∧
    demo.pending = .command 0x1200006100000000#64 :: [] ∧ State.reset.pending = [] := ⟨rfl, rfl, rfl⟩

/-- Witness: OpcodeRowsDoNotOverlap (a row and a word that matches it). -/
theorem witness_row : ⟨"NOP", 0x0000000000000000#64, 0xFFFFFFFFFFFFFFFF#64⟩ ∈ opcodeRows ∧
    (0#64 &&& 0xFFFFFFFFFFFFFFFF#64 : Word) = 0x0000000000000000#64 := by decide

/-- Witness: IllegalWordChangesOnlyTheErrorRegisters, a word for each clause. -/
theorem witness_illegal : (State.reset.withNextWord 0x2200000000000001#64).pending = .command 0x2200000000000001#64 :: [] ∧
    (∀ r ∈ opcodeRows, (0x2200000000000001#64 : Word) &&& r.mask ≠ r.pattern) ∧ rsvField 0x2201000000000000#64 ≠ 0#8 := by
  decide
theorem witness_illegal_low : (opField 0x0400000000000000#64).toNat = 0x04 ∧ (opField 0x0F00000000000000#64).toNat = 0x0F ∧
    (opField 0x1400000000000000#64).toNat = 0x14 ∧ (opField 0x1F00000000000000#64).toNat = 0x1F ∧
    (opField 0x2600000000000000#64).toNat = 0x26 ∧ (opField 0x2F00000000000000#64).toNat = 0x2F ∧
    (opField 0x3300000000000000#64).toNat = 0x33 ∧ (opField 0x3700000000000000#64).toNat = 0x37 := by decide
theorem witness_illegal_high : (opField 0x3D00000000000000#64).toNat = 0x3D ∧ (opField 0x3F00000000000000#64).toNat = 0x3F ∧
    (opField 0x4400000000000000#64).toNat = 0x44 ∧ (opField 0x4F00000000000000#64).toNat = 0x4F ∧
    (opField 0x5400000000000000#64).toNat = 0x54 ∧ (opField 0x5F00000000000000#64).toNat = 0x5F ∧
    (opField 0x6400000000000000#64).toNat = 0x64 ∧ (opField 0xFF00000000000000#64).toNat = 0xFF := by decide

/-- Witness: ResetsLeaveTheTabulatedValues (a hardware reset waits). -/
theorem witness_reset_waits : ({ demo with pending := [.reset] } : State).pending = .reset :: [] := rfl

/-- Witness: CsrReadsAreLaidOutAsTabulated (the lengths at their bounds; a number out of range). -/
theorem witness_csr : ((List.range 257).map fun n => (⟨n % 513, Nat.mod_lt _ (by decide)⟩ : ArenaIndex)).length ≤ 257 ∧
    (List.replicate 256 true).length ≤ 256 ∧ building.tree.pq.length ≤ 257 ∧ building.cwr.length ≤ 256 ∧
    building.decoder.cur.length ≤ 256 ∧ 15 < (16#16).toNat := by decide +kernel

/-- Witness: FrequencyCommandsFollowTheirRules, each clause at a boundary. -/
theorem witness_frequency_set : 256 < (257#16).toNat ∧ 2 ^ ({ cntW := 8, inqCap := none } : Config).cntW - 1 < (256#32).toNat ∧
    ((256#16).toNat = 256 ∧ (0#32).toNat = 0) ∧ (256#16).toNat = (256 : Symbol).val ∧
    (0xFFFFFFFF#32).toNat ≤ 2 ^ State.reset.cfg.cntW - 1 ∧ ((256 : Symbol).val = 256 → 1 ≤ (1#32).toNat) := by decide +kernel
theorem witness_frequency_inc : 255 < (256#16).toNat ∧ (255 : Symbol).val ≤ 255 ∧ (255#16).toNat = (255 : Symbol).val ∧
    (freqReset.set 255 0xFFFFFFFF#32)[255].toNat = 2 ^ State.reset.cfg.cntW - 1 ∧
    (freqReset.set 255 0xFFFFFFFE#32)[255].toNat ≠ 2 ^ State.reset.cfg.cntW - 1 := by decide +kernel

/-- Witness: the list `L` of TreeInitMakesOneLeafPerCountedSymbol, TreeBuildFinishesTheTree, BuildIsInitFollowedBySteps and
GeneratedCodeIsComplete: none, one and several symbols counted. -/
theorem witness_counted : ([97, 98, 256] : List Symbol).Nodup ∧
    (∀ x : Symbol, x ∈ ([97, 98, 256] : List Symbol) ↔ 0 < counted.freq[x].toNat) := by decide +kernel
theorem witness_counted_one : ([256] : List Symbol).Nodup ∧
    (∀ x : Symbol, x ∈ ([256] : List Symbol) ↔ 0 < State.reset.freq[x].toNat) := by decide +kernel
theorem witness_counted_none : ([] : List Symbol).Nodup ∧
    (∀ x : Symbol, x ∈ ([] : List Symbol) ↔ 0 < ({ State.reset with freq := Vector.replicate 257 0#32 } : State).freq[x].toNat) := by
  decide +kernel

/-- Witness: TreeStepMergesTheTwoLeast, MergedFrequencyIsTheExactSum, QueueOrderIsStrictAndTotal, StepKeepsTheTreeInvariants,
EveryCommandCompletes. -/
theorem witness_building : TreeInv demo.tree ∧ demo.tree.tstate = .building ∧ State.reset.tree.tstate ≠ .building ∧
    (97 : ArenaIndex) ∈ demo.tree.pq ∧ (256 : ArenaIndex) ∈ demo.tree.pq ∧ (97 : ArenaIndex) ≠ 256 :=
  ⟨demo_treeInv, by decide +kernel⟩

/-- Witness: TreeIsAFunctionOfTheCounts (two states with the same counts; `TB.BUILD` answers in both, test_tbBuild). -/
theorem witness_same_counts : counted.freq = building.freq ∧ (∃ x : Symbol, 0 < counted.freq[x].toNat) ∧
    (∃ t, exec .tbBuild counted = .next t) ∧ (∃ t, exec .tbBuild building = .next t) := by
  obtain ⟨t, ht, _⟩ := mergeAll_initialTree aaabFreq (by decide +kernel)
  have hne : presentSymbols counted.freq ≠ [] := by decide +kernel
  refine ⟨rfl, ⟨256, by decide +kernel⟩, ⟨{ counted with tree := t }.respond .ok (t.root.setWidth 64), ?_⟩,
    ⟨{ building with tree := t }.respond .ok (t.root.setWidth 64), ?_⟩⟩
  · simp only [exec, execTbBuild]
    rw [if_neg hne, show counted.freq = aaabFreq from rfl, ht]
  · simp only [exec, execTbBuild]
    rw [show building.freq = counted.freq from rfl, if_neg hne, show counted.freq = aaabFreq from rfl, ht]

/-- Witness: CodeGenerationStoresRootPaths, with an internal root, with a lone leaf, and outside BUILT. -/
theorem witness_built : ∃ t : TreeUnit, TreeInv t ∧ t.tstate = .built ∧ kindAt t.node t.root.toNat = .internal := by
  obtain ⟨t, ht, h1, h2, _⟩ := mergeAll_initialTree aaabFreq (by decide +kernel)
  refine ⟨t, h1, h2, ?_⟩
  have h : (match mergeAll (presentSymbols aaabFreq).length (initialTree aaabFreq) with
      | .ok t => decide (kindAt t.node t.root.toNat = .internal)
      | .error _ => false) = true := by decide +kernel
  rw [ht] at h
  exact of_decide_eq_true h
theorem witness_built_lone : TreeInv (initialTree freqReset) ∧ (initialTree freqReset).tstate = .built ∧
    kindAt (initialTree freqReset).node (initialTree freqReset).root.toNat = .leaf ∧ State.reset.tree.tstate ≠ .built :=
  ⟨initialTree_inv freqReset (by decide +kernel), by decide +kernel⟩

/-- Witness: TreeReadsAndFreeFollowTheirRules. -/
theorem witness_node_index : 512 < (513#16).toNat ∧ (512#16).toNat = (512 : ArenaIndex).val := by decide

/-- Witness: CodewordRegisterCommandsFollowTheirRules, each clause at a boundary. -/
theorem witness_codeword_register : (0#16).toNat = 0 ∧ 32 < (33#16).toNat ∧ 2 ^ (32#16).toNat > (0xFFFFFFFF#32).toNat ∧
    2 ^ (3#16).toNat ≤ (8#32).toNat ∧ 1 ≤ (32#16).toNat ∧ (32#16).toNat ≤ 32 ∧
    256 < (staged (List.replicate 225 true)).cwr.length + (32#16).toNat ∧
    (staged (List.replicate 224 true)).cwr.length + (32#16).toNat ≤ 256 ∧ 7 < (8#16).toNat ∧ (7#16).toNat ≤ 7 := by
  decide +kernel

/-- Witness: CodeTableInsertFollowsItsRule, each clause. -/
theorem witness_insert : 256 < (257#16).toNat ∧ (256#16).toNat = (256 : Symbol).val ∧ State.reset.cwr = [] ∧
    coded.cwr ≠ [] ∧ coded.table.fwd[(256 : Symbol)] ≠ none ∧ coded.table.fwd[(99 : Symbol)] = none ∧
    (∃ e ∈ coded.table.inv, e.code <+: coded.cwr ∨ coded.cwr <+: e.code) ∧
    (staged [true]).table.fwd[(99 : Symbol)] = none ∧
    ∀ e ∈ (staged [true]).table.inv, ¬ e.code <+: [true] ∧ ¬ [true] <+: e.code := by decide +kernel

/-- Witness: LoadingACodebookStoresExactlyItsRows and the order clause of CodeTableInsertFollowsItsRule. -/
theorem witness_rows : GoodRows [(97, [true]), (98, [false, false]), (256, [false, true])] ∧
    ([(256, [false, true]), (98, [false, false]), (97, [true])] : List (Symbol × Bits)).Perm
      [(97, [true]), (98, [false, false]), (256, [false, true])] :=
  ⟨⟨by decide, by decide, by decide⟩, by decide⟩

/-- Witness: OneRepeatedByteGetsATwoRowCode, both clauses, and the counts of EncodedSourceDecodesToItself. -/
theorem witness_repeated : State.reset.cfg.cntW ≤ 32 ∧ 1 ≤ 1 ∧ 2 ≤ 2 ^ State.reset.cfg.cntW - 1 ∧
    ([0x61#8, 0x61#8, 0x61#8, 0x62#8].count (0x61#8 : Byte) = 3) ∧ 3 ≤ 2 ^ State.reset.cfg.cntW - 1 := by decide +kernel
theorem witness_source (b : Byte) : [0x61#8, 0x61#8, 0x61#8, 0x62#8].count b ≤ 2 ^ State.reset.cfg.cntW - 1 :=
  Nat.le_trans List.count_le_length (by decide +kernel)

/-- Witness: LookupAndFindFollowTheirRules, each clause. -/
theorem witness_lookup : TableInv coded.table ∧ coded.table.fwd[(99 : Symbol)] = none ∧
    coded.table.fwd[(98 : Symbol)] = some [false, false] ∧ ({ code := coded.cwr, sym := 256 } : CodePair) ∈ coded.table.inv ∧
    (∀ e ∈ coded.table.inv, e.code ≠ [false]) ∧ (∃ e ∈ coded.table.inv, [false] <+: e.code) ∧
    (∀ e ∈ coded.table.inv, ¬ [true, true] <+: e.code) := ⟨aaabTable_inv, by decide +kernel⟩

/-- Witness: PutbitPlacesOneBit and BitPackerCommandsFollowTheirRules, each clause at a boundary. -/
theorem witness_packer : (7#3).toNat = 7 ∧ (6#3).toNat ≠ 7 ∧ (0#3).toNat = 0 ∧ 0 < (1#3).toNat ∧ WriterInv Writer.reset ∧
    Writer.reset.wclosed = false ∧ Writer.reset.close.wclosed = true :=
  ⟨rfl, by decide, rfl, by decide, fun i _ => by simp [Writer.reset], rfl, rfl⟩

/-- Witness: WriterEmitsThePackingOfItsBits (a writer in mid-byte and one at a byte boundary). -/
theorem witness_writer : WriterHolds (putBits Writer.reset [true, false, true]).1 [true, false, true] ∧
    WriterHolds (putBits Writer.reset (List.replicate 8 true)).1 (List.replicate 8 true) ∧
    (putBits Writer.reset [true, false, true]).1.wclosed = false ∧ coded.table.fwd[(97 : Symbol)] = some [true] := by
  refine ⟨?_, ?_, by decide +kernel⟩
  · exact (putBits_holds Writer.reset [] [true, false, true] writerHolds_reset).1
  · exact (putBits_holds Writer.reset [] (List.replicate 8 true) writerHolds_reset).1

/-- Witness: InputCommandsFollowTheirRules, each clause. -/
theorem witness_input : 255 < (256#16).toNat ∧ (255#16).toNat = (255#8 : Byte).toNat ∧ Reader.reset.endInput.eoi = true ∧
    Reader.reset.eoi = false ∧ (some 1 : Option Nat) = some (reading 0#8).reader.inq.length ∧
    (reading 0#8).cfg.inqCap ≠ some (reading 0#8).reader.inq.length ∧ Reader.reset.inq = [] ∧
    (reading 0xE2#8).reader.inq = 0xE2#8 :: [] ∧ (7#3).toNat ≠ 0 ∧ getBit Reader.reset = .need ∧
    getBit Reader.reset.endInput = .exhausted := by decide +kernel

/-- Witness: ReaderYieldsTheBitsOfItsBytes: before the first bit of a byte, inside it, and after its last. -/
theorem witness_reader : ReaderAt { Reader.reset with inq := [0xA5#8] } [0xA5#8] 0 ∧
    ReaderAt { inq := [], eoi := false, racc := 0x4A#8, rn := 7#3, rbitcnt := 1#64 } [0xA5#8] 1 ∧
    ReaderAt { inq := [], eoi := true, racc := 0x00#8, rn := 0#3, rbitcnt := 8#64 } [0xA5#8] 8 :=
  ⟨⟨by decide, by decide, by decide, by decide, by decide⟩, ⟨by decide, by decide, by decide, by decide, by decide⟩,
    ⟨by decide, by decide, by decide, by decide, by decide⟩⟩

/-- Witness: DecoderTransitionsFollowTheirRules and DecoderRefusesOrWaitsWithoutReading, each clause. -/
theorem witness_decoder : TableInv (reading 0xE2#8).table ∧ (reading 0xE2#8).table.nsym ≠ 0#9 ∧
    State.reset.table.nsym = 0#9 ∧ (reading 0xE2#8).decoder.dstate = .root ∧
    getBit (reading 0xE2#8).reader = .bit true { inq := [], eoi := false, racc := 0xC4#8, rn := 7#3, rbitcnt := 1#64 } ∧
    ({ code := [] ++ [true], sym := 97 } : CodePair) ∈ aaabTable.inv ∧
    ({ code := [false] ++ [true], sym := sentinel } : CodePair) ∈ aaabTable.inv ∧
    ((∀ e ∈ aaabTable.inv, e.code ≠ [] ++ [false]) ∧ ∃ e ∈ aaabTable.inv, [] ++ [false] <+: e.code) ∧
    (∀ e ∈ (CodeTable.reset.assign { code := [false], sym := 256 }).inv, ¬ [] ++ [true] <+: e.code) ∧
    coded.reader.inq = [] ∧ coded.reader.rn.toNat = 0 := ⟨aaabTable_inv, by decide +kernel⟩

/-- Witness: DecodeCommandsReadWholeCodewords: "a" then six bits; and "aaab" and the sentinel then one bit. -/
theorem witness_codewords : TableInv (reading 0xE2#8).table ∧ (reading 0xE2#8).decoder.dstate = .root ∧
    (reading 0xE2#8).decoder.cur = [] ∧ (reading 0xE2#8).table.fwd[(97 : Symbol)] = some [true] ∧
    (reading 0xE2#8).reader.unread = [true] ++ [true, true, false, false, false, true, false] ∧
    (reading 0x40#8).reader.unread = [false, true] ++ [false, false, false, false, false, false] ∧
    codeStream (reading 0xE2#8).table (([0x61#8, 0x61#8, 0x61#8, 0x62#8] : List Byte).map literal ++ [sentinel]) =
      some [true, true, true, false, false, false, true] ∧
    (reading 0xE2#8).reader.unread = [true, true, true, false, false, false, true] ++ [false] :=
  ⟨aaabTable_inv, by decide +kernel⟩

/-- Witness: WrittenSymbolsDecodeToThemselves, EncodedSourceDecodesToItself (a bounded queue that holds the bytes). -/
theorem witness_session : TableInv coded.table ∧ (∀ b ∈ ([0x61#8, 0x62#8] : List Byte), coded.table.fwd[literal b] ≠ none) ∧
    coded.table.fwd[sentinel] ≠ none ∧ fitsQueue { cntW := 32, inqCap := some 1 } 1 :=
  ⟨aaabTable_inv, by decide +kernel, by decide +kernel, fun cap h => by cases h; exact Nat.le_refl 1⟩

/-- Witness: the statements about a step from a state with a command waiting (CommandEmitsThenRespondsOnce and the
invariants); `demo` meets every invariant. -/
theorem witness_step : demo.Inv ∧ demo.pending = .command 0x1200006100000000#64 :: [] ∧
    ∃ t, step demo = .next t ∧ t.freq[97] = 4#32 :=
  ⟨demo_inv, rfl, _, rfl, by decide +kernel⟩

/-- Witness: the statements about a command's next state and response, one for each kind of code. -/
theorem witness_codes : (∃ t, exec .nop demo = .next t ∧ t.lastReply = some (0#8, 0#64)) ∧
    (∃ t, exec (.fqInc 256#16) demo = .next t ∧ t.lastReply = some (2#8, 0#64)) ∧
    (∃ t, exec .inBit State.reset = .next t ∧ t.lastReply = some (32#8, 0#64)) ∧
    (∃ t, exec .decBit { coded with reader := Reader.reset.endInput } = .next t ∧ t.lastReply = some (33#8, 0#64)) ∧
    ∃ t, exec .decBit { reading 0x80#8 with table := CodeTable.reset.assign { code := [false], sym := 256 } } = .next t ∧
      t.lastReply = some (16#8, 1#64) :=
  ⟨⟨_, rfl, by decide +kernel⟩, ⟨_, rfl, by decide +kernel⟩, ⟨_, rfl, by decide +kernel⟩, ⟨_, rfl, by decide +kernel⟩,
    _, rfl, by decide +kernel⟩

/-- Witness: FlagsChangeOnlyByTheirCommands, each flag set and cleared. -/
theorem witness_flags : (nextOf .bpFlush State.reset).writer.wclosed = true ∧
    (nextOf .bpRst (nextOf .bpFlush State.reset)).writer.wclosed = false ∧
    (nextOf .inRst (nextOf .inEnd State.reset)).reader.eoi = false ∧
    (nextOf .decBit { coded with reader := Reader.reset.endInput }).decoder.trunc = true ∧
    (nextOf .decRst (nextOf .decBit { coded with reader := Reader.reset.endInput })).decoder.trunc = false ∧
    (nextOf .errClr (nextOf .tbStep State.reset)).err.errseen = false ∧
    (nextOf .tbStep State.reset).err.errseen = true := by decide +kernel

/-- Witness: StepKeepsTheDecoderInvariant, its second clause: a descending decoder on an internal node. -/
theorem witness_descending : (nextOf .decBit (reading 0x40#8)).decoder.dstate = .descending ∧
    trieNode (nextOf .decBit (reading 0x40#8)).table.inv (nextOf .decBit (reading 0x40#8)).decoder.cur = .internal := by
  decide +kernel

/-- R32: the root is present in the empty table and in the table of "aaab", where "0" is internal, "00" the leaf of 'b' and
"11" absent. -/
theorem test_trie_root : trieNode State.reset.table.inv [] = .internal ∧ trieNode State.reset.table.inv [true] = .absent ∧
    trieNode aaabTable.inv [] = .internal ∧ trieNode aaabTable.inv [false] = .internal ∧
    trieNode aaabTable.inv [false, false] = .leaf 98 ∧ trieNode aaabTable.inv [true, true] = .absent := by decide +kernel

/-- Witness: TrieViewFollowsItsRule, a table with codewords and the table at reset. -/
theorem witness_trie : TableInv aaabTable ∧ TableInv State.reset.table ∧
    ({ code := [false, false], sym := 98 } : CodePair) ∈ aaabTable.inv := ⟨aaabTable_inv, tableInv_reset, by decide +kernel⟩

/-- Witness: the lengths where the clauses of CsrReadsAreLaidOutAsTabulated and InputCommandsFollowTheirRules meet. -/
theorem witness_queue_lengths : (∃ q : List Byte, q.length + 1 < 2 ^ 64) ∧ (∃ q : List Byte, q.length + 1 = 2 ^ 64 - 1) ∧
    ∃ q : List Byte, 2 ^ 64 ≤ q.length :=
  ⟨⟨[], by decide⟩, ⟨List.replicate (2 ^ 64 - 2) 0#8, by rw [List.length_replicate]; norm_num⟩,
    List.replicate (2 ^ 64) 0#8, by rw [List.length_replicate]⟩

end Sys2Proof.Tests
end

section
/-! SUPPORT. What one command, one transition of the decoder and one step can do to the state, each said once
(spec/30_encoding.md rules R90, R91, R94; 60_exceptions.md rules R240, R243). -/

namespace Sys2Proof.Machine

/-! ## What a command can do -/

/-- The next states of a command: a fault, an answer alone, or the command's own change, with the conditions it was
made under. The decode commands stand as they are; `exec_decode_keeps` takes them apart. -/
inductive Effect (s : State) : Instr → State → Prop
  | fault (i : Instr) (c : RspCode) (hc : 1 ≤ c.num.toNat ∧ c.num.toNat ≤ 16) : Effect s i (s.raise c 0#64)
  | answer (i : Instr) (c : RspCode) (d : Word) : Effect s i (s.respond c d)
  | srst : Effect s .srst (s.softReset.respond .ok 0#64)
  | errClr : Effect s .errClr ({ s with err := s.err.cleared }.respond .ok 0#64)
  | fqClr : Effect s .fqClr ({ s with freq := freqReset }.respond .ok 0#64)
  | fqSet (a : BitVec 16) (imm : BitVec 32) (x : Symbol) (c : Count) (ho : countOperands s.cfg a imm = some (x, c)) :
      Effect s (.fqSet a imm) ({ s with freq := s.freq.set x c }.respond .ok 0#64)
  | fqInc (a : BitVec 16) (x : Symbol) (ho : literalOperand a = some x) (hc : s.freq[x].toNat ≠ s.cfg.cntMax) :
      Effect s (.fqInc a) ({ s with freq := s.freq.set x (s.freq[x] + 1#32) }.respond .ok 0#64)
  | tbInit (d : Word) (hl : presentSymbols s.freq ≠ []) :
      Effect s .tbInit ({ s with tree := initialTree s.freq }.respond .ok d)
  | tbStep (t : TreeUnit) (n : NodeIndex) (hs : s.tree.tstate = .building) (hm : mergeOnce s.tree = .ok (t, n)) :
      Effect s .tbStep ({ s with tree := t }.respond .ok (n.setWidth 64))
  | tbBuild (t : TreeUnit) (hl : presentSymbols s.freq ≠ [])
      (hm : mergeAll (presentSymbols s.freq).length (initialTree s.freq) = .ok t) :
      Effect s .tbBuild ({ s with tree := t }.respond .ok (t.root.setWidth 64))
  | tbFree : Effect s .tbFree ({ s with tree := TreeUnit.reset }.respond .ok 0#64)
  | cwClr : Effect s .cwClr ({ s with cwr := [] }.respond .ok 0#64)
  | cwApp (a : BitVec 16) (imm : BitVec 32) (c : Bits) (d : Word) (hl : s.cwr.length + c.length ≤ lMax) :
      Effect s (.cwApp a imm) ({ s with cwr := s.cwr ++ c }.respond .ok d)
  | ctLkp (a : BitVec 16) (x : Symbol) (c : Bits) (d : Word) (hf : s.table.fwd[x] = some c) :
      Effect s (.ctLkp a) ({ s with cwr := c }.respond .ok d)
  | ctClr : Effect s .ctClr ({ s with table := CodeTable.reset }.respond .ok 0#64)
  | ctGen (l : List CodePair) (d : Word) (hs : s.tree.tstate = .built) (hl : generatedPairs s.tree = some l) :
      Effect s .ctGen ({ s with table := l.foldl CodeTable.assign CodeTable.reset }.respond .ok d)
  | ctIns (a : BitVec 16) (x : Symbol) (d : Word) (hne : s.cwr ≠ []) (hf : s.table.fwd[x] = none)
      (hc : codeConflicts s.table.inv s.cwr = false) :
      Effect s (.ctIns a) ({ s with table := s.table.assign { code := s.cwr, sym := x } }.respond .ok d)
  | bpRst : Effect s .bpRst ({ s with writer := Writer.reset }.respond .ok 0#64)
  | bpPut : Effect s .bpPut (s.writeCode s.cwr)
  | bpEnc (a : BitVec 16) (c : Bits) : Effect s (.bpEnc a) (s.writeCode c)
  | bpFlushEmpty : Effect s .bpFlush ({ s with writer := s.writer.close }.respond .ok 0#64)
  | bpFlush (w : Writer) (n : Word) (hw : w = { s.writer with acc := 0#8, nb := 0#3, outcnt := n }) :
      Effect s .bpFlush (({ s with writer := w.close }.emitOut [s.writer.acc]).respond .ok 1#64)
  | inRst : Effect s .inRst ({ s with reader := Reader.reset }.respond .ok 0#64)
  | inByte (a : BitVec 16) (b : Byte) (d : Word) (hc : s.cfg.inqCap ≠ some s.reader.inq.length) :
      Effect s (.inByte a) ({ s with reader := { s.reader with inq := s.reader.inq ++ [b] } }.respond .ok d)
  | inEnd : Effect s .inEnd ({ s with reader := s.reader.endInput }.respond .ok 0#64)
  | inBit (b : Bool) (r : Reader) (d : Word) (hg : getBit s.reader = .bit b r) :
      Effect s .inBit ({ s with reader := r }.respond .ok d)
  | decRst : Effect s .decRst ({ s with decoder := Decoder.reset }.respond .ok 0#64)
  | decode (i : Instr) (t : State) (hi : i = .decBit ∨ i = .decSym ∨ i = .decRun) (h : exec i s = .next t) :
      Effect s i t

section
variable {s t : State} {a : BitVec 16} {imm : BitVec 32}

theorem execFqSet_effect (h : execFqSet a imm s = .next t) : Effect s (.fqSet a imm) t := by
  unfold execFqSet at h
  split at h <;> cases h
  · exact .fault _ _ (by decide)
  · exact .fqSet _ _ _ _ ‹_›

theorem execFqInc_effect (h : execFqInc a s = .next t) : Effect s (.fqInc a) t := by
  unfold execFqInc at h
  split at h
  · cases h; exact .fault _ _ (by decide)
  · split at h <;> cases h
    · exact .fault _ _ (by decide)
    · exact .fqInc _ _ ‹_› ‹_›

theorem execTbInit_effect (h : execTbInit s = .next t) : Effect s .tbInit t := by
  unfold execTbInit at h
  split at h <;> cases h
  · exact .fault _ _ (by decide)
  · exact .tbInit _ ‹_›

theorem execTbStep_effect (h : execTbStep s = .next t) : Effect s .tbStep t := by
  unfold execTbStep at h
  split at h
  · split at h <;> cases h
    exact .tbStep _ _ ‹_› ‹_›
  · cases h; exact .fault _ _ (by decide)

theorem execTbBuild_effect (h : execTbBuild s = .next t) : Effect s .tbBuild t := by
  unfold execTbBuild at h
  split at h
  · cases h; exact .fault _ _ (by decide)
  · split at h <;> cases h
    exact .tbBuild _ ‹_› ‹_›

theorem execCwApp_effect (h : execCwApp a imm s = .next t) : Effect s (.cwApp a imm) t := by
  unfold execCwApp at h
  split at h
  · cases h; exact .fault _ _ (by decide)
  · split at h <;> cases h
    · exact .fault _ _ (by decide)
    · exact .cwApp _ _ _ _ (by omega)

theorem execCtGen_effect (h : execCtGen s = .next t) : Effect s .ctGen t := by
  unfold execCtGen at h
  split at h
  · split at h <;> cases h
    exact .ctGen _ _ ‹_› ‹_›
  · cases h; exact .fault _ _ (by decide)

theorem execCtIns_effect (h : execCtIns a s = .next t) : Effect s (.ctIns a) t := by
  unfold execCtIns at h
  split at h
  · cases h; exact .fault _ _ (by decide)
  · split at h
    · cases h; exact .fault _ _ (by decide)
    · split at h
      · cases h; exact .fault _ _ (by decide)
      · split at h <;> cases h
        · exact .fault _ _ (by decide)
        · exact .ctIns _ _ _ ‹_› (Option.not_isSome_iff_eq_none.mp ‹_›) (Bool.eq_false_iff.mpr ‹_›)

theorem execCtLkp_effect (h : execCtLkp a s = .next t) : Effect s (.ctLkp a) t := by
  unfold execCtLkp at h
  split at h
  · cases h; exact .fault _ _ (by decide)
  · split at h <;> cases h
    · exact .fault _ _ (by decide)
    · exact .ctLkp _ _ _ _ ‹_›

theorem execBpPut_effect (h : execBpPut s = .next t) : Effect s .bpPut t := by
  unfold execBpPut at h
  split at h
  · cases h; exact .fault _ _ (by decide)
  · split at h <;> cases h
    · exact .fault _ _ (by decide)
    · exact .bpPut

theorem execBpEnc_effect (h : execBpEnc a s = .next t) : Effect s (.bpEnc a) t := by
  unfold execBpEnc at h
  split at h
  · cases h; exact .fault _ _ (by decide)
  · split at h
    · cases h; exact .fault _ _ (by decide)
    · split at h <;> cases h
      · exact .fault _ _ (by decide)
      · exact .bpEnc _ _

theorem execBpFlush_effect (h : execBpFlush s = .next t) : Effect s .bpFlush t := by
  unfold execBpFlush at h
  split at h
  · cases h; exact .fault _ _ (by decide)
  · split at h <;> cases h
    · exact .bpFlushEmpty
    · exact .bpFlush _ _ rfl

theorem execInByte_effect (h : execInByte a s = .next t) : Effect s (.inByte a) t := by
  unfold execInByte at h
  split at h
  · cases h; exact .fault _ _ (by decide)
  · split at h
    · cases h; exact .fault _ _ (by decide)
    · split at h <;> cases h
      · exact .fault _ _ (by decide)
      · exact .inByte _ _ _ ‹_›

theorem execInBit_effect (h : execInBit s = .next t) : Effect s .inBit t := by
  unfold execInBit at h
  split at h <;> cases h
  · exact .answer _ _ _
  · exact .answer _ _ _
  · exact .inBit _ _ _ ‹_›

end

/-- A command that answers a next state has made one of its effects. -/
theorem exec_effect {i : Instr} {s t : State} (h : exec i s = .next t) : Effect s i t := by
  cases i with
  | nop => cases h; exact .answer _ _ _
  -- the commands that only read
  | csrRd | fqRd | tbRdn | tbRdf | cwRd | ctFind =>
    dsimp only [exec, execCsrRd, execFqRd, execTbRdn, execTbRdf, execCwRd, execCtFind] at h
    split at h <;> cases h
    · exact .fault _ _ (by decide)
    · exact .answer _ _ _
  | srst => cases h; exact .srst
  | errClr => cases h; exact .errClr
  | fqClr => cases h; exact .fqClr
  | fqSet a imm => exact execFqSet_effect h
  | fqInc a => exact execFqInc_effect h
  | tbInit => exact execTbInit_effect h
  | tbStep => exact execTbStep_effect h
  | tbBuild => exact execTbBuild_effect h
  | tbFree => cases h; exact .tbFree
  | cwClr => cases h; exact .cwClr
  | cwApp a imm => exact execCwApp_effect h
  | ctClr => cases h; exact .ctClr
  | ctGen => exact execCtGen_effect h
  | ctIns a => exact execCtIns_effect h
  | ctLkp a => exact execCtLkp_effect h
  | bpRst => cases h; exact .bpRst
  | bpPut => exact execBpPut_effect h
  | bpEnc a => exact execBpEnc_effect h
  | bpFlush => exact execBpFlush_effect h
  | inRst => cases h; exact .inRst
  | inByte a => exact execInByte_effect h
  | inEnd => cases h; exact .inEnd
  | inBit => exact execInBit_effect h
  | decRst => cases h; exact .decRst
  | decBit => exact .decode _ _ (.inl rfl) h
  | decSym => exact .decode _ _ (.inr (.inl rfl)) h
  | decRun => exact .decode _ _ (.inr (.inr rfl)) h

/-! ## What a transition of the decoder can do -/

/-- The states after one transition of the decoder, its response not yet sent (R211). -/
inductive BitEffect (s : State) : State → Prop
  | refused (c : RspCode) (hc : c = .tableEmpty ∨ c = .decoderState) : BitEffect s (s.recordFault c)
  | waiting : BitEffect s s
  | truncated : BitEffect s { s with decoder := s.decoder.markTruncated }
  | literal (b : Bool) (r : Reader) (x : Byte) (n : Word) (hg : getBit s.reader = .bit b r) :
      BitEffect s ({ s with
        reader := r, decoder := { s.decoder with cur := [], dcount := n, dstate := .root } }.emitDec x)
  | finished (b : Bool) (r : Reader) (hg : getBit s.reader = .bit b r) :
      BitEffect s { s with reader := r, decoder := { s.decoder with cur := [], dstate := .done } }
  | inner (b : Bool) (r : Reader) (hs : ¬ (s.decoder.dstate = .done ∨ s.decoder.dstate = .error))
      (hg : getBit s.reader = .bit b r) (ht : trieNode s.table.inv (s.decoder.cur ++ [b]) = .internal) :
      BitEffect s { s with
        reader := r, decoder := { s.decoder with cur := s.decoder.cur ++ [b], dstate := .descending } }
  | lost (b : Bool) (r : Reader) (hs : ¬ (s.decoder.dstate = .done ∨ s.decoder.dstate = .error))
      (hg : getBit s.reader = .bit b r) :
      BitEffect s (State.recordFault
        { s with reader := r, decoder := { s.decoder with cur := s.decoder.cur ++ [b], dstate := .error } }
        .decodeMismatch)

theorem decodeBit_effect (s : State) : BitEffect s (decodeBit s).1 := by
  unfold decodeBit
  split
  · exact .refused _ (.inl rfl)
  split
  · exact .refused _ (.inr rfl)
  split
  · exact .waiting
  · exact .truncated
  · unfold decodeMove
    split
    · split
      · exact .literal _ _ _ _ ‹_›
      · exact .finished _ _ ‹_›
    · exact .inner _ _ ‹_› ‹_› ‹_›
    · exact .lost _ _ ‹_› ‹_›

/-- What every transition and every response keeps, a decode command keeps (R211, R213, R214). -/
theorem exec_decode_keeps {P : State → Prop} (hbit : ∀ s t, BitEffect s t → P s → P t)
    (hrespond : ∀ s c d, P s → P (State.respond s c d)) {i : Instr} (hi : i = .decBit ∨ i = .decSym ∨ i = .decRun)
    {s t : State} (h : exec i s = .next t) (hs : P s) : P t := by
  have hb : ∀ s, P s → P (decodeBit s).1 := fun s => hbit _ _ (decodeBit_effect s)
  have ht : ∀ a b c : State, (P a → P b) → (P b → P c) → P a → P c := fun _ _ _ hab hbc ha => hbc (hab ha)
  rcases hi with rfl | rfl | rfl
  · cases h; exact hrespond _ _ _ (hb s hs)
  · cases h; exact hrespond _ _ _ (decodeSymbol_induct (fun a b => P a → P b) ht hb _ s hs)
  · have hr := decodeRun_induct (fun a b => P a → P b) ht hb s.reader.available s hs
    simp only [exec, execDecRun] at h
    split at h <;> cases h <;> exact hrespond _ _ _ hr

/-! ## What a step can do -/

/-- A step carries `P` to `Q` if its four ways do: no input, a hardware reset, an illegal word, and a command executed
once its word is accepted. -/
theorem step_carries {P Q : State → Prop} (hidle : ∀ s, P s → Q s)
    (hreset : ∀ s rest, P s → Q (State.hardwareReset s rest))
    (haccept : ∀ s w rest, P s → P (State.accept s w rest)) (hillegal : ∀ s, P s → Q (State.answerIllegal s))
    (hexec : ∀ i s t, P s → Effect s i t → Q t) {s s' : State} (hs : P s) (h : step s = .next s') : Q s' := by
  unfold step at h
  split at h
  · cases h; exact hidle _ hs
  · cases h; exact hreset _ _ hs
  · split at h
    · exact hexec _ _ _ (haccept _ _ _ hs) (exec_effect h)
    · cases h; exact hillegal _ (haccept _ _ _ hs)

end Sys2Proof.Machine
end

section
/-! SUPPORT. The invariants of the tree and of the code table over one step (spec/10_state.md rules R30, R32, R33). -/

namespace Sys2Proof.Machine

/-! ## The tree -/

/-- A merge of `TB.STEP` keeps the tree invariant (R136). -/
theorem TreeInv.mergeOnce_keeps {t u : TreeUnit} {n : NodeIndex} (h : TreeInv t) (hs : t.tstate = .building)
    (hm : mergeOnce t = .ok (u, n)) : TreeInv u := by
  obtain ⟨a, b, k, ha, hb, hk, -, rfl⟩ := mergeOnce_ok t u n hm
  have hp := h.phase
  simp only [PhaseInv, hs] at hp
  obtain ⟨a', b', ha', hb', hperm⟩ := two_least t hp.1
  obtain rfl : a = a' := by simpa [ha] using ha'
  obtain rfl : b = b' := by simpa [hb] using hb'
  exact h.merged_inv hs a b k hk hperm

/-- The tree `TB.BUILD` leaves meets the tree invariant (R134, R136). -/
theorem treeInv_of_mergeAll {freq : Vector Count 257} {t : TreeUnit} (hl : presentSymbols freq ≠ [])
    (hm : mergeAll (presentSymbols freq).length (initialTree freq) = .ok t) : TreeInv t := by
  obtain ⟨u, hu, hinv, -⟩ := mergeAll_initialTree freq hl
  obtain rfl : t = u := by simpa [hm] using hu
  exact hinv

theorem Effect.keeps_treeInv {s t : State} {i : Instr} (e : Effect s i t) (h : TreeInv s.tree) : TreeInv t.tree := by
  cases e with
  | srst => exact treeInv_reset
  | tbInit _ hl => exact initialTree_inv _ hl
  | tbStep _ _ hs hm => exact h.mergeOnce_keeps hs hm
  | tbBuild _ hl hm => exact treeInv_of_mergeAll hl hm
  | tbFree => exact treeInv_reset
  | decode _ _ hi hx => rw [(exec_decode_frame _ hi _ _ hx).tree]; exact h
  | _ => exact h

/-- Settles O53: only the tree commands and the resets touch the tree, and each leaves a tree that meets
the invariant. -/
theorem stepKeepsTheTreeInvariants : Obligations.StepKeepsTheTreeInvariants := fun _ _ =>
  step_carries (P := fun s => TreeInv s.tree) (fun _ h => h) (fun _ _ _ => treeInv_reset) (fun _ _ _ h => h)
    (fun _ h => h) fun _ _ _ h e => e.keeps_treeInv h

/-! ## The code table and the codeword register -/

/-- No clash, said of the codewords themselves (R157). -/
theorem codeConflicts_eq_false_iff (inv : List CodePair) (c : Bits) :
    codeConflicts inv c = false ↔ ∀ e ∈ inv, ¬ e.code <+: c ∧ ¬ c <+: e.code := by
  simp [codeConflicts, List.any_eq_false, ← isPre_iff]

/-- The table `CT.GEN` leaves meets the table's invariant (R156, R158). -/
theorem tableInv_of_generatedPairs {t : TreeUnit} (h : TreeInv t) (hs : t.tstate = .built) {l : List CodePair}
    (hl : generatedPairs t = some l) : TableInv (l.foldl CodeTable.assign CodeTable.reset) := by
  obtain ⟨l', hl', hinv, -⟩ := generated_table h hs
  obtain rfl : l = l' := by simpa [hl] using hl'
  exact hinv

/-- `CT.INS` of a codeword that clashes with none keeps the table's invariant (R157, R158). -/
theorem TableInv.insert_keeps {t : CodeTable} (h : TableInv t) {c : Bits} {x : Symbol} (hne : c ≠ [])
    (hlen : c.length ≤ lMax) (hf : t.fwd[x] = none) (hc : codeConflicts t.inv c = false) :
    TableInv (t.assign { code := c, sym := x }) :=
  h.assign_inv _ hf ⟨List.length_pos_of_ne_nil hne, hlen⟩ ((codeConflicts_eq_false_iff _ _).mp hc)

theorem Effect.keeps_tableInv {s t : State} {i : Instr} (e : Effect s i t) (ht : TreeInv s.tree) (h : TableInv s.table)
    (hc : s.cwr.length ≤ lMax) : TableInv t.table := by
  cases e with
  | srst => exact tableInv_reset
  | ctClr => exact tableInv_reset
  | ctGen _ _ hs hl => exact tableInv_of_generatedPairs ht hs hl
  | ctIns _ _ _ hne hf hn => exact h.insert_keeps hne hc hf hn
  | decode _ _ hi hx => rw [(exec_decode_frame _ hi _ _ hx).table]; exact h
  | _ => exact h

theorem Effect.keeps_cwr_length {s t : State} {i : Instr} (e : Effect s i t) (h : TableInv s.table)
    (hc : s.cwr.length ≤ lMax) : t.cwr.length ≤ lMax := by
  cases e with
  | srst => exact Nat.zero_le _
  | cwClr => exact Nat.zero_le _
  | cwApp _ _ _ _ hl => simpa using hl
  | ctLkp _ x c _ hf => exact (h.lengths _ ((h.consistent c x).mpr hf)).2
  | decode _ _ hi hx => rw [(exec_decode_frame _ hi _ _ hx).cwr]; exact hc
  | _ => exact hc

/-- What O54 assumes: the tree that `CT.GEN` reads, the table, and the register that `CT.INS` reads. -/
structure CodeUnitInv (s : State) : Prop where
  tree : TreeInv s.tree
  table : TableInv s.table
  cwr : s.cwr.length ≤ lMax

/-- Settles O54: the table is written from a tree, a register and a table that meet the invariants. -/
theorem stepKeepsTheCodeTableInvariants : Obligations.StepKeepsTheCodeTableInvariants := fun _ _ ht h hc =>
  step_carries (P := CodeUnitInv) (Q := fun s => TableInv s.table ∧ s.cwr.length ≤ 256) (fun _ h => ⟨h.table, h.cwr⟩)
    (fun _ _ _ => ⟨tableInv_reset, Nat.zero_le _⟩) (fun _ _ _ h => ⟨h.tree, h.table, h.cwr⟩)
    (fun _ h => ⟨h.table, h.cwr⟩)
    (fun _ _ _ h e => ⟨e.keeps_tableInv h.tree h.table h.cwr, e.keeps_cwr_length h.table h.cwr⟩) ⟨ht, h, hc⟩

/-! ## The trie view -/

/-- A path is absent exactly if it is not empty and no stored codeword begins with it (R32). -/
theorem trieNode_eq_absent_iff (inv : List CodePair) (p : Bits) :
    trieNode inv p = .absent ↔ p ≠ [] ∧ ∀ e ∈ inv, ¬ p <+: e.code := by
  rcases trieNode_cases inv p with ⟨e, he, rfl, hr⟩ | ⟨-, hp, hr⟩ | ⟨hne, hp, hr⟩
  · simp only [hr, reduceCtorEq, false_iff]
    exact fun h => h.2 e he (List.prefix_refl _)
  · simp only [hr, reduceCtorEq, false_iff]
    rintro ⟨hne, hn⟩
    obtain h | ⟨e, he, hpre⟩ := hp
    · exact hne h
    · exact hn e he hpre
  · simp only [hr, true_iff]
    exact ⟨hne, hp⟩

/-- A path is internal exactly if it is present and no codeword ends there (R32). -/
theorem trieNode_eq_internal_iff (inv : List CodePair) (p : Bits) :
    trieNode inv p = .internal ↔ (∀ e ∈ inv, e.code ≠ p) ∧ (p = [] ∨ ∃ e ∈ inv, p <+: e.code) := by
  rcases trieNode_cases inv p with ⟨e, he, hc, hr⟩ | ⟨hne, hp, hr⟩ | ⟨hne, hp, hr⟩
  · simp only [hr, reduceCtorEq, false_iff]
    exact fun h => h.1 e he hc
  · simp only [hr, true_iff]
    exact ⟨hne, hp⟩
  · simp only [hr, reduceCtorEq, false_iff]
    rintro ⟨-, h | ⟨e, he, hpre⟩⟩
    · exact hne h
    · exact hp e he hpre

/-- A leaf's path and symbol are a stored pair (R32). -/
theorem mem_of_trieNode_leaf {inv : List CodePair} {p : Bits} {x : Symbol} (h : trieNode inv p = .leaf x) :
    { code := p, sym := x } ∈ inv := by
  rcases trieNode_cases inv p with ⟨e, he, rfl, hr⟩ | ⟨-, -, hr⟩ | ⟨-, -, hr⟩
  · obtain rfl : e.sym = x := by simpa [hr] using h
    exact he
  · simp [hr] at h
  · simp [hr] at h

/-- Settles O58, from what the trie view can say of a path (`trieNode_cases`). -/
theorem trieViewFollowsItsRule : Obligations.TrieViewFollowsItsRule := by
  refine ⟨rfl, fun inv p => ?_, fun inv p b => ?_, fun t h => ⟨h.trieNode_root, fun p x => ?_⟩⟩
  · rw [ne_eq, trieNode_eq_absent_iff]
    push Not
    rw [or_iff_not_imp_left]
  · simp [trieNode_eq_absent_iff]
  · exact ⟨mem_of_trieNode_leaf, h.trieNode_leaf p x⟩

end Sys2Proof.Machine
end

section
/-! SUPPORT. The invariants of the other units over one step (spec/10_state.md rules R23, R24, R41 to R53). -/

namespace Sys2Proof.Machine

/-! ## The frequency memory -/

/-- The counts after one is written. -/
theorem freq_set_getElem (freq : Vector Count 257) (x y : Symbol) (c : Count) :
    (freq.set x c)[y] = if x = y then c else freq[y] := by
  simp only [Fin.getElem_fin, Vector.getElem_set, Fin.ext_iff]

/-- `FQ.SET` takes a count within `CNT_MAX` that is not 0 for the sentinel (R122). -/
theorem countOperands_some {c : Config} {a : BitVec 16} {imm : BitVec 32} {x : Symbol} {n : Count}
    (h : countOperands c a imm = some (x, n)) : n.toNat ≤ c.cntMax ∧ (x = sentinel → n ≠ 0#32) := by
  unfold countOperands at h
  split at h
  · cases h
  · split at h
    · cases h
    · rename_i hle
      split at h
      · cases h
      · rename_i hz
        cases h
        exact ⟨Nat.le_of_not_lt hle, fun hx hn => hz ⟨hx, hn⟩⟩

/-- `FQ.INC` never names the sentinel (R123). -/
theorem literalOperand_ne_sentinel {a : BitVec 16} {x : Symbol} (h : literalOperand a = some x) : x ≠ sentinel := by
  unfold literalOperand at h
  split at h <;> cases h
  exact Fin.ne_of_val_ne (Nat.ne_of_lt ‹_›)

theorem freqReset_getElem (x : Symbol) : freqReset[x] = if sentinel = x then 1#32 else 0#32 := by
  refine (freq_set_getElem (Vector.replicate 257 0#32) sentinel x 1#32).trans ?_
  simp

theorem freqReset_sentinel : freqReset[sentinel] = 1#32 := by
  rw [freqReset_getElem, if_pos rfl]

theorem freqInv_reset {c : Config} (h : 1 ≤ c.cntW ∧ c.cntW ≤ 32) : FreqInv c freqReset where
  width := h
  bounded := fun x => by
    have : 2 ^ 1 ≤ 2 ^ c.cntW := Nat.pow_le_pow_right (by decide) h.1
    rw [freqReset_getElem]
    unfold Config.cntMax
    split
    · exact Nat.le_sub_of_add_le this
    · exact Nat.zero_le _
  sentinel := by
    change freqReset[Sys2Proof.sentinel] ≠ 0#32
    rw [freqReset_sentinel]
    decide

/-- Writing a count keeps the invariant where the count fits and is not 0 for the sentinel (R23, R24). -/
theorem FreqInv.set_keeps {c : Config} {freq : Vector Count 257} (h : FreqInv c freq) {x : Symbol} {n : Count}
    (hn : n.toNat ≤ c.cntMax) (hx : x = Sys2Proof.sentinel → n ≠ 0#32) : FreqInv c (freq.set x n) where
  width := h.width
  bounded := fun y => by
    rw [freq_set_getElem]
    split
    · exact hn
    · exact h.bounded y
  sentinel := by
    change (freq.set x n)[Sys2Proof.sentinel] ≠ 0#32
    rw [freq_set_getElem]
    split
    · exact hx ‹_›
    · exact h.sentinel

/-- An increment below `CNT_MAX` does not pass it (R123). -/
theorem FreqInv.increment_le {c : Config} {freq : Vector Count 257} (h : FreqInv c freq) {x : Symbol}
    (hx : freq[x].toNat ≠ c.cntMax) : (freq[x] + 1#32).toNat ≤ c.cntMax := by
  have := h.bounded x
  rw [BitVec.toNat_add]
  exact (Nat.mod_le _ _).trans (Nat.lt_of_le_of_ne this hx)

theorem Effect.keeps_freqInv {s t : State} {i : Instr} (e : Effect s i t) (h : FreqInv s.cfg s.freq) :
    FreqInv t.cfg t.freq := by
  cases e with
  | srst => exact freqInv_reset h.width
  | fqClr => exact freqInv_reset h.width
  | fqSet _ _ _ _ ho => exact h.set_keeps (countOperands_some ho).1 (countOperands_some ho).2
  | fqInc _ _ ho hc => exact h.set_keeps (h.increment_le hc) fun hx => absurd hx (literalOperand_ne_sentinel ho)
  | decode _ _ hi hx =>
    have hf := exec_decode_frame _ hi _ _ hx
    rw [hf.cfg, hf.freq]; exact h
  | _ => exact h

theorem one_le_freqReset_sentinel : 1 ≤ freqReset[sentinel].toNat := by
  rw [freqReset_sentinel]
  decide

/-- The sentinel's count stays positive whatever the width of a count is (R24). -/
theorem Effect.keeps_sentinel {s t : State} {i : Instr} (e : Effect s i t) (h : 1 ≤ s.freq[sentinel].toNat) :
    1 ≤ t.freq[sentinel].toNat := by
  cases e with
  | srst => exact one_le_freqReset_sentinel
  | fqClr => exact one_le_freqReset_sentinel
  | fqSet _ _ x c ho =>
    change 1 ≤ (s.freq.set x c)[sentinel].toNat
    rw [freq_set_getElem]
    split
    · have hne := (countOperands_some ho).2 ‹_›
      exact Nat.pos_of_ne_zero fun hc => hne (BitVec.eq_of_toNat_eq hc)
    · exact h
  | fqInc _ x ho =>
    change 1 ≤ (s.freq.set x (s.freq[x] + 1#32))[sentinel].toNat
    rw [freq_set_getElem, if_neg (literalOperand_ne_sentinel ho)]
    exact h
  | decode _ _ hi hx => rw [(exec_decode_frame _ hi _ _ hx).freq]; exact h
  | _ => exact h

/-- Settles O52: only the frequency commands and the resets write counts. -/
theorem stepKeepsTheSentinelCount : Obligations.StepKeepsTheSentinelCount := by
  refine ⟨fun _ _ => ?_, fun _ _ => ?_⟩
  · exact step_carries (P := fun s => 1 ≤ s.freq[sentinel].toNat) (fun _ h => h)
      (fun _ _ _ => one_le_freqReset_sentinel) (fun _ _ _ h => h) (fun _ h => h) fun _ _ _ h e => e.keeps_sentinel h
  · exact step_carries (P := fun s => FreqInv s.cfg s.freq) (fun _ h => h) (fun _ _ h => freqInv_reset h.width)
      (fun _ _ _ h => h) (fun _ h => h) fun _ _ _ h e => e.keeps_freqInv h

/-! ## The bit writer -/

theorem writerInv_of_acc_zero {w : Writer} (h : w.acc = 0#8) : WriterInv w := fun i _ => by simp [h]

theorem Effect.keeps_writerInv {s t : State} {i : Instr} (e : Effect s i t) (h : WriterInv s.writer) :
    WriterInv t.writer := by
  cases e with
  | srst => exact writerInv_of_acc_zero rfl
  | bpRst => exact writerInv_of_acc_zero rfl
  | bpPut => exact putBits_writerInv _ _ h
  | bpEnc => exact putBits_writerInv _ _ h
  | bpFlush _ _ hw => exact writerInv_of_acc_zero (by subst hw; rfl)
  | decode _ _ hi hx => rw [(exec_decode_frame _ hi _ _ hx).writer]; exact h
  | _ => exact h

/-! ## The input queue and the bit reader -/

theorem readerInv_reset (c : Config) : ReaderInv c Reader.reset where
  low := fun i _ => by simp [Reader.reset]
  capacity := fun _ _ => Nat.zero_le _

/-- A byte fits into a queue that is not full (R44, R196). -/
theorem ReaderInv.push_keeps {c : Config} {r : Reader} (h : ReaderInv c r) (hc : c.inqCap ≠ some r.inq.length)
    (b : Byte) :
    ReaderInv c { r with inq := r.inq ++ [b] } where
  low := h.low
  capacity := fun cap hcap => by
    have hle := h.capacity cap hcap
    have hne : r.inq.length ≠ cap := fun he => hc (he ▸ hcap)
    simp only [List.length_append, List.length_singleton]
    omega

theorem BitEffect.keeps_readerInv {s t : State} (e : BitEffect s t) (h : ReaderInv s.cfg s.reader) :
    ReaderInv t.cfg t.reader := by
  cases e with
  | refused => exact h
  | waiting => exact h
  | truncated => exact h
  | literal _ _ _ _ hg => exact getBit_readerInv _ _ _ _ hg h
  | finished _ _ hg => exact getBit_readerInv _ _ _ _ hg h
  | inner _ _ _ hg => exact getBit_readerInv _ _ _ _ hg h
  | lost _ _ _ hg => exact getBit_readerInv _ _ _ _ hg h

theorem Effect.keeps_readerInv {s t : State} {i : Instr} (e : Effect s i t) (h : ReaderInv s.cfg s.reader) :
    ReaderInv t.cfg t.reader := by
  cases e with
  | srst => exact readerInv_reset _
  | inRst => exact readerInv_reset _
  | inByte _ b _ hc => exact h.push_keeps hc b
  | inEnd => exact ⟨h.low, h.capacity⟩
  | inBit _ _ _ hg => exact getBit_readerInv _ _ _ _ hg h
  | decode _ _ hi hx =>
    exact exec_decode_keeps (P := fun s => ReaderInv s.cfg s.reader) (fun _ _ e => e.keeps_readerInv) (fun _ _ _ h => h)
      hi hx h
  | _ => exact h

/-! ## The error registers -/

theorem errorInv_cleared : ErrorInv ErrorRegs.reset := ⟨by decide, by decide⟩

/-- A recorded fault is consistent (R243). -/
theorem errorInv_fault {c : RspCode} (hc : 1 ≤ c.num.toNat ∧ c.num.toNat ≤ 16) :
    ErrorInv { lasterr := c.num, errseen := true } where
  seen := by
    simp only [true_iff]
    intro h
    rw [h] at hc
    exact absurd hc.1 (by decide)
  assigned := hc.2

theorem BitEffect.keeps_errorInv {s t : State} (e : BitEffect s t) (h : ErrorInv s.err) : ErrorInv t.err := by
  cases e with
  | refused c hc =>
    obtain rfl | rfl := hc
    · exact errorInv_fault (c := .tableEmpty) (by decide)
    · exact errorInv_fault (c := .decoderState) (by decide)
  | lost => exact errorInv_fault (c := .decodeMismatch) (by decide)
  | _ => exact h

theorem Effect.keeps_errorInv {s t : State} {i : Instr} (e : Effect s i t) (h : ErrorInv s.err) : ErrorInv t.err := by
  cases e with
  | fault _ _ hc => exact errorInv_fault hc
  | srst => exact errorInv_cleared
  | errClr => exact errorInv_cleared
  | decode _ _ hi hx =>
    exact exec_decode_keeps (P := fun s => ErrorInv s.err) (fun _ _ e => e.keeps_errorInv) (fun _ _ _ h => h) hi hx h
  | _ => exact h

/-! ## The output logs -/

/-- The logs stay the bytes on their ports when both grow by the same transactions (R52, R53, R91). -/
theorem LogInv.grow {s t : State} (h : LogInv s) (ev : List PortEvent) (hp : t.ports = s.ports ++ ev)
    (ho : t.out = s.out ++ ev.filterMap PortEvent.outByte)
    (hd : t.decout = s.decout ++ ev.filterMap PortEvent.decByte) :
    LogInv t where
  out := by rw [ho, hp, List.filterMap_append, h.out]
  decout := by rw [hd, hp, List.filterMap_append, h.decout]

theorem LogInv.answered {s t : State} (h : LogInv s) {c : Byte} {d : Word} (hp : t.ports = s.ports ++ [.rsp c d])
    (ho : t.out = s.out) (hd : t.decout = s.decout) : LogInv t :=
  h.grow _ hp (ho.trans (List.append_nil _).symm) (hd.trans (List.append_nil _).symm)

theorem LogInv.unchanged {s t : State} (h : LogInv s) (hp : t.ports = s.ports) (ho : t.out = s.out)
    (hd : t.decout = s.decout) : LogInv t :=
  ⟨by rw [ho, hp, h.out], by rw [hd, hp, h.decout]⟩

/-- Bytes that leave on `out`, then a response (R91). -/
theorem LogInv.emitted {s t : State} (h : LogInv s) (bs : List Byte) {c : Byte} {d : Word}
    (hp : t.ports = s.ports ++ bs.map .out ++ [.rsp c d]) (ho : t.out = s.out ++ bs) (hd : t.decout = s.decout) :
    LogInv t := by
  have hout : PortEvent.outByte ∘ PortEvent.out = some := rfl
  have hdec : PortEvent.decByte ∘ PortEvent.out = fun _ => none := rfl
  refine h.grow (bs.map .out ++ [.rsp c d]) (by rw [hp, List.append_assoc]) ?_ ?_
  · simp [ho, List.filterMap_map, hout, PortEvent.outByte]
  · simp [hd, List.filterMap_map, hdec, PortEvent.decByte]

theorem BitEffect.keeps_logInv {s t : State} (e : BitEffect s t) (h : LogInv s) : LogInv t := by
  cases e with
  | literal _ _ x => exact h.grow [.dec x] rfl (List.append_nil _).symm rfl
  | _ => exact h.unchanged rfl rfl rfl

theorem Effect.keeps_logInv {s t : State} {i : Instr} (e : Effect s i t) (h : LogInv s) : LogInv t := by
  cases e with
  | bpPut => exact h.emitted _ rfl rfl rfl
  | bpEnc => exact h.emitted _ rfl rfl rfl
  | bpFlush => exact h.emitted _ rfl rfl rfl
  | decode _ _ hi hx =>
    exact exec_decode_keeps (P := LogInv) (fun _ _ e => e.keeps_logInv) (fun _ _ _ h => h.answered rfl rfl rfl) hi hx h
  | _ => exact h.answered rfl rfl rfl

/-- Settles O55, one invariant at a time. -/
theorem stepKeepsTheUnitInvariants : Obligations.StepKeepsTheUnitInvariants := by
  refine fun s s' hstep => ⟨fun h => ?_, fun h => ?_, fun h => ?_, fun h => ?_⟩
  · exact step_carries (P := fun s => WriterInv s.writer) (fun _ h => h) (fun _ _ _ => writerInv_of_acc_zero rfl)
      (fun _ _ _ h => h) (fun _ h => h) (fun _ _ _ h e => e.keeps_writerInv h) h hstep
  · exact step_carries (P := fun s => ReaderInv s.cfg s.reader) (fun _ h => h) (fun _ _ _ => readerInv_reset _)
      (fun _ _ _ h => h) (fun _ h => h) (fun _ _ _ h e => e.keeps_readerInv h) h hstep
  · exact step_carries (P := fun s => ErrorInv s.err) (fun _ h => h) (fun _ _ _ => errorInv_cleared)
      (fun _ _ _ h => h) (fun _ _ => errorInv_fault (c := .illegalCmd) (by decide))
      (fun _ _ _ h e => e.keeps_errorInv h) h hstep
  · exact step_carries (P := LogInv) (fun _ h => h) (fun _ _ _ => ⟨rfl, rfl⟩)
      (fun _ w _ h => h.grow [.cmd w] rfl (List.append_nil _).symm (List.append_nil _).symm)
      (fun _ h => h.answered rfl rfl rfl) (fun _ _ _ h e => e.keeps_logInv h) h hstep

/-! ## The decoder -/

theorem decoderInv_reset : DecoderInv Decoder.reset := ⟨fun _ => rfl, nofun, Nat.zero_le _⟩

/-- An internal node's path is shorter than the longest codeword (R33). -/
theorem TableInv.internal_length_lt {t : CodeTable} (h : TableInv t) {p : Bits} (hp : trieNode t.inv p = .internal) :
    p.length < lMax := by
  obtain ⟨hne, rfl | ⟨e, he, hpre⟩⟩ := (trieNode_eq_internal_iff _ _).mp hp
  · decide
  · have hlt : p.length < e.code.length :=
      lt_of_le_of_ne hpre.length_le fun hl => hne e he (hpre.eq_of_length hl).symm
    exact hlt.trans_le (h.lengths e he).2

/-- A decoder that may read a bit has room for it in `CUR` (R48). -/
theorem DecoderInv.length_lt {d : Decoder} (h : DecoderInv d) (hs : ¬ (d.dstate = .done ∨ d.dstate = .error)) :
    d.cur.length < lMax := by
  cases hd : d.dstate with
  | root => rw [h.atRoot (.inl hd)]; decide
  | descending => exact (h.inside hd).2
  | done => exact absurd (.inl hd) hs
  | error => exact absurd (.inr hd) hs

theorem BitEffect.keeps_decoderInv {s t : State} (e : BitEffect s t) (ht : TableInv s.table)
    (h : DecoderInv s.decoder) : DecoderInv t.decoder := by
  cases e with
  | refused => exact h
  | waiting => exact h
  | truncated => exact ⟨h.atRoot, h.inside, h.bounded⟩
  | literal => exact ⟨fun _ => rfl, nofun, Nat.zero_le _⟩
  | finished => exact ⟨fun _ => rfl, nofun, Nat.zero_le _⟩
  | inner b _ _ _ hn =>
    have hlt := ht.internal_length_lt hn
    exact ⟨by simp, fun _ => ⟨by simp, hlt⟩, hlt.le⟩
  | lost b _ hs =>
    have hlt := h.length_lt hs
    exact ⟨by simp, nofun, by simpa using hlt⟩

/-- A transition does not write the table. -/
theorem BitEffect.table_eq {s t : State} (e : BitEffect s t) : t.table = s.table := by
  cases e <;> rfl

theorem Effect.keeps_decoderInv {s t : State} {i : Instr} (e : Effect s i t) (ht : TableInv s.table)
    (h : DecoderInv s.decoder) : DecoderInv t.decoder := by
  cases e with
  | srst => exact decoderInv_reset
  | decRst => exact decoderInv_reset
  | decode _ _ hi hx =>
    exact (exec_decode_keeps (P := fun s => TableInv s.table ∧ DecoderInv s.decoder)
      (fun _ _ e h => ⟨e.table_eq ▸ h.1, e.keeps_decoderInv h.1 h.2⟩) (fun _ _ _ h => h) hi hx ⟨ht, h⟩).2
  | _ => exact h

/-- A descending decoder stands on an internal node of the trie (R48, R298). -/
def OnInternalNode (s : State) : Prop :=
  s.decoder.dstate = .descending → trieNode s.table.inv s.decoder.cur = .internal

theorem BitEffect.keeps_onInternalNode {s t : State} (e : BitEffect s t) (h : OnInternalNode s) : OnInternalNode t := by
  cases e with
  | refused => exact h
  | waiting => exact h
  | truncated => exact h
  | literal => exact nofun
  | finished => exact nofun
  | inner _ _ _ _ ht => exact fun _ => ht
  | lost => exact nofun

/-- An internal node stays internal when a codeword is inserted that clashes with none (R157). -/
theorem trieNode_internal_assign {t : CodeTable} {c p : Bits} {x : Symbol} (hne : c ≠ [])
    (hc : codeConflicts t.inv c = false) (hp : trieNode t.inv p = .internal) :
    trieNode (t.assign { code := c, sym := x }).inv p = .internal := by
  rw [trieNode_eq_internal_iff] at hp ⊢
  obtain ⟨hend, hpre⟩ := hp
  simp only [CodeTable.assign, mem_insertPair]
  refine ⟨?_, hpre.imp_right fun ⟨e, he, h⟩ => ⟨e, .inr he, h⟩⟩
  rintro e (rfl | he)
  · rintro rfl
    obtain h | ⟨e, he, h⟩ := hpre
    · exact hne h
    · exact ((codeConflicts_eq_false_iff _ _).mp hc e he).2 h
  · exact hend e he

theorem Effect.keeps_onInternalNode {s t : State} {i : Instr} (e : Effect s i t) (h1 : i ≠ .ctClr) (h2 : i ≠ .ctGen)
    (h : OnInternalNode s) : OnInternalNode t := by
  cases e with
  | srst => exact nofun
  | decRst => exact nofun
  | ctClr => exact absurd rfl h1
  | ctGen => exact absurd rfl h2
  | ctIns _ _ _ hne _ hc => exact fun hd => trieNode_internal_assign hne hc (h hd)
  | decode _ _ hi hx =>
    exact exec_decode_keeps (P := OnInternalNode) (fun _ _ e => e.keeps_onInternalNode) (fun _ _ _ h => h) hi hx h
  | _ => exact h

/-- Settles O56: `CUR` grows only along internal nodes, or by the bit that leaves the trie. -/
theorem stepKeepsTheDecoderInvariant : Obligations.StepKeepsTheDecoderInvariant := by
  refine ⟨fun _ _ ht h => ?_, fun _ _ _ h1 h2 _ hx h => (exec_effect hx).keeps_onInternalNode h1 h2 h⟩
  exact step_carries (P := fun s => TableInv s.table ∧ DecoderInv s.decoder) (Q := fun s => DecoderInv s.decoder)
    (fun _ h => h.2) (fun _ _ _ => decoderInv_reset) (fun _ _ _ h => h) (fun _ h => h.2)
    (fun _ _ _ h e => e.keeps_decoderInv h.1 h.2) ⟨ht, h⟩

end Sys2Proof.Machine
end

section
/-! SUPPORT. What no command touches, and what sets and clears each flag (spec/10_state.md rules R22, R29, R47, R55). -/

namespace Sys2Proof.Machine

/-! ## The host's inputs and the parameters -/

theorem Effect.cfg_pending {s t : State} {i : Instr} (e : Effect s i t) : t.cfg = s.cfg ∧ t.pending = s.pending := by
  cases e with
  | decode _ _ hi hx =>
    have hf := exec_decode_frame _ hi _ _ hx
    exact ⟨hf.cfg, hf.pending⟩
  | _ => exact ⟨rfl, rfl⟩

/-- `s` with other inputs waiting. -/
def State.withPending (s : State) (q : List HostInput) : State := { s with pending := q }

/-- A result with other inputs waiting. -/
def withPendingResult (q : List HostInput) : Result → Result
  | .next t => .next (t.withPending q)
  | .fault e => .fault e
  | .refused e => .refused e

section
variable (s : State) (q : List HostInput)

theorem decodeMove_withPending (p : Bits) :
    decodeMove (s.withPending q) p = ((decodeMove s p).1.withPending q, (decodeMove s p).2) := by
  dsimp only [decodeMove, State.withPending]
  split
  · split <;> rfl
  · rfl
  · rfl

theorem decodeBit_withPending :
    decodeBit (s.withPending q) = ((decodeBit s).1.withPending q, (decodeBit s).2) := by
  dsimp only [decodeBit, State.withPending]
  split
  · rfl
  split
  · rfl
  split
  · rfl
  · rfl
  · rename_i r _
    exact decodeMove_withPending { s with reader := r } q _

theorem decodeSymbol_withPending (n : Nat) :
    decodeSymbol n (s.withPending q) = ((decodeSymbol n s).1.withPending q, (decodeSymbol n s).2) := by
  induction n generalizing s with
  | zero => exact decodeBit_withPending s q
  | succ n ih =>
    simp only [decodeSymbol, decodeBit_withPending]
    split
    · exact ih _
    · rfl

theorem decodeRun_withPending (n : Nat) :
    decodeRun n (s.withPending q) = ((decodeRun n s).1.withPending q, (decodeRun n s).2) := by
  induction n generalizing s with
  | zero => exact decodeBit_withPending s q
  | succ n ih =>
    simp only [decodeRun, decodeBit_withPending]
    split
    · exact ih _
    · rfl

theorem execDecRun_withPending : execDecRun (s.withPending q) = withPendingResult q (execDecRun s) := by
  have hr := decodeRun_withPending s q s.reader.available
  dsimp only [execDecRun]
  rw [show (s.withPending q).reader = s.reader from rfl, hr]
  split <;> rfl

end

/-- What a command answers is the same whatever waits, but for what waits (R22, log 1). -/
theorem exec_withPending (i : Instr) (s : State) (q : List HostInput) :
    exec i (s.withPending q) = withPendingResult q (exec i s) := by
  cases i with
  | csrRd a =>
    dsimp only [exec, execCsrRd, State.withPending]
    split
    · rfl
    · rename_i n _
      cases n <;> rfl
  -- commands of one check
  | fqSet | fqRd | tbInit | tbRdn | tbRdf | cwRd | ctFind | inBit =>
    dsimp only [exec, execFqSet, execFqRd, execTbInit, execTbRdn, execTbRdf, execCwRd, execCtFind, execInBit,
      State.withPending]
    split <;> rfl
  -- commands of two checks
  | fqInc | tbBuild | cwApp | ctLkp | bpPut | bpFlush =>
    dsimp only [exec, execFqInc, execTbBuild, execCwApp, execCtLkp, execBpPut, execBpFlush, State.withPending]
    split
    · rfl
    · split <;> rfl
  | tbStep | ctGen =>
    dsimp only [exec, execTbStep, execCtGen, State.withPending]
    split
    · split <;> rfl
    · rfl
  -- commands of three checks
  | bpEnc | inByte =>
    dsimp only [exec, execBpEnc, execInByte, State.withPending]
    split
    · rfl
    · split
      · rfl
      · split <;> rfl
  | ctIns a =>
    dsimp only [exec, execCtIns, State.withPending]
    split
    · rfl
    · split
      · rfl
      · split
        · rfl
        · split <;> rfl
  | decBit => exact congrArg (Host.Outcome.next ∘ sendReply) (decodeBit_withPending s q)
  | decSym => exact congrArg (Host.Outcome.next ∘ sendReply) (decodeSymbol_withPending s q _)
  | decRun => exact execDecRun_withPending s q
  | _ => rfl

/-- Settles O48: no command writes the two fields, and every command commutes with a change of what waits. -/
theorem commandsLeaveHostInputsAndParameters : Obligations.CommandsLeaveHostInputsAndParameters := by
  intro i s t h
  obtain ⟨hc, hp⟩ := (exec_effect h).cfg_pending
  refine ⟨hc, hp, fun q => ?_⟩
  have hq := exec_withPending i s q
  rw [h] at hq
  exact hq

/-! ## The flags -/

section
variable {s t : State} {i : Instr}

/-- `WCLOSED`: only `BP.FLUSH` sets it, only a reset of the writer clears it (R55, R184). -/
theorem Effect.wclosed (e : Effect s i t) : t.writer.wclosed = s.writer.wclosed ∨
    t.writer.wclosed = true ∧ i = .bpFlush ∨ t.writer.wclosed = false ∧ (i = .bpRst ∨ i = .srst) := by
  cases e with
  | srst => exact .inr (.inr ⟨rfl, .inr rfl⟩)
  | bpRst => exact .inr (.inr ⟨rfl, .inl rfl⟩)
  | bpPut => exact .inl (putBits_wclosed _ _)
  | bpEnc => exact .inl (putBits_wclosed _ _)
  | bpFlushEmpty => exact .inr (.inl ⟨rfl, rfl⟩)
  | bpFlush => exact .inr (.inl ⟨rfl, rfl⟩)
  | decode _ _ hi hx => exact .inl (by rw [(exec_decode_frame _ hi _ _ hx).writer])
  | _ => exact .inl rfl

/-- `EOI`: only `IN.END` sets it, only a reset of the reader clears it (R55, R197). -/
theorem Effect.eoi (e : Effect s i t) : t.reader.eoi = s.reader.eoi ∨
    t.reader.eoi = true ∧ i = .inEnd ∨ t.reader.eoi = false ∧ (i = .inRst ∨ i = .srst) := by
  cases e with
  | srst => exact .inr (.inr ⟨rfl, .inr rfl⟩)
  | inRst => exact .inr (.inr ⟨rfl, .inl rfl⟩)
  | inEnd => exact .inr (.inl ⟨rfl, rfl⟩)
  | inBit _ _ _ hg =>
    obtain ⟨-, -, he, -⟩ := getBit_bit _ _ _ hg
    exact .inl he
  | decode _ _ hi hx => exact .inl (exec_decode_frame _ hi _ _ hx).eoi
  | _ => exact .inl rfl

/-- `TRUNC`: only a decode command at exhausted input sets it, only a reset of the decoder clears it (R55, R211). -/
theorem Effect.trunc (e : Effect s i t) : t.decoder.trunc = s.decoder.trunc ∨
    t.decoder.trunc = true ∧ (i = .decBit ∨ i = .decSym ∨ i = .decRun) ∧ (∃ d, t.lastReply = some (33#8, d)) ∨
    t.decoder.trunc = false ∧ (i = .decRst ∨ i = .srst) := by
  cases e with
  | srst => exact .inr (.inr ⟨rfl, .inr rfl⟩)
  | decRst => exact .inr (.inr ⟨rfl, .inl rfl⟩)
  | decode _ _ hi hx =>
    obtain ⟨u, r, hr, rfl⟩ := exec_decode_reply _ hi _ _ hx
    by_cases hc : r.code = .inputExhausted
    · exact .inr (.inl ⟨(hr.exhausted hc).2, hi, r.data, by rw [lastReply_respond, hc]; rfl⟩)
    · exact .inl (hr.trunc hc)
  | _ => exact .inl rfl

/-- A loop of transitions changes the error registers only by a fault, which it answers (R243). -/
theorem LoopReply.err {u : State} {r : Reply} (h : LoopReply s u r) : u.err = s.err ∨
    u.err.errseen = true ∧ 1 ≤ r.code.num.toNat ∧ r.code.num.toNat ≤ 31 := by
  have hcodes := h.codes
  simp only [List.mem_cons, List.not_mem_nil, or_false] at hcodes
  rcases hcodes with hc | hc | hc | hc | hc | hc
  · exact .inl (h.silent (.inr (.inr hc)))
  · exact .inr ⟨by rw [(h.refused (.inl hc)).2], by rw [hc]; decide⟩
  · exact .inr ⟨by rw [(h.refused (.inr hc)).2], by rw [hc]; decide⟩
  · exact .inr ⟨by rw [(h.mismatch hc).1], by rw [hc]; decide⟩
  · exact .inl (h.silent (.inl hc))
  · exact .inl (h.silent (.inr (.inl hc)))

/-- `ERRSEEN`: only a fault sets it, only `ERR.CLR` and `SRST` clear it (R55, R233, R243). -/
theorem Effect.errseen (e : Effect s i t) : t.err.errseen = s.err.errseen ∨
    t.err.errseen = true ∧ (∃ c d, t.lastReply = some (c, d) ∧ 1 ≤ c.toNat ∧ c.toNat ≤ 31) ∨
    t.err.errseen = false ∧ (i = .errClr ∨ i = .srst) := by
  cases e with
  | fault _ c hc => exact .inr (.inl ⟨rfl, _, _, lastReply_raise _ _ _, hc.1, by omega⟩)
  | srst => exact .inr (.inr ⟨rfl, .inr rfl⟩)
  | errClr => exact .inr (.inr ⟨rfl, .inl rfl⟩)
  | decode _ _ hi hx =>
    obtain ⟨u, r, hr, rfl⟩ := exec_decode_reply _ hi _ _ hx
    obtain he | ⟨he, hc⟩ := hr.err
    · exact .inl (congrArg ErrorRegs.errseen he)
    · exact .inr (.inl ⟨he, _, _, lastReply_respond _ _ _, hc⟩)
  | _ => exact .inl rfl

/-- Only the tree commands and `SRST` write the tree (R29, R71). -/
theorem Effect.tree_eq (e : Effect s i t) :
    t.tree = s.tree ∨ mnemonicOf i ∈ ["TB.INIT", "TB.STEP", "TB.BUILD", "TB.FREE", "SRST"] := by
  cases e with
  | srst | tbInit | tbStep | tbBuild | tbFree => exact .inr (by decide)
  | decode _ _ hi hx => exact .inl (exec_decode_frame _ hi _ _ hx).tree
  | _ => exact .inl rfl

/-- Only the decoder commands and `SRST` write the decoder (R47). -/
theorem Effect.decoder_eq (e : Effect s i t) :
    t.decoder = s.decoder ∨ mnemonicOf i ∈ ["DEC.RST", "DEC.BIT", "DEC.SYM", "DEC.RUN", "SRST"] := by
  cases e with
  | srst | decRst => exact .inr (by decide)
  | decode _ _ hi => rcases hi with rfl | rfl | rfl <;> exact .inr (by decide)
  | _ => exact .inl rfl

end

/-- A flag that keeps its value or is set under `P` or cleared under `Q` becomes 1 only under `P`. -/
theorem flag_set_only_by {x y : Bool} {P Q : Prop} (h : y = x ∨ y = true ∧ P ∨ y = false ∧ Q) (hx : x = false)
    (hy : y = true) : P := by
  obtain h | ⟨-, h⟩ | ⟨h, -⟩ := h
  · simp [← h, hy] at hx
  · exact h
  · simp [h] at hy

/-- The same for a flag that becomes 0. -/
theorem flag_cleared_only_by {x y : Bool} {P Q : Prop} (h : y = x ∨ y = true ∧ P ∨ y = false ∧ Q) (hx : x = true)
    (hy : y = false) : Q := by
  obtain h | ⟨h, -⟩ | ⟨-, h⟩ := h
  · simp [← h, hy] at hx
  · simp [h] at hy
  · exact h

/-- Settles O47, flag by flag. -/
theorem flagsChangeOnlyByTheirCommands : Obligations.FlagsChangeOnlyByTheirCommands := by
  intro i s t h
  have e := exec_effect h
  exact ⟨flag_set_only_by e.wclosed, flag_cleared_only_by e.wclosed, flag_set_only_by e.eoi, flag_cleared_only_by e.eoi,
    flag_set_only_by e.trunc, flag_cleared_only_by e.trunc, flag_set_only_by e.errseen, flag_cleared_only_by e.errseen,
    fun hne => e.tree_eq.resolve_left fun he => hne (by rw [he]),
    fun hne => e.decoder_eq.resolve_left fun he => hne (by rw [he])⟩

end Sys2Proof.Machine
end

section
/-! SUPPORT. Which commands write each index space and each unit, and that every command completes (spec/20_memory.md
rules R71, R79, R83; 70_reset_and_hazards.md rule R303). -/

namespace Sys2Proof.Machine

section
variable {s t : State} {i : Instr}

/-! ## The index spaces -/

/-- Only `FQ.CLR`, `FQ.SET`, `FQ.INC` and `SRST` write `FREQ` (R23, R71). -/
theorem Effect.freq_eq (e : Effect s i t) :
    t.freq = s.freq ∨ mnemonicOf i ∈ ["FQ.CLR", "FQ.SET", "FQ.INC", "SRST"] := by
  cases e with
  | srst | fqClr | fqSet | fqInc => exact .inr (by simp [mnemonicOf])
  | decode _ _ hi hx => exact .inl (exec_decode_frame _ hi _ _ hx).freq
  | _ => exact .inl rfl

/-- Only `CT.CLR`, `CT.GEN`, `CT.INS` and `SRST` write the code tables (R71). -/
theorem Effect.table_eq (e : Effect s i t) :
    t.table = s.table ∨ mnemonicOf i ∈ ["CT.CLR", "CT.GEN", "CT.INS", "SRST"] := by
  cases e with
  | srst | ctClr | ctGen | ctIns => exact .inr (by simp [mnemonicOf])
  | decode _ _ hi hx => exact .inl (exec_decode_frame _ hi _ _ hx).table
  | _ => exact .inl rfl

/-- Only `CW.CLR`, `CW.APP`, `CT.LKP` and `SRST` write `CWR` (R40, R71). -/
theorem Effect.cwr_eq (e : Effect s i t) :
    t.cwr = s.cwr ∨ mnemonicOf i ∈ ["CW.CLR", "CW.APP", "CT.LKP", "SRST"] := by
  cases e with
  | srst | cwClr | cwApp | ctLkp => exact .inr (by simp [mnemonicOf])
  | decode _ _ hi hx => exact .inl (exec_decode_frame _ hi _ _ hx).cwr
  | _ => exact .inl rfl

/-! ## The units and the logs -/

/-- Only the packer's commands and `SRST` write the writer (R41 to R43). -/
theorem Effect.writer_eq (e : Effect s i t) :
    t.writer = s.writer ∨ mnemonicOf i ∈ ["BP.RST", "BP.PUT", "BP.ENC", "BP.FLUSH", "SRST"] := by
  cases e with
  | srst | bpRst | bpPut | bpEnc | bpFlushEmpty | bpFlush => exact .inr (by simp [mnemonicOf])
  | decode _ _ hi hx => exact .inl (exec_decode_frame _ hi _ _ hx).writer
  | _ => exact .inl rfl

/-- Only the packer's commands that emit bytes write `OUT` (R52). -/
theorem Effect.out_eq (e : Effect s i t) : t.out = s.out ∨ mnemonicOf i ∈ ["BP.PUT", "BP.ENC", "BP.FLUSH"] := by
  cases e with
  | bpPut | bpEnc | bpFlush => exact .inr (by simp [mnemonicOf])
  | decode _ _ hi hx => exact .inl (exec_decode_frame _ hi _ _ hx).out
  | _ => exact .inl rfl

/-- Only the input commands, the decode commands and `SRST` write the queue and the reader (R44 to R46). -/
theorem Effect.reader_eq (e : Effect s i t) : t.reader = s.reader ∨
    mnemonicOf i ∈ ["IN.RST", "IN.BYTE", "IN.END", "IN.BIT", "DEC.BIT", "DEC.SYM", "DEC.RUN", "SRST"] := by
  cases e with
  | srst | inRst | inByte | inEnd | inBit => exact .inr (by simp [mnemonicOf])
  | decode _ _ hi => rcases hi with rfl | rfl | rfl <;> exact .inr (by decide)
  | _ => exact .inl rfl

/-- Only the decode commands write `DECOUT` (R53). -/
theorem Effect.decout_eq (e : Effect s i t) :
    t.decout = s.decout ∨ mnemonicOf i ∈ ["DEC.BIT", "DEC.SYM", "DEC.RUN"] := by
  cases e with
  | decode _ _ hi => rcases hi with rfl | rfl | rfl <;> exact .inr (by decide)
  | _ => exact .inl rfl

/-! ## Completion -/

/-- Every effect ends with a response (R83, R91). -/
theorem Effect.lastReply_eq_some (e : Effect s i t) : ∃ c d, t.lastReply = some (c, d) := by
  cases e with
  | fault => exact ⟨_, _, lastReply_raise _ _ _⟩
  | bpPut | bpEnc => exact ⟨_, _, lastReply_writeCode _ _⟩
  | decode _ _ hi hx =>
    obtain ⟨u, r, -, rfl⟩ := exec_decode_reply _ hi _ _ hx
    exact ⟨_, _, lastReply_respond _ _ _⟩
  | _ => exact ⟨_, _, lastReply_respond _ _ _⟩

/-- `TB.STEP` finds two members to merge and an entry for the new node (R29, R132, R136). -/
theorem execTbStep_completes (h : TreeInv s.tree) : ∃ t, execTbStep s = .next t := by
  by_cases hs : s.tree.tstate = .building
  · obtain ⟨a, b, n, -, -, -, hm⟩ := h.mergeOnce_succeeds hs
    simp [execTbStep, hs, hm]
  · simp [execTbStep, hs]

/-- `TB.BUILD` needs nothing of the tree it replaces (R134). -/
theorem execTbBuild_completes (s : State) : ∃ t, execTbBuild s = .next t := by
  by_cases hl : presentSymbols s.freq = []
  · simp [execTbBuild, hl]
  · obtain ⟨t, hm, -⟩ := mergeAll_initialTree s.freq hl
    simp [execTbBuild, hl, hm]

/-- `CT.GEN`'s walk of a finished tree ends (R30, R156). -/
theorem execCtGen_completes (h : TreeInv s.tree) : ∃ t, execCtGen s = .next t := by
  by_cases hs : s.tree.tstate = .built
  · obtain ⟨l, hl, -⟩ := generated_table h hs
    simp [execCtGen, hs, hl]
  · simp [execCtGen, hs]

/-- Only the three commands that merge or walk need the tree's invariant; each branch of every other command is a next
state. -/
theorem exec_completes (i : Instr) (h : TreeInv s.tree) : ∃ t, exec i s = .next t := by
  cases i with
  | tbStep => exact execTbStep_completes h
  | tbBuild => exact execTbBuild_completes s
  | ctGen => exact execCtGen_completes h
  -- commands of one check
  | csrRd | fqSet | fqRd | tbInit | tbRdn | tbRdf | cwRd | ctFind | inBit | decRun =>
    dsimp only [exec, execCsrRd, execFqSet, execFqRd, execTbInit, execTbRdn, execTbRdf, execCwRd, execCtFind, execInBit,
      execDecRun]
    split <;> exact ⟨_, rfl⟩
  -- commands of more checks
  | fqInc | cwApp | ctIns | ctLkp | bpPut | bpEnc | bpFlush | inByte =>
    dsimp only [exec, execFqInc, execCwApp, execCtIns, execCtLkp, execBpPut, execBpEnc, execBpFlush, execInByte]
    repeat' split
    all_goals exact ⟨_, rfl⟩
  | _ => exact ⟨_, rfl⟩

end

/-- Settles O45, index space by index space. -/
theorem indexSpacesAreWrittenOnlyByTheirCommands : Obligations.IndexSpacesAreWrittenOnlyByTheirCommands := by
  intro i s t h
  have e := exec_effect h
  exact ⟨e.freq_eq.resolve_right, e.tree_eq.resolve_right, e.table_eq.resolve_right, e.cwr_eq.resolve_right⟩

/-- Settles O46, unit by unit. -/
theorem unitRegistersAreWrittenOnlyByTheirCommands : Obligations.UnitRegistersAreWrittenOnlyByTheirCommands := by
  intro i s t h
  have e := exec_effect h
  exact ⟨e.writer_eq.resolve_right, e.out_eq.resolve_right, e.reader_eq.resolve_right, e.decoder_eq.resolve_right,
    e.decout_eq.resolve_right⟩

/-- Settles O50: under the tree's invariant a command answers a next state, and each effect ends with a response. -/
theorem everyCommandCompletes : Obligations.EveryCommandCompletes := by
  intro i s h
  obtain ⟨t, ht⟩ := exec_completes i h
  obtain ⟨c, d, hr⟩ := (exec_effect ht).lastReply_eq_some
  exact ⟨t, c, d, ht, hr⟩

end Sys2Proof.Machine
end

section
/-! SUPPORT. The decoder, the encoder and the rows of the opcode map agree (spec/30_encoding.md rules R92 to R99). -/

namespace Sys2Proof

/-! ## Decoding a command's own word -/

section
variable {op : BitVec 8}

theorem decode_commandWord_plain {i : Instr} (h : shapeOf op = some (.plain i)) :
    decode (commandWord op 0#16 0#32) = .ok i := by
  simp [decode, opField_commandWord, rsvField_commandWord, aField_commandWord, immField_commandWord, h]

theorem decode_commandWord_withA {mk : BitVec 16 → Instr} (h : shapeOf op = some (.withA mk)) (a : BitVec 16) :
    decode (commandWord op a 0#32) = .ok (mk a) := by
  simp [decode, opField_commandWord, rsvField_commandWord, aField_commandWord, immField_commandWord, h]

theorem decode_commandWord_withAImm {mk : BitVec 16 → BitVec 32 → Instr} (h : shapeOf op = some (.withAImm mk))
    (a : BitVec 16) (imm : BitVec 32) : decode (commandWord op a imm) = .ok (mk a imm) := by
  simp [decode, opField_commandWord, rsvField_commandWord, aField_commandWord, immField_commandWord, h]

end

/-- One case per shape: the opcode that `encode` writes is the one `shapeOf` names the command by. -/
theorem decode_encode (i : Instr) : decode (encode i) = .ok i := by
  cases i with
  | fqSet | cwApp => exact decode_commandWord_withAImm rfl _ _
  | csrRd | fqInc | fqRd | tbRdn | tbRdf | cwRd | ctIns | ctLkp | bpEnc | inByte => exact decode_commandWord_withA rfl _
  | _ => exact decode_commandWord_plain rfl

theorem eq_ofNat_of_toNat_eq {n k : Nat} {x : BitVec n} (h : x.toNat = k) : x = BitVec.ofNat n k := by
  rw [← h, BitVec.ofNat_toNat, BitVec.setWidth_eq]

/-- The opcode table's number of a word is the word. -/
theorem tableWord_toNat (w : Word) : tableWord 64 w.toNat = w := by
  rw [tableWord, Nat.mod_eq_of_lt w.isLt]
  exact (eq_ofNat_of_toNat_eq rfl).symm

/-- Settles O2: the decoder reads back each field that the encoder wrote. -/
theorem everyCommandDecodesFromItsWord : Obligations.EveryCommandDecodesFromItsWord := by
  refine fun i => ⟨decode_encode i, ?_⟩
  rw [decodeTableWord, tableWord_toNat, decode_encode]

/-! ## Encoding a decoded word -/

/-- The commands of a shape are encoded with the opcode `op` and the shape's own fields. -/
def Shape.EncodesWith (op : BitVec 8) : Shape → Prop
  | .plain i => encode i = commandWord op 0#16 0#32
  | .withA mk => ∀ a, encode (mk a) = commandWord op a 0#32
  | .withAImm mk => ∀ a imm, encode (mk a imm) = commandWord op a imm

/-- The encoder writes the opcode that the decoder's map reads, row by row of the map (R96). -/
theorem shapeOf_encodesWith {op : BitVec 8} {sh : Shape} (h : shapeOf op = some sh) : sh.EncodesWith op := by
  unfold shapeOf at h
  split at h <;> cases h
  all_goals
    rename_i hop
    obtain rfl := eq_ofNat_of_toNat_eq hop
    simp [Shape.EncodesWith, encode]

/-- What decoding keeps of a word: the opcode's shape and `RSV = 0`; a field that it does not hand on is 0 (R94). -/
theorem encode_of_decode {w : Word} {i : Instr} (h : decode w = .ok i) : encode i = w := by
  unfold decode at h
  split at h
  · cases h
  rename_i sh hsh
  have henc := shapeOf_encodesWith hsh
  split at h
  · cases h
  rename_i hrsv
  have hw := commandWord_fields w (not_not.mp hrsv)
  cases sh with
  | plain j =>
    dsimp only at h
    split at h
    · cases h
    rename_i ha
    split at h <;> cases h
    rename_i himm
    rw [henc, ← not_not.mp ha, ← not_not.mp himm, hw]
  | withA mk =>
    dsimp only at h
    split at h <;> cases h
    rename_i himm
    rw [henc, ← not_not.mp himm, hw]
  | withAImm mk =>
    cases h
    rw [henc, hw]

/-- Settles O3: the encoder puts back the fields that the decoder read. -/
theorem decodedWordIsItsCommandsWord : Obligations.DecodedWordIsItsCommandsWord := fun _ _ => encode_of_decode

/-- A word decodes to a command exactly if it is the command's word. -/
theorem decode_eq_ok_iff (w : Word) (i : Instr) : decode w = .ok i ↔ encode i = w :=
  ⟨encode_of_decode, fun h => h ▸ decode_encode i⟩

/-! ## The rows of the opcode map -/

/-- Every command's word spells the command's own row, constructor by constructor. -/
theorem encode_spells_own_row : ∀ i : Instr, Laws.EncodingRow.Statement i
  | .nop => Laws.EncodingRow.nop
  | .srst => Laws.EncodingRow.srst
  | .csrRd a => Laws.EncodingRow.csrRd a
  | .errClr => Laws.EncodingRow.errClr
  | .fqClr => Laws.EncodingRow.fqClr
  | .fqSet a imm => Laws.EncodingRow.fqSet a imm
  | .fqInc a => Laws.EncodingRow.fqInc a
  | .fqRd a => Laws.EncodingRow.fqRd a
  | .tbInit => Laws.EncodingRow.tbInit
  | .tbStep => Laws.EncodingRow.tbStep
  | .tbBuild => Laws.EncodingRow.tbBuild
  | .tbRdn a => Laws.EncodingRow.tbRdn a
  | .tbRdf a => Laws.EncodingRow.tbRdf a
  | .tbFree => Laws.EncodingRow.tbFree
  | .cwClr => Laws.EncodingRow.cwClr
  | .cwApp a imm => Laws.EncodingRow.cwApp a imm
  | .cwRd a => Laws.EncodingRow.cwRd a
  | .ctClr => Laws.EncodingRow.ctClr
  | .ctGen => Laws.EncodingRow.ctGen
  | .ctIns a => Laws.EncodingRow.ctIns a
  | .ctLkp a => Laws.EncodingRow.ctLkp a
  | .ctFind => Laws.EncodingRow.ctFind
  | .bpRst => Laws.EncodingRow.bpRst
  | .bpPut => Laws.EncodingRow.bpPut
  | .bpEnc a => Laws.EncodingRow.bpEnc a
  | .bpFlush => Laws.EncodingRow.bpFlush
  | .inRst => Laws.EncodingRow.inRst
  | .inByte a => Laws.EncodingRow.inByte a
  | .inEnd => Laws.EncodingRow.inEnd
  | .inBit => Laws.EncodingRow.inBit
  | .decRst => Laws.EncodingRow.decRst
  | .decBit => Laws.EncodingRow.decBit
  | .decSym => Laws.EncodingRow.decSym
  | .decRun => Laws.EncodingRow.decRun

/-- The rows differ in their mnemonics. -/
theorem opcodeRows_mnemonics_nodup : (opcodeRows.map OpcodeRow.mnemonic).Nodup := by decide

/-- The rows differ in `OP` (R99). -/
theorem opcodeRows_differ_in_op : opcodeRows.Pairwise fun r q =>
    r.pattern &&& 0xFF00000000000000#64 ≠ q.pattern &&& 0xFF00000000000000#64 := by decide

/-- Every mask covers `OP` (R99). -/
theorem opcodeRows_masks_cover_op : ∀ r ∈ opcodeRows, r.mask &&& 0xFF00000000000000#64 = 0xFF00000000000000#64 := by
  decide

/-! ## A word that matches a row -/

/-- A mask that covers a field leaves it. -/
theorem extractLsb'_eq_of_and {w m v : Word} {lo n : Nat} (hm : m.extractLsb' lo n = BitVec.allOnes n)
    (h : w &&& m = v) : w.extractLsb' lo n = v.extractLsb' lo n := by
  rw [← h, BitVec.extractLsb'_and, hm, BitVec.and_allOnes]

/-- The mask of a shape's rows (R96). -/
def Shape.mask : Shape → Word
  | .plain _ => 0xFFFFFFFFFFFFFFFF#64
  | .withA _ => 0xFFFF0000FFFFFFFF#64
  | .withAImm _ => 0xFFFF000000000000#64

/-- Every mask covers `OP` and `RSV`. -/
theorem Shape.mask_covers (sh : Shape) :
    opField sh.mask = BitVec.allOnes 8 ∧ rsvField sh.mask = BitVec.allOnes 8 := by
  cases sh <;> dsimp only [Shape.mask] <;> decide

/-- A word that a shape's mask takes to an opcode is that opcode with the word's operand fields. -/
theorem Shape.commandWord_of_and_mask (sh : Shape) {w : Word} {op : BitVec 8}
    (h : w &&& sh.mask = commandWord op 0#16 0#32) : commandWord op (aField w) (immField w) = w := by
  obtain ⟨ho, hr⟩ := sh.mask_covers
  have hop : opField w = op := (extractLsb'_eq_of_and ho h).trans (opField_commandWord _ _ _)
  rw [← hop]
  exact commandWord_fields w ((extractLsb'_eq_of_and hr h).trans (rsvField_commandWord _ _ _))

/-- Every command of the shape has the mnemonic `m`. -/
def Shape.Named (m : String) : Shape → Prop
  | .plain i => mnemonicOf i = m
  | .withA mk => ∀ a, mnemonicOf (mk a) = m
  | .withAImm mk => ∀ a imm, mnemonicOf (mk a imm) = m

/-- A word that a shape's mask takes to its opcode is the word of a command of that shape. -/
theorem Shape.exists_command_of_and_mask {sh : Shape} {op : BitVec 8} {m : String} (henc : sh.EncodesWith op)
    (hm : sh.Named m) {w : Word} (h : w &&& sh.mask = commandWord op 0#16 0#32) :
    ∃ i, encode i = w ∧ mnemonicOf i = m := by
  cases sh with
  | plain i =>
    have hw : w = commandWord op 0#16 0#32 := BitVec.and_allOnes.symm.trans h
    exact ⟨i, henc.trans hw.symm, hm⟩
  | withA mk =>
    have hw := Shape.commandWord_of_and_mask _ h
    have hcover : immField 0xFFFF0000FFFFFFFF#64 = BitVec.allOnes 32 := by decide
    have himm : immField w = 0#32 := (extractLsb'_eq_of_and hcover h).trans (immField_commandWord _ _ _)
    exact ⟨mk (aField w), by rw [henc, ← himm, hw], hm _⟩
  | withAImm mk =>
    have hw := Shape.commandWord_of_and_mask _ h
    exact ⟨mk (aField w) (immField w), by rw [henc, hw], hm _ _⟩

/-- The decoder's map has every row's opcode, with the row's mask and mnemonic (R96). -/
theorem opcodeRow_shape : ∀ r ∈ opcodeRows,
    ∃ sh, shapeOf (opField r.pattern) = some sh ∧ sh.mask = r.mask ∧ sh.Named r.mnemonic := by
  simp only [opcodeRows, List.cons_append, List.nil_append, List.forall_mem_cons, List.not_mem_nil, false_imp_iff,
    implies_true, and_true]
  and_intros
  all_goals
    refine ⟨_, rfl, rfl, ?_⟩
    simp [Shape.Named, mnemonicOf]

/-- A row's match is its opcode and zeros (R96). -/
theorem opcodeRow_pattern : ∀ r ∈ opcodeRows, r.pattern = commandWord (opField r.pattern) 0#16 0#32 := by decide

/-- A word that matches a row is the word of one of the row's commands. -/
theorem exists_command_of_row {r : OpcodeRow} (hr : r ∈ opcodeRows) {w : Word} (h : w &&& r.mask = r.pattern) :
    ∃ i, encode i = w ∧ mnemonicOf i = r.mnemonic := by
  obtain ⟨sh, hsh, hmask, hname⟩ := opcodeRow_shape r hr
  refine Shape.exists_command_of_and_mask (shapeOf_encodesWith hsh) hname ?_
  rw [hmask, h, ← opcodeRow_pattern r hr]

/-- A command's word matches the row of its mnemonic. -/
theorem encode_and_mask {i : Instr} {r : OpcodeRow} (hr : r ∈ opcodeRows) (h : mnemonicOf i = r.mnemonic) :
    encode i &&& r.mask = r.pattern := by
  obtain ⟨q, hq, hname, hw⟩ := encode_spells_own_row i
  rwa [List.inj_on_of_nodup_map opcodeRows_mnemonics_nodup hr hq (h.symm.trans hname.symm)]

/-- Settles O4, each direction through the command's own word. -/
theorem wordSpellsTheCommandOfItsRow : Obligations.WordSpellsTheCommandOfItsRow := by
  refine fun w r hr => ⟨fun h => ?_, fun ⟨i, hd, hname⟩ => ?_⟩
  · obtain ⟨i, rfl, hname⟩ := exists_command_of_row hr h
    exact ⟨i, decode_encode i, hname⟩
  · rw [← encode_of_decode hd]
    exact encode_and_mask hr hname

/-- Two rows that one word matches have one `OP`, so they are one row (R99). -/
theorem opcodeRow_unique {w : Word} {r q : OpcodeRow} (hr : r ∈ opcodeRows) (hq : q ∈ opcodeRows)
    (h : w &&& r.mask = r.pattern) (k : w &&& q.mask = q.pattern) : r = q := by
  have hop : ∀ p ∈ opcodeRows, w &&& p.mask = p.pattern →
      p.pattern &&& 0xFF00000000000000#64 = w &&& 0xFF00000000000000#64 := fun p hp hw => by
    rw [← hw, BitVec.and_assoc, opcodeRows_masks_cover_op p hp]
  exact List.inj_on_of_nodup_map (List.pairwise_map.mpr opcodeRows_differ_in_op) hr hq
    ((hop r hr h).trans (hop q hq k).symm)

/-- A word decodes exactly if it matches a row (R96, R99). -/
theorem decode_ok_or_error (w : Word) : (∃ i, decode w = .ok i ∧ ∃ r ∈ opcodeRows, w &&& r.mask = r.pattern) ∨
    ((∃ e, decode w = .error e) ∧ ∀ r ∈ opcodeRows, w &&& r.mask ≠ r.pattern) := by
  cases hd : decode w with
  | ok i =>
    obtain ⟨r, hr, -, h⟩ := encode_spells_own_row i
    exact .inl ⟨i, rfl, r, hr, encode_of_decode hd ▸ h⟩
  | error e =>
    refine .inr ⟨⟨e, rfl⟩, fun r hr h => ?_⟩
    obtain ⟨i, rfl, -⟩ := exists_command_of_row hr h
    simp [decode_encode] at hd

/-- Settles O5: the rows by inspection, the words through the rows' commands. -/
theorem opcodeRowsDoNotOverlap : Obligations.OpcodeRowsDoNotOverlap :=
  ⟨rfl, opcodeRows_masks_cover_op, opcodeRows_differ_in_op, fun _ _ hr _ hq => opcodeRow_unique hr hq, decode_ok_or_error⟩

/-- Settles O1: the words are fixed, so the decoder evaluates. -/
theorem workedEncodingsDecodeAsStated : Obligations.WorkedEncodingsDecodeAsStated :=
  ⟨rfl, rfl, rfl, rfl, rfl, rfl, fun _ => rfl⟩

end Sys2Proof
end

section
/-! SUPPORT. A step with a command word waiting: the commands, the illegal words and the transactions (spec/30_encoding.md
rules R91, R94, R98; 10_state.md rules R52, R53). -/

namespace Sys2Proof.Machine

/-! ## The step -/

section
variable {s : State} {w : Word} {rest : List HostInput}

theorem step_of_decode_ok (hp : s.pending = .command w :: rest) {i : Instr} (hd : decode w = .ok i) :
    step s = exec i (s.accept w rest) := by
  simp only [step, hp, hd]

theorem step_of_decode_error (hp : s.pending = .command w :: rest) {e : DecodeReject} (hd : decode w = .error e) :
    step s = .next (s.accept w rest).answerIllegal := by
  simp only [step, hp, hd]

end

/-- Settles O7: `accept` is the input taken and the `cmd` transaction recorded. -/
theorem stepRunsTheDecodedCommand : Obligations.StepRunsTheDecodedCommand :=
  ⟨fun _ _ _ _ hp hd => step_of_decode_ok hp hd, fun s hp => by simp only [step, hp]⟩

/-! ## Illegal words -/

/-- The ranges of opcodes that R98 lists name no command. -/
theorem shapeOf_unlisted {op : BitVec 8} (h : (0x04 ≤ op.toNat ∧ op.toNat ≤ 0x0F) ∨ (0x14 ≤ op.toNat ∧ op.toNat ≤ 0x1F) ∨
    (0x26 ≤ op.toNat ∧ op.toNat ≤ 0x2F) ∨ (0x33 ≤ op.toNat ∧ op.toNat ≤ 0x37) ∨ (0x3D ≤ op.toNat ∧ op.toNat ≤ 0x3F) ∨
    (0x44 ≤ op.toNat ∧ op.toNat ≤ 0x4F) ∨ (0x54 ≤ op.toNat ∧ op.toNat ≤ 0x5F) ∨ 0x64 ≤ op.toNat) :
    shapeOf op = none := by
  unfold shapeOf
  split
  case h_35 => rfl
  all_goals omega

/-- An opcode that names no command is refused first (R94). -/
theorem decode_of_shapeOf_none {w : Word} (h : shapeOf (opField w) = none) : decode w = .error .unknownOp := by
  simp only [decode, h]

/-- A command's word has `RSV = 0` (R92). -/
theorem rsvField_encode (i : Instr) : rsvField (encode i) = 0#8 := by
  cases i <;> exact rsvField_commandWord _ _ _

/-- A word with `RSV ≠ 0` is refused (R94). -/
theorem decode_of_rsvField_ne {w : Word} (h : rsvField w ≠ 0#8) : ∃ e, decode w = .error e := by
  cases hd : decode w with
  | ok i => exact absurd (encode_of_decode hd ▸ rsvField_encode i) h
  | error e => exact ⟨e, rfl⟩

/-- Settles O6: each of its words is refused by the decoder, and the step answers every refusal alike. -/
theorem illegalWordChangesOnlyTheErrorRegisters : Obligations.IllegalWordChangesOnlyTheErrorRegisters := by
  intro s w rest hp h
  have hd : ∃ e, decode w = .error e := by
    rcases h with hrow | hrsv | hop
    · rcases decode_ok_or_error w with ⟨-, -, r, hr, hw⟩ | ⟨hd, -⟩
      · exact absurd hw (hrow r hr)
      · exact hd
    · exact decode_of_rsvField_ne hrsv
    · exact ⟨_, decode_of_shapeOf_none (shapeOf_unlisted hop)⟩
  obtain ⟨e, he⟩ := hd
  have hports : s.ports ++ [.cmd w] ++ [.rsp 1#8 0#64] = s.ports ++ [.cmd w, .rsp 1#8 0#64] := List.append_assoc _ _ _
  rw [step_of_decode_error hp he, ← hports]
  rfl

/-! ## The transactions of a command -/

/-- `t` follows `s` after the transactions `evs`: bytes that leave on `out` and `dec`, and on the logs (R52, R53, R81). -/
structure EmitsBytes (s : State) (evs : List PortEvent) (t : State) : Prop where
  ports : t.ports = s.ports ++ evs
  bytes : ∀ e ∈ evs, (∃ b, e = .out b) ∨ ∃ b, e = .dec b
  out : t.out = s.out ++ evs.filterMap PortEvent.outByte
  decout : t.decout = s.decout ++ evs.filterMap PortEvent.decByte

/-- `t` follows `s` after bytes alone. -/
def Emits (s t : State) : Prop := ∃ evs, EmitsBytes s evs t

theorem Emits.none {s t : State} (hp : t.ports = s.ports) (ho : t.out = s.out) (hd : t.decout = s.decout) :
    Emits s t :=
  ⟨[], by simp [hp], by simp, by simp [ho], by simp [hd]⟩

theorem Emits.refl (s : State) : Emits s s := .none rfl rfl rfl

theorem Emits.trans {s t u : State} : Emits s t → Emits t u → Emits s u := by
  rintro ⟨es, h⟩ ⟨fs, k⟩
  exact ⟨es ++ fs, by simp [h.ports, k.ports], by simpa [or_imp, forall_and] using ⟨h.bytes, k.bytes⟩,
    by simp [h.out, k.out], by simp [h.decout, k.decout]⟩

/-- A byte that leaves on `dec`. -/
theorem Emits.decByte {s t : State} {b : Byte} (hp : t.ports = s.ports ++ [.dec b]) (ho : t.out = s.out)
    (hd : t.decout = s.decout ++ [b]) : Emits s t :=
  ⟨[.dec b], hp, by simp, by simp [ho, PortEvent.outByte], by simp [hd, PortEvent.decByte]⟩

/-- Bytes that leave on `out`. -/
theorem emits_emitOut (s : State) (bs : List Byte) : Emits s (s.emitOut bs) := by
  have hout : (bs.map PortEvent.out).filterMap PortEvent.outByte = bs :=
    List.filterMap_map.trans List.filterMap_some
  exact ⟨bs.map .out, rfl, by simp, by rw [hout, State.emitOut_out], by simp [PortEvent.decByte]⟩

theorem BitEffect.emits {s t : State} (e : BitEffect s t) : Emits s t := by
  cases e with
  | literal => exact .decByte rfl rfl rfl
  | _ => exact .none rfl rfl rfl

/-- `t` follows `s` after bytes and then one response (R91). -/
def EmitsThenResponds (s t : State) : Prop :=
  ∃ u c d, Emits s u ∧ t.ports = u.ports ++ [.rsp c d] ∧ t.out = u.out ∧ t.decout = u.decout

theorem Emits.answered {s u t : State} (h : Emits s u) {c : Byte} {d : Word} (hp : t.ports = u.ports ++ [.rsp c d])
    (ho : t.out = u.out) (hd : t.decout = u.decout) : EmitsThenResponds s t :=
  ⟨u, c, d, h, hp, ho, hd⟩

theorem exec_decode_emits {i : Instr} (hi : i = .decBit ∨ i = .decSym ∨ i = .decRun) {s t : State}
    (h : exec i s = .next t) : EmitsThenResponds s t := by
  have hb : ∀ s, Emits s (decodeBit s).1 := fun s => (decodeBit_effect s).emits
  rcases hi with rfl | rfl | rfl
  · cases h; exact (hb s).answered rfl rfl rfl
  · cases h; exact (decodeSymbol_induct Emits (fun _ _ _ => .trans) hb _ s).answered rfl rfl rfl
  · have hr := decodeRun_induct Emits (fun _ _ _ => .trans) hb s.reader.available s
    simp only [exec, execDecRun] at h
    split at h <;> cases h <;> exact hr.answered rfl rfl rfl

/-- Every command emits its bytes, then responds once (R91). -/
theorem Effect.emitsThenResponds {s t : State} {i : Instr} (e : Effect s i t) : EmitsThenResponds s t := by
  cases e with
  | bpPut | bpEnc | bpFlush => exact (emits_emitOut s _).answered rfl rfl rfl
  | decode _ _ hi hx => exact exec_decode_emits hi hx
  | _ => exact (Emits.refl s).answered rfl rfl rfl

/-- Settles O41: an illegal word emits nothing, a command its bytes; each then responds once. -/
theorem commandEmitsThenRespondsOnce : Obligations.CommandEmitsThenRespondsOnce := by
  intro s t w rest hp hstep
  have h : EmitsThenResponds (s.accept w rest) t := by
    cases hd : decode w with
    | ok i => exact (exec_effect (step_of_decode_ok hp hd ▸ hstep)).emitsThenResponds
    | error e =>
      rw [step_of_decode_error hp hd] at hstep
      cases hstep
      exact (Emits.refl _).answered rfl rfl rfl
  obtain ⟨u, c, d, ⟨evs, hu⟩, hports, hout, hdecout⟩ := h
  exact ⟨evs, c, d, by rw [hports, hu.ports, State.accept_ports], hu.bytes, hout.trans hu.out, hdecout.trans hu.decout⟩

end Sys2Proof.Machine
end

section
/-! SUPPORT. BAD_OPERAND is answered exactly where an operand is out of range (spec/30_encoding.md rules R93, R94;
60_exceptions.md rule R245): the machine's operand readers against the ranges of `WellFormed`. -/

namespace Sys2Proof.Machine

/-! ## The operand readers -/

theorem isSome_dite_eq_decide {α : Type} {p q : Prop} [Decidable p] [Decidable q] {f : p → α} (h : p ↔ q) :
    (if hp : p then some (f hp) else none).isSome = decide q := by
  by_cases hp : p
  · simp [hp, h.mp hp]
  · simp [hp, mt h.mpr hp]

section
variable {α : Type} {o : Option α} {b : Bool} (ho : o.isSome = b)
include ho

theorem operand_eq_none (hb : b = false) : o = none := by simpa [hb] using ho

theorem exists_operand (hb : b = true) : ∃ x, o = some x := Option.isSome_iff_exists.mp (ho.trans hb)

end

section
variable (a : BitVec 16) (imm : BitVec 32)

theorem symbolOperand_isSome : (symbolOperand a).isSome = symbolInRange a := isSome_dite_eq_decide Nat.lt_succ_iff

theorem byteOperand_isSome : (byteOperand a).isSome = byteInRange a := isSome_dite_eq_decide Iff.rfl

theorem literalOperand_isSome : (literalOperand a).isSome = byteInRange a := isSome_dite_eq_decide Nat.lt_succ_iff

theorem nodeOperand_isSome : (nodeOperand a).isSome = nodeInRange a := isSome_dite_eq_decide Nat.lt_succ_iff

theorem wordOperand_isSome : (wordOperand a).isSome = wordInRange a := isSome_dite_eq_decide Nat.lt_succ_iff

theorem csrOperand_isSome : (csrOperand a).isSome = csrInRange a := by
  unfold csrOperand csrInRange
  split
  case h_17 =>
    simp only [imp_false] at *
    exact (decide_eq_false (by omega)).symm
  all_goals simp [*]

theorem bitsOperand_isSome : (bitsOperand a imm).isSome = bitsInRange a imm := by
  unfold bitsOperand bitsInRange
  split
  · simp; omega
  · split
    · simp; omega
    · simp; omega

variable {a} in
theorem symbolOperand_eq_sentinel_iff {x : Symbol} (h : symbolOperand a = some x) : x = sentinel ↔ a.toNat = 256 := by
  unfold symbolOperand at h
  split at h <;> cases h
  exact Fin.ext_iff

theorem countOperands_isSome (c : Config) :
    (countOperands c a imm).isSome = (symbolInRange a && countInRange c a imm) := by
  rw [← symbolOperand_isSome]
  unfold countOperands countInRange
  cases hx : symbolOperand a with
  | none => rfl
  | some x =>
    simp only [symbolOperand_eq_sentinel_iff hx]
    split
    · have hc : ¬ imm.toNat ≤ c.cntMax := Nat.not_le.mpr ‹_›
      simp [hc]
    · have hc : imm.toNat ≤ c.cntMax := Nat.not_lt.mp ‹_›
      simp only [hc, Option.isSome_some, decide_true, Bool.true_and]
      split
      · simp [*]
      · simpa using not_and_or.mp ‹¬ (_ ∧ _)›

end

/-! ## The commands -/

/-- The operand is out of range: the command is refused and changes nothing else (R94, R245). -/
theorem exec_of_not_wellFormed {i : Instr} {s : State} (h : WellFormed s.cfg i = false) :
    exec i s = .next (s.faulted 2#8) := by
  cases i with
  | csrRd a => simp only [exec, execCsrRd, operand_eq_none (csrOperand_isSome a) h]; rfl
  | fqSet a imm => simp only [exec, execFqSet, operand_eq_none (countOperands_isSome a imm s.cfg) h]; rfl
  | fqInc a => simp only [exec, execFqInc, operand_eq_none (literalOperand_isSome a) h]; rfl
  | fqRd a | ctIns a | ctLkp a | bpEnc a =>
    simp only [exec, execFqRd, execCtIns, execCtLkp, execBpEnc, operand_eq_none (symbolOperand_isSome a) h]; rfl
  | tbRdn a | tbRdf a => simp only [exec, execTbRdn, execTbRdf, operand_eq_none (nodeOperand_isSome a) h]; rfl
  | cwApp a imm => simp only [exec, execCwApp, operand_eq_none (bitsOperand_isSome a imm) h]; rfl
  | cwRd a => simp only [exec, execCwRd, operand_eq_none (wordOperand_isSome a) h]; rfl
  | inByte a => simp only [exec, execInByte, operand_eq_none (byteOperand_isSome a) h]; rfl
  | _ => cases h

theorem RspCode.num_ne_of_ne_badOperand {c : RspCode} (h : c ≠ .badOperand) : c.num ≠ 2#8 := by
  cases c with
  | badOperand => exact absurd rfl h
  | _ => exact (by decide)

/-- A result whose response, if there is one, is not BAD_OPERAND. -/
def NotBadOperand (r : Result) : Prop := ∀ t d, r = .next t → t.lastReply ≠ some (2#8, d)

theorem notBadOperand_respond (s : State) {c : RspCode} (d : Word) (hc : c ≠ .badOperand) :
    NotBadOperand (.next (s.respond c d)) := by
  rintro t e ⟨⟩ hr
  rw [lastReply_respond, Option.some.injEq, Prod.mk.injEq] at hr
  exact RspCode.num_ne_of_ne_badOperand hc hr.1

theorem notBadOperand_fault (e : Fault) : NotBadOperand (.fault e) := nofun

theorem exec_decode_notBadOperand {i : Instr} (hi : i = .decBit ∨ i = .decSym ∨ i = .decRun) (s : State) :
    NotBadOperand (exec i s) := by
  intro t d h
  obtain ⟨u, r, hr, rfl⟩ := exec_decode_reply i hi s t h
  exact notBadOperand_respond u _ (fun hc => by simpa [hc] using hr.codes) _ _ rfl

/-- With every operand in range no branch of a command answers BAD_OPERAND. -/
theorem exec_of_wellFormed {i : Instr} {s : State} (h : WellFormed s.cfg i = true) : NotBadOperand (exec i s) := by
  cases i with
  -- commands with an operand
  | csrRd a =>
    obtain ⟨x, hx⟩ := exists_operand (csrOperand_isSome a) h
    simp only [exec, execCsrRd, hx]
    exact notBadOperand_respond _ _ (by decide)
  | fqSet a imm =>
    obtain ⟨x, hx⟩ := exists_operand (countOperands_isSome a imm s.cfg) h
    simp only [exec, execFqSet, hx]
    exact notBadOperand_respond _ _ (by decide)
  | fqInc a =>
    obtain ⟨x, hx⟩ := exists_operand (literalOperand_isSome a) h
    simp only [exec, execFqInc, hx]
    split <;> exact notBadOperand_respond _ _ (by decide)
  | fqRd a | ctIns a | ctLkp a | bpEnc a =>
    obtain ⟨x, hx⟩ := exists_operand (symbolOperand_isSome a) h
    simp only [exec, execFqRd, execCtIns, execCtLkp, execBpEnc, hx]
    repeat' split
    all_goals exact notBadOperand_respond _ _ (by decide)
  | tbRdn a | tbRdf a =>
    obtain ⟨x, hx⟩ := exists_operand (nodeOperand_isSome a) h
    simp only [exec, execTbRdn, execTbRdf, hx]
    exact notBadOperand_respond _ _ (by decide)
  | cwApp a imm =>
    obtain ⟨x, hx⟩ := exists_operand (bitsOperand_isSome a imm) h
    simp only [exec, execCwApp, hx]
    split <;> exact notBadOperand_respond _ _ (by decide)
  | cwRd a =>
    obtain ⟨x, hx⟩ := exists_operand (wordOperand_isSome a) h
    simp only [exec, execCwRd, hx]
    exact notBadOperand_respond _ _ (by decide)
  | inByte a =>
    obtain ⟨x, hx⟩ := exists_operand (byteOperand_isSome a) h
    simp only [exec, execInByte, hx]
    repeat' split
    all_goals exact notBadOperand_respond _ _ (by decide)
  -- commands without one
  | tbInit | ctFind | bpPut | bpFlush | inBit =>
    dsimp only [exec, execTbInit, execCtFind, execBpPut, execBpFlush, execInBit]
    repeat' split
    all_goals exact notBadOperand_respond _ _ (by decide)
  | tbStep | ctGen =>
    dsimp only [exec, execTbStep, execCtGen]
    split
    · split
      · exact notBadOperand_fault _
      · exact notBadOperand_respond _ _ (by decide)
    · exact notBadOperand_respond _ _ (by decide)
  | tbBuild =>
    dsimp only [exec, execTbBuild]
    split
    · exact notBadOperand_respond _ _ (by decide)
    · split
      · exact notBadOperand_fault _
      · exact notBadOperand_respond _ _ (by decide)
  | decBit => exact exec_decode_notBadOperand (.inl rfl) s
  | decSym => exact exec_decode_notBadOperand (.inr (.inl rfl)) s
  | decRun => exact exec_decode_notBadOperand (.inr (.inr rfl)) s
  | _ => exact notBadOperand_respond _ _ (by decide)

/-- Settles O44, each direction through the operand readers. -/
theorem badOperandExactlyOutOfRange : Obligations.BadOperandExactlyOutOfRange :=
  fun _ _ => ⟨exec_of_not_wellFormed, exec_of_wellFormed⟩

end Sys2Proof.Machine
end

section
/-! SUPPORT. The frequency memory commands, each on an operand in range (spec/40_frequency_table.md rules R121 to R124);
out of range they are refused as every command is (`exec_of_not_wellFormed`). -/

namespace Sys2Proof.Machine

/-! ## The operand that a field names -/

section
variable {a : BitVec 16} {x : Symbol} (ha : a.toNat = x.val)
include ha

theorem symbolOperand_eq_some : symbolOperand a = some x := by
  simp [symbolOperand, ha]

theorem literalOperand_eq_some (hx : x.val ≤ 255) : literalOperand a = some x := by
  simp [literalOperand, ha, Nat.lt_succ_of_le hx]

/-- A count within `CNT_MAX`, at least 1 for the sentinel, is taken as it stands (R122). -/
theorem countOperands_eq_some {cfg : Config} {c : Count} (hc : c.toNat ≤ cfg.cntMax)
    (hs : x.val = 256 → 1 ≤ c.toNat) : countOperands cfg a c = some (x, c) := by
  have hz : ¬ (x = sentinel ∧ c = 0#32) := by
    rintro ⟨rfl, rfl⟩
    exact absurd (hs rfl) (by decide)
  simp only [countOperands, symbolOperand_eq_some ha, if_neg (Nat.not_lt.mpr hc), if_neg hz]

/-! ## The commands -/

theorem exec_fqSet_of_inRange {s : State} {c : Count} (hc : c.toNat ≤ s.cfg.cntMax)
    (hs : x.val = 256 → 1 ≤ c.toNat) :
    exec (.fqSet a c) s = .next ({ s with freq := s.freq.set x c }.answered 0#8 0#64) := by
  simp only [exec, execFqSet, countOperands_eq_some ha hc hs]
  rfl

theorem exec_fqInc_of_full {s : State} (hx : x.val ≤ 255) (hc : s.freq[x].toNat = s.cfg.cntMax) :
    exec (.fqInc a) s = .next (s.faulted 3#8) := by
  simp only [exec, execFqInc, literalOperand_eq_some ha hx, if_pos hc]
  rfl

theorem exec_fqInc_of_not_full {s : State} (hx : x.val ≤ 255) (hc : s.freq[x].toNat ≠ s.cfg.cntMax) :
    exec (.fqInc a) s =
      .next ({ s with freq := s.freq.set x (s.freq[x] + 1#32) }.answered 0#8 0#64) := by
  simp only [exec, execFqInc, literalOperand_eq_some ha hx, if_neg hc]
  rfl

theorem exec_fqRd_of_inRange (s : State) :
    exec (.fqRd a) s = .next (s.answered 0#8 (BitVec.ofNat 64 s.freq[x].toNat)) := by
  simp only [exec, execFqRd, symbolOperand_eq_some ha, BitVec.ofNat_toNat]
  rfl

end

/-- `FQ.SET`'s three refusals are its operands out of range (R122, R94). -/
theorem fqSet_not_wellFormed {cfg : Config} {a : BitVec 16} {c : Count}
    (h : 256 < a.toNat ∨ cfg.cntMax < c.toNat ∨ (a.toNat = 256 ∧ c.toNat = 0)) :
    WellFormed cfg (.fqSet a c) = false := by
  unfold WellFormed symbolInRange countInRange
  rcases h with ha | hc | ⟨ha, hc⟩
  · simp [Nat.not_le.mpr ha]
  · simp [Nat.not_le.mpr hc]
  · simp [ha, BitVec.eq_of_toNat_eq (y := 0#32) hc]

/-- Settles O12: the refusals by the operands' ranges, the results command by command. -/
theorem frequencyCommandsFollowTheirRules : Obligations.FrequencyCommandsFollowTheirRules := by
  refine ⟨fun s => ⟨freqReset, rfl, fun x => ?_⟩, fun s a c => ⟨fun h => ?_, fun x ha hc hs => ?_⟩,
    fun s a => ⟨fun h => ?_, fun x hx ha => ⟨fun hc => ?_, fun hc => ?_⟩⟩, fun s a => ⟨fun h => ?_, fun x ha => ?_⟩⟩
  -- FQ.CLR
  · have hx : sentinel = x ↔ x.val = 256 := eq_comm.trans Fin.ext_iff
    simp only [freqReset_getElem, hx]
  -- FQ.SET
  · exact exec_of_not_wellFormed (fqSet_not_wellFormed h)
  · exact exec_fqSet_of_inRange ha hc hs
  -- FQ.INC
  · exact exec_of_not_wellFormed (decide_eq_false (Nat.not_le.mpr h))
  · exact exec_fqInc_of_full ha hx hc
  · exact exec_fqInc_of_not_full ha hx hc
  -- FQ.RD
  · exact exec_of_not_wellFormed (decide_eq_false (Nat.not_le.mpr h))
  · exact exec_fqRd_of_inRange ha s

end Sys2Proof.Machine
end

section
/-! SUPPORT. The priority order on the queue, and the frequencies it compares (spec/00_scope.md rule R11;
41_tree_builder.md rules R132, R133, R140). -/

namespace Sys2Proof.Machine

/-! ## The order -/

section
variable {node : Vector Node 513} {a b c : ArenaIndex} {l : List ArenaIndex}

/-- The machine's comparison is R11's order. -/
theorem precedes_iff_before : precedes node a b = true ↔ Before node a b := precedes_iff node a b

theorem Before.asymm (h : Before node a b) : ¬ Before node b a := by
  rw [← precedes_iff_before] at h ⊢
  simp [precedes_asymm node a b h]

theorem Before.trans (hab : Before node a b) (hbc : Before node b c) : Before node a c := by
  unfold Before at *
  simp only [Fin.lt_def] at *
  omega

theorem before_or_before (h : node[a].key ≠ node[b].key) : Before node a b ∨ Before node b a := by
  simpa only [precedes_iff_before] using precedes_total node a b h

theorem key_ne_of_ne (hk : (l.map fun n => node[n].key).Nodup) (ha : a ∈ l) (hb : b ∈ l) (hne : a ≠ b) :
    node[a].key ≠ node[b].key :=
  fun h => hne (List.inj_on_of_nodup_map hk ha hb h)

/-- Among entries of distinct keys, the machine's `min≺` precedes every other one (R133). -/
theorem leastOf_of_leastNode (hk : (l.map fun n => node[n].key).Nodup) (h : leastNode node l = some a) :
    LeastOf node l a := by
  obtain ⟨ha, hl⟩ := leastNode_spec node l a h
  refine ⟨ha, fun m hm hne => (before_or_before (key_ne_of_ne hk ha hm hne.symm)).resolve_right fun hma => ?_⟩
  rw [← precedes_iff_before, hl m hm] at hma
  cases hma

theorem LeastOf.unique (ha : LeastOf node l a) (hb : LeastOf node l b) : b = a := by
  by_contra hne
  exact (ha.2 b hb.1 hne).asymm (hb.2 a ha.1 (Ne.symm hne))

theorem exists_leastOf (hk : (l.map fun n => node[n].key).Nodup) (hl : l ≠ []) : ∃ a, LeastOf node l a := by
  obtain ⟨a, ha⟩ := Option.ne_none_iff_exists'.mp (mt (leastNode_eq_none node l).mp hl)
  exact ⟨a, leastOf_of_leastNode hk ha⟩

end

/-- Settles O18: the keys in the queue are distinct (R30(c)), which makes the order total on it. -/
theorem queueOrderIsStrictAndTotal : Obligations.QueueOrderIsStrictAndTotal := by
  refine fun t h => ⟨fun a ha b hb hne => ?_, fun _ _ _ => Before.trans, fun hq => ?_⟩
  · have hk := key_ne_of_ne h.keysDistinct ha hb hne
    exact ⟨hk, (before_or_before hk).imp (fun h => ⟨h, h.asymm⟩) fun h => ⟨h, h.asymm⟩⟩
  · obtain ⟨a, ha⟩ := exists_leastOf h.keysDistinct hq
    exact ⟨a, ha, fun b => ha.unique⟩

/-! ## The frequencies -/

namespace TreeInv

variable {t : TreeUnit} {a b : ArenaIndex}

/-- A leaf's frequency is a 32-bit count (R25). -/
theorem leaf_freq_le (h : TreeInv t) {n : ArenaIndex} (hk : t.node[n].kind = .leaf) :
    t.node[n].freq.toNat ≤ 2 ^ 32 - 1 := by
  have hn := h.normal n
  simp only [NodeNormal, hk] at hn
  exact Nat.le_pred_of_lt hn.2.2.2

/-- Distinct leaves sum to at most 257 times the greatest count (R140). -/
theorem leaves_sum_le (h : TreeInv t) {l : List Symbol} (hl : l.Nodup)
    (hk : ∀ s ∈ l, t.node[leafIndex s].kind = .leaf) :
    (l.map fun s => t.node[leafIndex s].freq.toNat).sum ≤ 257 * (2 ^ 32 - 1) :=
  calc (l.map fun s => t.node[leafIndex s].freq.toNat).sum
    _ ≤ l.length * (2 ^ 32 - 1) := by
      simpa using List.sum_le_card_nsmul (l.map fun s => t.node[leafIndex s].freq.toNat) _
        (List.forall_mem_map.mpr fun s hs => h.leaf_freq_le (hk s hs))
    _ ≤ 257 * (2 ^ 32 - 1) := Nat.mul_le_mul_right _ (by simpa using hl.length_le_card)

/-- Two queued nodes stand over distinct leaves, so their frequencies together keep that bound (R140). -/
theorem queue_freq_add_le (h : TreeInv t) (ha : a ∈ t.pq) (hb : b ∈ t.pq) (hne : a ≠ b) :
    t.node[a].freq.toNat + t.node[b].freq.toNat ≤ 257 * (2 ^ 32 - 1) := by
  have hp : t.pq.Perm (a :: b :: (t.pq.erase a).erase b) :=
    (List.perm_cons_erase ha).trans ((List.perm_cons_erase ((List.mem_erase_of_ne hne.symm).mpr hb)).cons a)
  have hs := h.leaves_sum_le (h.leaves_nodup a b _ hp) fun s hs =>
    (List.mem_append.mp hs).elim (h.mem_leaves_kind _ s) (h.mem_leaves_kind _ s)
  rwa [List.map_append, List.sum_append, ← h.freqSum a (h.queue_used a ha),
    ← h.freqSum b (h.queue_used b hb)] at hs

end TreeInv

/-- Settles O15: the sum stays within 257 times the greatest count, which is below `2^41`. -/
theorem mergedFrequencyIsTheExactSum : Obligations.MergedFrequencyIsTheExactSum := by
  intro t h a ha b hb hne
  have hs := h.queue_freq_add_le ha hb hne
  exact ⟨by rw [BitVec.toNat_add]; exact Nat.mod_eq_of_lt (by omega), by omega⟩

end Sys2Proof.Machine
end

section
/-! SUPPORT. `TB.INIT` and `TB.STEP` (spec/41_tree_builder.md rules R131, R132, R135). -/

namespace Sys2Proof.Machine

/-! ## The counted symbols -/

theorem presentSymbols_nodup (freq : Vector Count 257) : (presentSymbols freq).Nodup :=
  (presentSymbols_rising freq).imp ne_of_lt

section
variable {s : State} {l : List Symbol} (hl : l.Nodup) (hm : ∀ x, x ∈ l ↔ 0 < s.freq[x].toNat)
include hl hm

/-- A list of the symbols of non-zero count is the machine's `L` in some order. -/
theorem presentSymbols_perm : (presentSymbols s.freq).Perm l := by
  refine (List.perm_ext_iff_of_nodup (presentSymbols_nodup _) hl).mpr fun x => ?_
  rw [mem_presentSymbols, hm, Nat.pos_iff_ne_zero, ne_eq, BitVec.toNat_eq]
  rfl

theorem presentSymbols_eq_nil_iff : presentSymbols s.freq = [] ↔ l = [] :=
  ⟨fun h => ((presentSymbols_perm hl hm).symm.trans (.of_eq h)).eq_nil,
    fun h => ((presentSymbols_perm hl hm).trans (.of_eq h)).eq_nil⟩

end

/-! ## `TB.INIT` -/

theorem exec_tbInit_of_empty {s : State} (h : presentSymbols s.freq = []) :
    exec .tbInit s = .next (s.faulted 4#8) := by
  simp only [exec, execTbInit, if_pos h]
  rfl

theorem exec_tbInit_of_present {s : State} (h : presentSymbols s.freq ≠ []) :
    exec .tbInit s = .next ({ s with tree := initialTree s.freq }.answered 0#8
      (BitVec.ofNat 64 (presentSymbols s.freq).length)) := by
  simp only [exec, execTbInit, if_neg h]
  rfl

/-- An entry that is the leaf of no counted symbol is FREE (R131). -/
theorem initialNodes_free {freq : Vector Count 257} {n : ArenaIndex}
    (h : ∀ x ∈ presentSymbols freq, n ≠ leafIndex x) : (initialNodes freq)[n] = Node.freeEntry := by
  refine initialNodes_freeEntry freq n (by_contra fun hk => ?_)
  obtain ⟨x, hn, hx⟩ := initialNodes_kind freq n hk
  exact h x ((mem_presentSymbols freq x).mpr hx) hn

theorem initialTree_of_singleton {freq : Vector Count 257} {x : Symbol} (h : presentSymbols freq = [x]) :
    (initialTree freq).root = BitVec.ofNat 10 x.val ∧ (initialTree freq).tstate = .built := by
  obtain ⟨-, -, -, hr, ht⟩ := initialTree_fields freq
  rw [hr, ht, h]
  exact ⟨rfl, rfl⟩

theorem initialTree_of_two_le {freq : Vector Count 257} (h : 2 ≤ (presentSymbols freq).length) :
    (initialTree freq).root = nilIndex ∧ (initialTree freq).tstate = .building := by
  obtain ⟨-, -, -, -, ht⟩ := initialTree_fields freq
  rw [if_neg (by omega)] at ht
  have hp := (initialTree_inv freq (List.ne_nil_of_length_pos (by omega))).phase
  simp only [PhaseInv, ht] at hp
  exact ⟨hp.2, ht⟩

/-- Settles O13: `TB.INIT`'s tree, field by field, for `L` in any order. -/
theorem treeInitMakesOneLeafPerCountedSymbol : Obligations.TreeInitMakesOneLeafPerCountedSymbol := by
  intro s l hl hm
  have hp := presentSymbols_perm hl hm
  have hnil := presentSymbols_eq_nil_iff hl hm
  refine ⟨fun h => exec_tbInit_of_empty (hnil.mpr h), fun h => ?_⟩
  have hne := mt hnil.mp h
  obtain ⟨fnode, fpq, fnext, -, -⟩ := initialTree_fields s.freq
  refine ⟨initialTree s.freq, hp.length_eq ▸ exec_tbInit_of_present hne, fun x hx => ?_, fun n hn => ?_, fun n => ?_,
    (initialTree_inv s.freq hne).queueRising, fnext, fun x hx => ?_, fun h2 => ?_⟩
  · simp only [fnode]
    exact initialNodes_leaf s.freq x ((mem_presentSymbols _ _).mp (hp.mem_iff.mpr hx))
  · simp only [fnode]
    exact initialNodes_free fun x hx => hn x (hp.mem_iff.mp hx)
  · simp only [fpq, List.mem_map, hp.mem_iff, eq_comm]
  · exact initialTree_of_singleton (List.perm_singleton.mp (hx ▸ hp))
  · exact initialTree_of_two_le (hp.length_eq ▸ h2)

/-! ## One merge -/

section
variable (t : TreeUnit) (a b n : ArenaIndex)

theorem merged_node_self : (merged t a b n).node[n] = internalNode t.node a b := by
  simp [merged]

theorem merged_node_of_ne {m : ArenaIndex} (h : m ≠ n) : (merged t a b n).node[m] = t.node[m] := by
  simp only [merged, Fin.getElem_fin]
  exact Vector.getElem_set_ne _ _ fun hv => h (Fin.ext hv.symm)

theorem merged_next (h : n.val = t.next.toNat) : (merged t a b n).next.toNat = t.next.toNat + 1 := by
  simp only [merged, BitVec.toNat_add, BitVec.toNat_ofNat]
  omega

theorem merged_of_one_left (h : (merged t a b n).pq.length = 1) :
    (merged t a b n).root = t.next ∧ (merged t a b n).tstate = .built :=
  ⟨if_pos h, if_pos h⟩

theorem merged_of_more_left (h : (merged t a b n).pq.length ≠ 1) :
    (merged t a b n).root = t.root ∧ (merged t a b n).tstate = t.tstate :=
  ⟨if_neg h, if_neg h⟩

theorem merged_nonempty (h : t.tstate = .building) : (merged t a b n).tstate ≠ .empty := by
  simp only [merged, h]
  split <;> nofun

end

namespace TreeInv

variable {t : TreeUnit}

theorem queue_nodup (h : TreeInv t) : t.pq.Nodup := h.queueRising.imp ne_of_lt

theorem mem_merged_pq (h : TreeInv t) (a b n m : ArenaIndex) :
    m ∈ (merged t a b n).pq ↔ m = n ∨ m ∈ t.pq ∧ m ≠ a ∧ m ≠ b := by
  have hm : m ∈ (merged t a b n).pq ↔ m = n ∨ m ∈ (t.pq.erase a).erase b := mem_insertIndex n m _
  rw [hm, (h.queue_nodup.erase a).mem_erase_iff, h.queue_nodup.mem_erase_iff]
  tauto

/-- A tree is BUILDING while two or more nodes are queued, and BUILT with one (R29). -/
theorem building_or_built (h : TreeInv t) (hs : t.tstate ≠ .empty) :
    t.tstate = .building ∧ 2 ≤ t.pq.length ∨ t.tstate = .built ∧ t.pq.length = 1 := by
  have hp := h.phase
  unfold PhaseInv at hp
  split at hp
  case h_1 he => exact absurd he hs
  case h_2 hb => exact .inl ⟨hb, hp.1⟩
  case h_3 hb =>
    obtain ⟨n, hn, -⟩ := hp
    exact .inr ⟨hb, by rw [hn, List.length_singleton]⟩

theorem building_iff (h : TreeInv t) (hs : t.tstate ≠ .empty) : t.tstate = .building ↔ 2 ≤ t.pq.length := by
  obtain ⟨hb, hq⟩ | ⟨hb, hq⟩ := h.building_or_built hs
  · exact iff_of_true hb hq
  · simp [hb, hq]

theorem built_iff (h : TreeInv t) (hs : t.tstate ≠ .empty) : t.tstate = .built ↔ t.pq.length = 1 := by
  obtain ⟨hb, hq⟩ | ⟨hb, hq⟩ := h.building_or_built hs
  · exact iff_of_false (by simp [hb]) (by omega)
  · exact iff_of_true hb hq

/-- What a merge in BUILDING does (R132): the two least members are merged, the tree keeps its invariant, and the queue
is one shorter. -/
theorem mergeOnce_of_building (h : TreeInv t) (hs : t.tstate = .building) : ∃ a b n : ArenaIndex,
    LeastOf t.node t.pq a ∧ LeastOf t.node (t.pq.erase a) b ∧ n.val = t.next.toNat ∧
    mergeOnce t = .ok (merged t a b n, t.next) ∧ TreeInv (merged t a b n) ∧
    (merged t a b n).pq.length + 1 = t.pq.length := by
  obtain ⟨a, b, n, ha, hb, hn, hm⟩ := h.mergeOnce_succeeds hs
  have hka := leastOf_of_leastNode h.keysDistinct ha
  have hkb := leastOf_of_leastNode (h.keysDistinct.sublist (List.erase_sublist.map _)) hb
  have hnew : n ∉ (t.pq.erase a).erase b := fun hc =>
    absurd (h.lt_next_of_used n (h.queue_used n (List.mem_of_mem_erase (List.mem_of_mem_erase hc)))) (by omega)
  have hlen : (merged t a b n).pq.length = ((t.pq.erase a).erase b).length + 1 :=
    (insertIndex_perm n _ hnew).length_eq
  have hla := List.length_erase_add_one hka.1
  have hlb := List.length_erase_add_one hkb.1
  exact ⟨a, b, n, hka, hkb, hn.symm, hm, h.mergeOnce_keeps hs hm, by omega⟩

end TreeInv

/-! ## `TB.STEP` -/

theorem exec_tbStep_of_not_building {s : State} (h : s.tree.tstate ≠ .building) :
    exec .tbStep s = .next (s.faulted 5#8) := by
  simp only [exec, execTbStep, if_neg h]
  rfl

theorem exec_tbStep_of_mergeOnce {s : State} {t : TreeUnit} {n : NodeIndex} (h : s.tree.tstate = .building)
    (hm : mergeOnce s.tree = .ok (t, n)) :
    exec .tbStep s = .next ({ s with tree := t }.answered 0#8 (BitVec.ofNat 64 n.toNat)) := by
  simp only [exec, execTbStep, if_pos h, hm, BitVec.ofNat_toNat]
  rfl

/-- Settles O14: the merge of the two least members, field by field. -/
theorem treeStepMergesTheTwoLeast : Obligations.TreeStepMergesTheTwoLeast := by
  refine ⟨fun s => exec_tbStep_of_not_building, fun s h hs => ?_⟩
  obtain ⟨a, b, n, ha, hb, hn, hm, hinv, -⟩ := h.mergeOnce_of_building hs
  have hnext : s.tree.next = BitVec.ofNat 10 n.val := by rw [hn, BitVec.ofNat_toNat, BitVec.setWidth_eq]
  refine ⟨a, b, n, merged s.tree a b n, ha, hb, hn, hn ▸ exec_tbStep_of_mergeOnce hs hm, merged_node_self _ _ _ _,
    fun m => merged_node_of_ne _ _ _ _, h.mem_merged_pq a b n, hinv.queueRising, merged_next _ _ _ _ hn,
    fun h1 => ?_, fun h1 => ?_⟩
  · exact hnext ▸ merged_of_one_left _ _ _ _ h1
  · exact hs ▸ merged_of_more_left _ _ _ _ h1

end Sys2Proof.Machine
end

section
/-! SUPPORT. `TB.BUILD`, and the reads and the freeing of the tree (spec/41_tree_builder.md rules R134 to R141). -/

namespace Sys2Proof.Machine

/-! ## The finished tree -/

namespace TreeInv

variable {t : TreeUnit}

/-- The root of a finished tree is the only queued node. -/
theorem root_of_built (h : TreeInv t) (hb : t.tstate = .built) :
    ∃ n : ArenaIndex, t.pq = [n] ∧ t.root.toNat = n.val := by
  have hp := h.phase
  simp only [PhaseInv, hb] at hp
  obtain ⟨n, hq, hr⟩ := hp
  exact ⟨n, hq, by rw [hr, BitVec.toNat_ofNat]; omega⟩

theorem root_lt_next (h : TreeInv t) (hb : t.tstate = .built) : t.root.toNat < t.next.toNat := by
  obtain ⟨n, hq, hr⟩ := h.root_of_built hb
  exact hr ▸ h.lt_next_of_used n (h.queue_used n (by simp [hq]))

/-- The root of a finished tree is its last entry: every used entry is below it, and children have smaller indices
(R30(a), R30(e)). -/
theorem le_root_of_used (h : TreeInv t) (hb : t.tstate = .built) {m : ArenaIndex} (hm : t.node[m].kind ≠ .free) :
    m.val ≤ t.root.toNat := by
  obtain ⟨n, hq, hr⟩ := h.root_of_built hb
  have hf := h.forest
  simp only [hq, List.map_cons, List.map_nil, List.flatMap_cons, List.flatMap_nil, List.append_nil] at hf
  exact hr ▸ entriesBelow_le t.node h.descends 513 n.val _ (hf.mem_iff.mpr ((mem_usedEntries _ m).mpr hm))

/-- After a merge the root of a finished tree is the last internal node made (R136). -/
theorem root_succ_eq_next (h : TreeInv t) (hb : t.tstate = .built) (hn : 257 < t.next.toNat) :
    t.root.toNat + 1 = t.next.toNat := by
  have hlt := h.root_lt_next hb
  have hle := h.nextRange.2
  have hlast := (h.internalPlace ⟨t.next.toNat - 1, by omega⟩).mpr
    ⟨Nat.le_sub_one_of_lt hn, Nat.sub_one_lt_of_lt hn⟩
  have hroot := h.le_root_of_used hb (fun hf => NodeKind.noConfusion (hlast.symm.trans hf))
  simp only at hroot
  omega

/-- A path from an entry is no longer than the number of internal nodes up to it (R136). -/
theorem follow_length_le (h : TreeInv t) {n m : NodeIndex} {c : Bits} (hf : follow t.node n c = some m) :
    c.length ≤ n.toNat - 256 := by
  induction c generalizing n with
  | nil => exact Nat.zero_le _
  | cons b c ih =>
    unfold follow at hf
    split at hf
    case h_2 => cases hf
    case h_1 e he =>
      obtain ⟨hlt, rfl⟩ := Vector.getElem?_eq_some_iff.mp he
      split at hf
      case isFalse => cases hf
      case isTrue hk =>
        have hplace := ((h.internalPlace ⟨n.toNat, hlt⟩).mp hk).1
        obtain ⟨hleft, hright⟩ := h.descends ⟨n.toNat, hlt⟩ hk
        have hc := ih hf
        simp only [Fin.getElem_fin] at hleft hright hplace
        rw [List.length_cons]
        cases b <;> simp only [Bool.false_eq_true, if_true, if_false] at hc <;> omega

end TreeInv

/-! ## `TB.BUILD` -/

theorem exec_tbBuild_of_empty {s : State} (h : presentSymbols s.freq = []) :
    exec .tbBuild s = .next (s.faulted 4#8) := by
  simp only [exec, execTbBuild, if_pos h]
  rfl

theorem exec_tbBuild_of_mergeAll {s : State} {t : TreeUnit} (h : presentSymbols s.freq ≠ [])
    (hm : mergeAll (presentSymbols s.freq).length (initialTree s.freq) = .ok t) :
    exec .tbBuild s = .next ({ s with tree := t }.answered 0#8 (BitVec.ofNat 64 t.root.toNat)) := by
  simp only [exec, execTbBuild, if_neg h, hm, BitVec.ofNat_toNat]
  rfl

theorem leafIndex_injective : Function.Injective leafIndex := fun _ _ h => Fin.ext (Fin.mk.inj h)

/-- A finished build's leaves are the counted symbols (R134). -/
theorem leavesBelow_root_perm {freq : Vector Count 257} {t : TreeUnit} (h : TreeInv t) (hb : t.tstate = .built)
    (hn : ∀ x : Symbol, t.node[leafIndex x] = (initialNodes freq)[leafIndex x]) :
    (leavesBelow t.node t.root.toNat).Perm (presentSymbols freq) := by
  obtain ⟨hnd, hmem⟩ := leavesBelow_root h hb
  refine (List.perm_ext_iff_of_nodup hnd (presentSymbols_nodup freq)).mpr fun x => ?_
  rw [hmem, hn, mem_presentSymbols]
  refine ⟨fun hk => ?_, fun hx => by rw [initialNodes_leaf freq x hx]; rfl⟩
  obtain ⟨y, hxy, hy⟩ := initialNodes_kind freq (leafIndex x) (by rw [hk]; nofun)
  exact leafIndex_injective hxy ▸ hy

/-- Settles O16: the merges to the end, and what the tree invariant says of a finished tree. -/
theorem treeBuildFinishesTheTree : Obligations.TreeBuildFinishesTheTree := by
  intro s l hl hm
  have hp := presentSymbols_perm hl hm
  have hnil := presentSymbols_eq_nil_iff hl hm
  refine ⟨fun h => exec_tbBuild_of_empty (hnil.mpr h), fun h => ?_⟩
  have hne := mt hnil.mp h
  obtain ⟨t, hall, hinv, hb, hnext, hleaf⟩ := mergeAll_initialTree s.freq hne
  rw [hp.length_eq] at hnext
  refine ⟨t, exec_tbBuild_of_mergeAll hne hall, hb, hinv, (leavesBelow_root_perm hinv hb hleaf).trans hp,
    fun x hx => ?_, hnext, fun h2 => ?_, fun c n hc => ?_⟩
  · rw [hleaf, initialNodes_leaf _ _ ((mem_presentSymbols _ _).mp (hp.mem_iff.mpr hx))]
    exact BitVec.toNat_setWidth_of_le (by decide)
  · have := hinv.root_succ_eq_next hb (by omega)
    omega
  · have := hinv.follow_length_le hc
    have := hinv.root_lt_next hb
    omega

/-- Settles O19: from `TB.INIT`'s tree on, the merges read the counts alone. -/
theorem treeIsAFunctionOfTheCounts : Obligations.TreeIsAFunctionOfTheCounts := by
  rintro s s' t t' hfreq ⟨x, hx⟩ ht ht'
  have hne : presentSymbols s.freq ≠ [] :=
    List.ne_nil_of_mem ((mem_presentSymbols s.freq x).mpr fun h0 => by simp [h0] at hx)
  obtain ⟨tr, hall, -⟩ := mergeAll_initialTree s.freq hne
  rw [exec_tbBuild_of_mergeAll hne hall] at ht
  rw [exec_tbBuild_of_mergeAll (hfreq ▸ hne) (hfreq ▸ hall)] at ht'
  cases ht
  cases ht'
  rfl

/-! ## `TB.BUILD` as `TB.INIT` and `TB.STEP`s -/

theorem mergeAll_of_built {t : TreeUnit} (h : t.tstate = .built) (n : Nat) : mergeAll n t = .ok t := by
  cases n <;> simp [mergeAll, h]

theorem runCommands_cons {i : Instr} {is : List Instr} {s t : State} (h : exec i s = .next t) :
    runCommands (i :: is) s = runCommands is t := by
  simp only [runCommands, h]

/-- `v` is `s` with a tree that `j` merges have made of `t`: nothing else but the transaction record differs, and the
merges still to do are those of `v`'s tree. -/
structure AfterMerges (s : State) (t : TreeUnit) (j : Nat) (v : State) : Prop where
  inv : TreeInv v.tree
  nonempty : v.tree.tstate ≠ .empty
  queue : v.tree.pq.length + j = t.pq.length
  rest : ∀ n, mergeAll (n + j) t = mergeAll n v.tree
  frame : ∀ ports, { v with ports } = { s with tree := v.tree, ports }

/-- `TB.STEP`s up to the last merge, one after another (R134). -/
theorem runCommands_tbSteps {s : State} {j : Nat} (h : TreeInv s.tree) (hs : s.tree.tstate ≠ .empty)
    (hj : j < s.tree.pq.length) :
    ∃ v, runCommands (List.replicate j .tbStep) s = .next v ∧ AfterMerges s s.tree j v := by
  induction j generalizing s with
  | zero => exact ⟨s, rfl, h, hs, rfl, fun _ => rfl, fun _ => rfl⟩
  | succ j ih =>
    have hb := (h.building_iff hs).mpr (by omega)
    obtain ⟨a, b, n, -, -, -, hm, hinv, hlen⟩ := h.mergeOnce_of_building hb
    have hx := exec_tbStep_of_mergeOnce hb hm
    have hne := merged_nonempty s.tree a b n hb
    generalize merged s.tree a b n = t at hm hinv hlen hx hne
    obtain ⟨v, hv, hafter⟩ :=
      ih (s := { s with tree := t }.answered 0#8 _) hinv hne (Nat.lt_of_succ_lt_succ (hlen ▸ hj))
    have hqueue : v.tree.pq.length + j = t.pq.length := hafter.queue
    refine ⟨v, (runCommands_cons hx).trans hv, hafter.inv, hafter.nonempty, by omega, fun k => ?_, hafter.frame⟩
    have hstep : mergeAll (k + j + 1) s.tree = mergeAll (k + j) t := by simp only [mergeAll, if_pos hb, hm]
    exact hstep.trans (hafter.rest k)

/-- `TB.INIT` and then `TB.STEP`s up to the last merge (R134). -/
theorem runCommands_tbInit_tbSteps {s : State} {j : Nat} (hne : presentSymbols s.freq ≠ [])
    (hj : j < (presentSymbols s.freq).length) :
    ∃ v, runCommands (.tbInit :: List.replicate j .tbStep) s = .next v ∧ AfterMerges s (initialTree s.freq) j v := by
  obtain ⟨-, hpq, -, -, htstate⟩ := initialTree_fields s.freq
  have hstate : (initialTree s.freq).tstate ≠ .empty := by
    rw [htstate]
    split <;> nofun
  obtain ⟨v, hv, h⟩ := runCommands_tbSteps (s := { s with tree := initialTree s.freq }.answered 0#8 _)
    (initialTree_inv s.freq hne) hstate (by simpa [State.answered, hpq] using hj)
  exact ⟨v, (runCommands_cons (exec_tbInit_of_present hne)).trans hv, h.inv, h.nonempty, h.queue, h.rest, h.frame⟩

/-- Settles O17: `TB.STEP` by `TB.STEP` the tree is the one that the merges of `TB.BUILD` have reached. -/
theorem buildIsInitFollowedBySteps : Obligations.BuildIsInitFollowedBySteps := by
  intro s l hl hm
  have hnil := presentSymbols_eq_nil_iff hl hm
  refine ⟨fun h => ⟨exec_tbBuild_of_empty (hnil.mpr h), exec_tbInit_of_empty (hnil.mpr h)⟩, fun h => ?_⟩
  have hne := mt hnil.mp h
  have hpos := List.length_pos_of_ne_nil hne
  obtain ⟨-, hpq, -, -, -⟩ := initialTree_fields s.freq
  have hlen : (initialTree s.freq).pq.length = (presentSymbols s.freq).length := by rw [hpq, List.length_map]
  rw [← (presentSymbols_perm hl hm).length_eq]
  obtain ⟨u, hu, hafter⟩ := runCommands_tbInit_tbSteps hne (Nat.sub_one_lt_of_lt hpos)
  have hb : u.tree.tstate = .built := (hafter.inv.built_iff hafter.nonempty).mpr (by have := hafter.queue; omega)
  have hall : mergeAll (presentSymbols s.freq).length (initialTree s.freq) = .ok u.tree := by
    have hrest := hafter.rest 1
    rwa [Nat.add_sub_cancel' hpos, mergeAll_of_built hb] at hrest
  refine ⟨_, u, exec_tbBuild_of_mergeAll hne hall, hu, hb, (hafter.frame _).symm, fun k hk => ?_⟩
  obtain ⟨v, hv, hk'⟩ := runCommands_tbInit_tbSteps hne (j := k) (by omega)
  exact ⟨v, hv, (hk'.inv.building_iff hk'.nonempty).mpr (by have := hk'.queue; omega)⟩

/-! ## Reads and `TB.FREE` -/

theorem nodeOperand_eq_some {a : BitVec 16} {n : ArenaIndex} (h : a.toNat = n.val) : nodeOperand a = some n := by
  simp [nodeOperand, h]

theorem toNat_append_eq_add {m n : Nat} (x : BitVec m) (y : BitVec n) :
    (x ++ y).toNat = 2 ^ n * x.toNat + y.toNat := by
  rw [BitVec.toNat_append, ← Nat.shiftLeft_add_eq_or_of_lt y.isLt, Nat.shiftLeft_eq, Nat.mul_comm]

theorem symbolField_toNat (x : Symbol) : (symbolField x).toNat = x.val := by
  simp only [symbolField, BitVec.toNat_ofNat]
  omega

/-- The fields of `TB.RDN`'s word at their places (R137). -/
theorem nodeRecord_toNat (t : TreeUnit) (n : ArenaIndex) :
    (nodeRecord t n).toNat = t.node[n].kind.num.toNat + 2 ^ 2 * t.node[n].key.val + 2 ^ 11 * t.node[n].sym.val
      + 2 ^ 20 * t.node[n].left.toNat + 2 ^ 30 * t.node[n].right.toNat + 2 ^ 40 * (if n ∈ t.pq then 1 else 0) := by
  have hq : (BitVec.ofBool (t.pq.contains n)).toNat = if n ∈ t.pq then 1 else 0 := by
    by_cases h : n ∈ t.pq <;> simp [h]
  simp only [nodeRecord, toNat_append_eq_add, symbolField_toNat, hq, BitVec.toNat_ofNat]
  ring

/-- Settles O20: the two reads by their operand, and `TB.FREE`'s tree is the tree unit at reset. -/
theorem treeReadsAndFreeFollowTheirRules : Obligations.TreeReadsAndFreeFollowTheirRules := by
  refine ⟨fun s a h => ?_, fun s a n h => ⟨?_, ?_⟩, fun s => ⟨TreeUnit.reset, rfl, rfl, rfl, rfl, rfl, fun n => ?_⟩⟩
  · have hw : nodeInRange a = false := decide_eq_false (Nat.not_le.mpr h)
    exact ⟨exec_of_not_wellFormed hw, exec_of_not_wellFormed hw⟩
  · rw [← nodeRecord_toNat, BitVec.ofNat_toNat, BitVec.setWidth_eq]
    simp only [exec, execTbRdn, nodeOperand_eq_some h]
    rfl
  · simp only [exec, execTbRdf, nodeOperand_eq_some h, BitVec.ofNat_toNat]
    rfl
  · simp [TreeUnit.reset, Node.freeEntry, nilIndex]

end Sys2Proof.Machine
end

section
/-! SUPPORT. The codeword register, `CT.LKP` and `CT.FIND`, each on an operand in range (spec/42_codeword_lut.md rules
R150 to R153, R159, R160); out of range they are refused as every command is (`exec_of_not_wellFormed`). -/

namespace Sys2Proof.Machine

/-! ## The codeword register -/

theorem bitsOperand_eq_some {a : BitVec 16} {v : BitVec 32} (h1 : 1 ≤ a.toNat) (h32 : a.toNat ≤ 32)
    (hv : v.toNat < 2 ^ a.toNat) : bitsOperand a v = some (bitsMsb v a.toNat) := by
  rw [bitsOperand, if_neg (by omega), if_neg (Nat.not_le.mpr hv)]

/-- `CW.APP`'s operands are refused exactly outside R151's bounds. -/
theorem bitsInRange_eq_false {a : BitVec 16} {v : BitVec 32} (h : a.toNat = 0 ∨ 32 < a.toNat ∨ 2 ^ a.toNat ≤ v.toNat) :
    bitsInRange a v = false := by
  rw [← bitsOperand_isSome, bitsOperand]
  split
  · rfl
  · rw [if_pos (by omega)]
    rfl

theorem bitsMsb_eq_map_range {w : Nat} (v : BitVec w) (n : Nat) :
    bitsMsb v n = (List.range n).map fun j => v.getLsbD (n - 1 - j) :=
  List.ext_getElem (by simp) fun i hi _ => by simp [bitsMsb_getElem v n i hi]

/-- Reading back the value of a bit sequence gives the sequence (R101, R151). -/
theorem bitsMsb_bitsValue {w : Nat} {c : Bits} (h : c.length ≤ w) :
    bitsMsb (BitVec.ofNat w (bitsValue c)) c.length = c := by
  refine List.ext_getElem (by simp) fun i hi hc => ?_
  have hr : c.length - 1 - i < c.reverse.length := by simp; omega
  have hw : c.length - 1 - i < w := by omega
  have hrev : c.length - 1 - (c.length - 1 - i) = i := by omega
  rw [bitsMsb_getElem, BitVec.getLsbD_ofNat, bitsValue_testBit, List.getD_eq_getElem _ _ hr, List.getElem_reverse]
  simp [hw, hrev]

/-- Bit `j` of `CW.RD`'s word, counted from the least significant (R153). -/
theorem wordOfBits_getLsbD (c : Bits) (k j : Nat) :
    (wordOfBits c k).getLsbD j = (decide (j < 32) && c.getD (32 * k + (31 - j)) false) := by
  rw [wordOfBits, BitVec.getLsbD_ofNat, bitsValue_testBit]
  by_cases hj : j < 32
  · rw [List.getD_eq_getElem _ _ (by simpa using hj), List.getElem_reverse]
    simp
  · simp [hj]

section
variable {s : State} {a : BitVec 16} {v : BitVec 32} {bits : Bits} (hb : bitsOperand a v = some bits)
include hb

theorem exec_cwApp_of_overflow (h : 256 < s.cwr.length + bits.length) :
    exec (.cwApp a v) s = .next (s.faulted 6#8) := by
  simp only [exec, execCwApp, hb]
  exact if_pos h

theorem exec_cwApp_of_fits (h : s.cwr.length + bits.length ≤ 256) :
    exec (.cwApp a v) s = .next ({ s with cwr := s.cwr ++ bits }.answered 0#8
      (BitVec.ofNat 64 (s.cwr.length + bits.length))) := by
  simp only [exec, execCwApp, hb, List.length_append]
  exact if_neg (Nat.not_lt.mpr h)

end

theorem exec_cwRd_of_inRange (s : State) {a : BitVec 16} (h : a.toNat ≤ 7) :
    exec (.cwRd a) s = .next (s.answered 0#8 ((wordOfBits s.cwr a.toNat).setWidth 64)) := by
  have ha : wordOperand a = some ⟨a.toNat, Nat.lt_succ_of_le h⟩ := dif_pos (Nat.lt_succ_of_le h)
  simp only [exec, execCwRd, ha]
  rfl

/-- Settles O21: the refusals by the operands' ranges, the results command by command. -/
theorem codewordRegisterCommandsFollowTheirRules : Obligations.CodewordRegisterCommandsFollowTheirRules := by
  refine ⟨fun s => rfl, fun s a v => ⟨fun h => ?_, fun h1 h32 hv hl => ?_, fun h1 h32 hv hl => ?_⟩,
    fun s a => ⟨fun h => ?_, fun h => ⟨_, exec_cwRd_of_inRange s h, fun j => ?_⟩⟩⟩
  -- CW.APP
  · exact exec_of_not_wellFormed (bitsInRange_eq_false h)
  · exact exec_cwApp_of_overflow (bitsOperand_eq_some h1 h32 hv) (by rwa [bitsMsb_length])
  · have happ := exec_cwApp_of_fits (s := s) (bitsOperand_eq_some h1 h32 hv) (by rwa [bitsMsb_length])
    rwa [bitsMsb_length, bitsMsb_eq_map_range] at happ
  -- CW.RD
  · exact exec_of_not_wellFormed (decide_eq_false (Nat.not_le.mpr h))
  · rw [BitVec.getLsbD_setWidth, wordOfBits_getLsbD]
    by_cases hj : j < 32
    · simp [hj, show j < 64 by omega]
    · simp [hj]

/-! ## Lookups -/

section
variable {s : State} {a : BitVec 16} {x : Symbol} (ha : a.toNat = x.val)
include ha

theorem exec_ctLkp_of_none (h : s.table.fwd[x] = none) : exec (.ctLkp a) s = .next (s.faulted 10#8) := by
  simp only [exec, execCtLkp, symbolOperand_eq_some ha, h]
  rfl

theorem exec_ctLkp_of_some {c : Bits} (h : s.table.fwd[x] = some c) :
    exec (.ctLkp a) s = .next ({ s with cwr := c }.answered 0#8 (BitVec.ofNat 64 c.length)) := by
  simp only [exec, execCtLkp, symbolOperand_eq_some ha, h]
  rfl

end

theorem exec_ctFind_of_empty {s : State} (h : s.cwr = []) : exec .ctFind s = .next (s.faulted 7#8) :=
  if_pos h

theorem exec_ctFind_of_nonempty {s : State} (h : s.cwr ≠ []) :
    exec .ctFind s = .next (s.answered 0#8 (trieNode s.table.inv s.cwr).found) :=
  if_neg h

/-- A leaf's kind and symbol side by side in `CT.FIND`'s word (R160). -/
theorem found_leaf (x : Symbol) : (TrieNode.leaf x).found = BitVec.ofNat 64 (4 * x.val + 2) := by
  have hshift : (symbolField x).setWidth 64 <<< 2 = BitVec.ofNat 64 (x.val <<< 2) := BitVec.eq_of_toNat_eq (by
    rw [BitVec.toNat_shiftLeft, BitVec.toNat_setWidth_of_le (by decide), symbolField_toNat, BitVec.toNat_ofNat])
  rw [TrieNode.found, hshift, ← BitVec.ofNat_or, ← Nat.shiftLeft_add_eq_or_of_lt (by decide), Nat.shiftLeft_eq,
    Nat.mul_comm]

/-- Settles O28: `CT.FIND` answers what the trie view holds at the register. -/
theorem lookupAndFindFollowTheirRules : Obligations.LookupAndFindFollowTheirRules := by
  refine ⟨fun s a => ⟨fun h => ?_, fun x ha => ⟨exec_ctLkp_of_none ha, fun c => exec_ctLkp_of_some ha⟩⟩,
    fun s => ⟨exec_ctFind_of_empty, fun h hne => ⟨fun x hx => ?_, fun hno hpre => ?_, fun hno => ?_⟩⟩⟩
  · exact exec_of_not_wellFormed (decide_eq_false (Nat.not_le.mpr h))
  · rw [exec_ctFind_of_nonempty hne, h.trieNode_leaf _ _ hx, found_leaf]
  · rw [exec_ctFind_of_nonempty hne, (trieNode_eq_internal_iff _ _).mpr ⟨hno, .inr hpre⟩]
    rfl
  · rw [exec_ctFind_of_nonempty hne, (trieNode_eq_absent_iff _ _).mpr ⟨hne, hno⟩]
    rfl

end Sys2Proof.Machine
end

section
/-! SUPPORT. `CT.CLR`, `CT.INS` and the loading of a codebook's rows (spec/30_encoding.md rule R101; 42_codeword_lut.md
rules R155, R157; 70_reset_and_hazards.md rule R292). -/

namespace Sys2Proof.Machine

/-! ## Commands in sequence -/

theorem runCommands_append {is js : List Instr} {s t : State} (h : runCommands is s = .next t) :
    runCommands (is ++ js) s = runCommands js t := by
  induction is generalizing s with
  | nil =>
    cases h
    rfl
  | cons i is ih =>
    simp only [List.cons_append, runCommands] at h ⊢
    cases hx : exec i s with
    | next u =>
      rw [hx] at h
      exact ih h
    | fault e => simp [hx] at h
    | refused e => simp [hx] at h

/-! ## `CT.INS` -/

/-- The table has room for the pair: its symbol has no codeword, and its codeword clashes with none (R157). -/
structure CodeTable.Admits (t : CodeTable) (e : CodePair) : Prop where
  unassigned : t.fwd[e.sym] = none
  apart : ∀ y ∈ t.inv, ¬ y.code <+: e.code ∧ ¬ e.code <+: y.code

section
variable {s : State} {a : BitVec 16} {x : Symbol} (ha : a.toNat = x.val)
include ha

theorem exec_ctIns_of_empty (hc : s.cwr = []) : exec (.ctIns a) s = .next (s.faulted 7#8) := by
  simp only [exec, execCtIns, symbolOperand_eq_some ha, if_pos hc]
  rfl

theorem exec_ctIns_of_assigned (hc : s.cwr ≠ []) (hx : s.table.fwd[x] ≠ none) :
    exec (.ctIns a) s = .next (s.faulted 9#8) := by
  simp only [exec, execCtIns, symbolOperand_eq_some ha, if_neg hc, if_pos (Option.isSome_iff_ne_none.mpr hx)]
  rfl

theorem exec_ctIns_of_clash (hc : s.cwr ≠ []) (hx : s.table.fwd[x] = none)
    (hclash : ∃ e ∈ s.table.inv, e.code <+: s.cwr ∨ s.cwr <+: e.code) :
    exec (.ctIns a) s = .next (s.faulted 8#8) := by
  have hcc : codeConflicts s.table.inv s.cwr = true := by simpa [codeConflicts, isPre_iff] using hclash
  simp only [exec, execCtIns, symbolOperand_eq_some ha, if_neg hc, hx, hcc]
  rfl

theorem exec_ctIns_of_admits (hc : s.cwr ≠ []) (h : s.table.Admits { code := s.cwr, sym := x }) :
    exec (.ctIns a) s = .next ({ s with table := s.table.assign { code := s.cwr, sym := x } }.answered 0#8
      (BitVec.ofNat 64 (s.table.assign { code := s.cwr, sym := x }).nsym.toNat)) := by
  have hcc : codeConflicts s.table.inv s.cwr = false := (codeConflicts_eq_false_iff _ _).mpr h.apart
  have hx : s.table.fwd[x] = none := h.unassigned
  simp only [exec, execCtIns, symbolOperand_eq_some ha, if_neg hc, hx, hcc, BitVec.ofNat_toNat]
  rfl

end

/-! ## `CW.SET` -/

theorem aOf_toNat {n : Nat} (h : n < 2 ^ 16) : (aOf n).toNat = n := Nat.mod_eq_of_lt h

/-- `CW.APP` of a group appends the group (R101, R151). -/
theorem exec_appendGroup {s : State} {g : Bits} (h1 : 1 ≤ g.length) (h32 : g.length ≤ 32)
    (h : s.cwr.length + g.length ≤ 256) :
    exec (appendGroup g) s =
      .next ({ s with cwr := s.cwr ++ g }.answered 0#8 (BitVec.ofNat 64 (s.cwr.length + g.length))) := by
  have ha : (aOf g.length).toNat = g.length := aOf_toNat (by omega)
  have hpow : 2 ^ g.length ≤ 2 ^ 32 := Nat.pow_le_pow_right (by decide) h32
  have hlt := bitsValue_lt g
  have hv : (BitVec.ofNat 32 (bitsValue g)).toNat < 2 ^ (aOf g.length).toNat := by
    rwa [ha, BitVec.toNat_ofNat, Nat.mod_eq_of_lt (by omega)]
  have hb := bitsOperand_eq_some (by rwa [ha]) (by rwa [ha]) hv
  rw [ha, bitsMsb_bitsValue h32] at hb
  exact exec_cwApp_of_fits hb h

theorem runCommands_appendGroups (n : Nat) {s : State} {c : Bits} (hn : c.length ≤ n)
    (h : s.cwr.length + c.length ≤ 256) :
    ∃ ports, runCommands ((groups32 n c).map appendGroup) s = .next { s with cwr := s.cwr ++ c, ports } := by
  induction n generalizing s c with
  | zero =>
    obtain rfl := List.length_eq_zero_iff.mp (Nat.le_zero.mp hn)
    exact ⟨s.ports, by rw [List.append_nil]; rfl⟩
  | succ n ih =>
    cases c with
    | nil => exact ⟨s.ports, by rw [List.append_nil]; rfl⟩
    | cons b c =>
      have hg : ((b :: c).take 32).length + ((b :: c).drop 32).length = (b :: c).length := by
        rw [← List.length_append, List.take_append_drop]
      have h1 : 1 ≤ ((b :: c).take 32).length := by simp
      have hx := exec_appendGroup (s := s) h1 (List.length_take_le _ _) (by omega)
      obtain ⟨ports, hrun⟩ := ih (s := { s with cwr := s.cwr ++ (b :: c).take 32 }.answered 0#8 _)
        (c := (b :: c).drop 32) (by omega) (by simp only [State.answered, List.length_append]; omega)
      refine ⟨ports, (runCommands_cons hx).trans (hrun.trans ?_)⟩
      simp only [State.answered, List.append_assoc, List.take_append_drop]

/-- `CW.SET` leaves exactly its bits in the register (R101). -/
theorem runCommands_cwSet {s : State} {c : Bits} (h : c.length ≤ 256) :
    ∃ ports, runCommands (cwSetCommands c) s = .next { s with cwr := c, ports } := by
  have hclr : exec .cwClr s = .next ({ s with cwr := [] }.answered 0#8 0#64) := rfl
  obtain ⟨ports, hrun⟩ := runCommands_appendGroups c.length (s := { s with cwr := [] }.answered 0#8 0#64) (c := c)
    le_rfl (by simpa [State.answered])
  exact ⟨ports, (runCommands_cons hclr).trans hrun⟩

/-! ## Codebook rows -/

/-- The pair that a codebook's row stores (R101). -/
def rowPair (r : Symbol × Bits) : CodePair := { code := r.2, sym := r.1 }

/-- `CT.ROW` of a pair that the table has room for stores it (R101, R157). -/
theorem runCommands_ctRow {s : State} {r : Symbol × Bits} (h1 : 1 ≤ r.2.length) (h256 : r.2.length ≤ 256)
    (h : s.table.Admits (rowPair r)) :
    ∃ ports, runCommands (expandPseudo (.ctRow (aOf r.1.val) r.2)) s =
      .next { s with table := s.table.assign (rowPair r), cwr := r.2, ports } := by
  obtain ⟨ports, hset⟩ := runCommands_cwSet (s := s) h256
  have ha : (aOf r.1.val).toNat = r.1.val := aOf_toNat (by omega)
  have hins := exec_ctIns_of_admits (s := { s with cwr := r.2, ports }) ha (List.ne_nil_of_length_pos h1) h
  exact ⟨_, (runCommands_append hset).trans (runCommands_cons hins)⟩

/-- A stored pair leaves the room of another symbol's pair whose codeword does not clash with its own. -/
theorem CodeTable.Admits.assign {t : CodeTable} {e e' : CodePair} (h : t.Admits e') (hs : e.sym ≠ e'.sym)
    (hp : ¬ e.code <+: e'.code ∧ ¬ e'.code <+: e.code) : (t.assign e).Admits e' where
  unassigned := by
    have hf := h.unassigned
    simp only [CodeTable.assign, Fin.getElem_fin] at hf ⊢
    rwa [Vector.getElem_set_ne _ _ fun hv => hs (Fin.ext hv)]
  apart := fun y hy => ((mem_insertPair e y t.inv).mp hy).elim (fun hye => hye ▸ hp) (h.apart y)

theorem runCommands_ctRows {s : State} {rows : List (Symbol × Bits)} (hg : GoodRows rows)
    (h : ∀ r ∈ rows, s.table.Admits (rowPair r)) :
    ∃ cwr ports, runCommands (rows.flatMap fun r => expandPseudo (.ctRow (aOf r.1.val) r.2)) s =
      .next { s with table := (rows.map rowPair).foldl CodeTable.assign s.table, cwr, ports } := by
  induction rows generalizing s with
  | nil => exact ⟨s.cwr, s.ports, rfl⟩
  | cons r rows ih =>
    obtain ⟨hlen, hsym, hpre⟩ := hg
    rw [List.forall_mem_cons] at hlen h
    rw [List.map_cons, List.nodup_cons] at hsym
    rw [List.pairwise_cons] at hpre
    obtain ⟨ports, hrow⟩ := runCommands_ctRow hlen.1.1 hlen.1.2 h.1
    obtain ⟨cwr, ports', hrest⟩ :=
      ih (s := { s with table := s.table.assign (rowPair r), cwr := r.2, ports }) ⟨hlen.2, hsym.2, hpre.2⟩
        fun q hq => (h.2 q hq).assign (fun hs => hsym.1 (List.mem_map.mpr ⟨q, hq, hs.symm⟩)) (hpre.1 q hq)
    exact ⟨cwr, ports', (runCommands_append hrow).trans hrest⟩

/-! ## The loaded table -/

/-- The table that the rows of a codebook leave (R292). -/
def loadedTable (rows : List (Symbol × Bits)) : CodeTable :=
  (rows.map rowPair).foldl CodeTable.assign CodeTable.reset

theorem admits_reset (e : CodePair) : CodeTable.reset.Admits e :=
  ⟨by simp [CodeTable.reset], by simp [CodeTable.reset]⟩

/-- Loading a codebook answers, and changes the table, the register and the response record only (R292). -/
theorem runCommands_load (s : State) {rows : List (Symbol × Bits)} (hg : GoodRows rows) :
    ∃ cwr ports, runCommands (loadCommands (rows.map fun r => (aOf r.1.val, r.2))) s =
      .next { s with table := loadedTable rows, cwr, ports } := by
  have hclr : exec .ctClr s = .next ({ s with table := CodeTable.reset }.answered 0#8 0#64) := rfl
  obtain ⟨cwr, ports, hrows⟩ :=
    runCommands_ctRows (s := { s with table := CodeTable.reset }.answered 0#8 0#64) hg fun r _ =>
      admits_reset (rowPair r)
  refine ⟨cwr, ports, ?_⟩
  rw [loadCommands, List.flatMap_map, runCommands_cons hclr]
  exact hrows

/-- A loaded table meets the invariants and holds exactly its rows (R158, R292). -/
theorem loadedTable_spec {rows : List (Symbol × Bits)} (hg : GoodRows rows) :
    TableInv (loadedTable rows) ∧ (∀ e, e ∈ (loadedTable rows).inv ↔ (e.sym, e.code) ∈ rows) ∧
      (loadedTable rows).inv.length = rows.length := by
  obtain ⟨hinv, hmem, hlen⟩ := foldl_assign_spec (rows.map rowPair) CodeTable.reset tableInv_reset
    (fun e _ => (admits_reset e).unassigned) (by simpa [Function.comp_def, rowPair] using hg.symbols)
    (List.forall_mem_map.mpr hg.lengths) (List.pairwise_map.mpr hg.prefixFree) fun e _ => (admits_reset e).apart
  refine ⟨hinv, fun e => (hmem e).trans ?_, hlen.trans (by simp [CodeTable.reset])⟩
  simp only [List.mem_map, CodeTable.reset, List.not_mem_nil, or_false]
  exact ⟨fun ⟨r, hr, he⟩ => he ▸ hr, fun he => ⟨_, he, rfl⟩⟩

theorem TableInv.inv_nodup {t : CodeTable} (h : TableInv t) : t.inv.Nodup :=
  h.rising.imp fun hlt he => hlt.ne (congrArg CodePair.sym he)

/-- A table that meets the invariants is given by the set of its pairs (R33). -/
theorem TableInv.ext {t u : CodeTable} (ht : TableInv t) (hu : TableInv u) (h : ∀ e, e ∈ t.inv ↔ e ∈ u.inv) :
    t = u := by
  have hinv : t.inv = u.inv :=
    List.Perm.eq_of_pairwise (fun _ _ _ _ hab hba => absurd hab hba.asymm) ht.rising hu.rising
      ((List.perm_ext_iff_of_nodup ht.inv_nodup hu.inv_nodup).mpr h)
  have hfwd : t.fwd = u.fwd := Vector.ext fun i hi => Option.ext fun c => by
    have hc := (ht.consistent c ⟨i, hi⟩).symm.trans ((h _).trans (hu.consistent c ⟨i, hi⟩))
    exact hc
  have hnsym : t.nsym = u.nsym := BitVec.eq_of_toNat_eq (by rw [ht.counted, hu.counted, hinv])
  obtain ⟨fwd, inv, nsym⟩ := t
  obtain rfl : fwd = u.fwd := hfwd
  obtain rfl : inv = u.inv := hinv
  obtain rfl : nsym = u.nsym := hnsym
  rfl

theorem GoodRows.perm {rows rows' : List (Symbol × Bits)} (hp : rows'.Perm rows) (hg : GoodRows rows) :
    GoodRows rows' where
  lengths := fun r hr => hg.lengths r (hp.mem_iff.mp hr)
  symbols := (hp.map _).nodup_iff.mpr hg.symbols
  prefixFree := (hp.pairwise_iff And.symm).mpr hg.prefixFree

/-- The order of a codebook's rows does not matter (R157). -/
theorem loadedTable_of_perm {rows rows' : List (Symbol × Bits)} (hp : rows'.Perm rows) (hg : GoodRows rows) :
    loadedTable rows' = loadedTable rows := by
  obtain ⟨hinv, hmem, -⟩ := loadedTable_spec hg
  obtain ⟨hinv', hmem', -⟩ := loadedTable_spec (hg.perm hp)
  exact hinv'.ext hinv fun e => (hmem' e).trans (hp.mem_iff.trans (hmem e).symm)

/-- Settles O22: the refusals in the order of `CT.INS`'s checks, and a loaded table as a set of pairs. -/
theorem codeTableInsertFollowsItsRule : Obligations.CodeTableInsertFollowsItsRule := by
  refine ⟨fun s => ⟨CodeTable.reset, rfl, fun x => by simp [CodeTable.reset], rfl, rfl⟩,
    fun s t t' rows rows' hg hp ht ht' => ?_, fun s a => ⟨fun h => ?_, fun x ha => ⟨exec_ctIns_of_empty ha,
      exec_ctIns_of_assigned ha, exec_ctIns_of_clash ha, fun hne hx hap => ?_⟩⟩⟩
  -- rows in another order
  · obtain ⟨cwr, ports, hrun⟩ := runCommands_load s hg
    obtain ⟨cwr', ports', hrun'⟩ := runCommands_load s (hg.perm hp)
    obtain rfl := Host.Outcome.next.inj (ht.symm.trans hrun)
    obtain rfl := Host.Outcome.next.inj (ht'.symm.trans hrun')
    exact loadedTable_of_perm hp hg
  -- CT.INS
  · exact exec_of_not_wellFormed (decide_eq_false (Nat.not_le.mpr h))
  · exact ⟨_, exec_ctIns_of_admits ha hne ⟨hx, hap⟩, rfl, fun e => mem_insertPair _ _ _, rfl⟩

end Sys2Proof.Machine
end

section
/-! SUPPORT. `CT.GEN` (spec/42_codeword_lut.md rules R154, R156, R158, R161, R162): the walk below an entry, and the table
that it fills from a finished tree. -/

namespace Sys2Proof.Machine

/-! ## The walk -/

/-- What a walk that answers has met: a leaf, or an internal entry below both of whose children it answers (R156). -/
theorem walk_cases {node : Vector Node 513} {d : Nat} {n : NodeIndex} {p : Bits} {l : List CodePair}
    (h : walk node d n p = some l) : ∃ d' e, d = d' + 1 ∧ node[n.toNat]? = some e ∧
      (e.kind = .leaf ∧ l = [{ code := p, sym := e.sym }] ∨
        e.kind = .internal ∧ ∃ l1 l2, walk node d' e.left (p ++ [false]) = some l1 ∧
          walk node d' e.right (p ++ [true]) = some l2 ∧ l = l1 ++ l2) := by
  cases d with
  | zero => cases h
  | succ d =>
    unfold walk at h
    split at h
    case h_1 => cases h
    case h_2 e he =>
      refine ⟨d, e, rfl, he, ?_⟩
      split at h
      case h_1 => cases h
      case h_2 hk =>
        cases h
        exact .inl ⟨hk, rfl⟩
      case h_3 hk =>
        split at h
        case h_1 l1 l2 h1 h2 =>
          cases h
          exact .inr ⟨hk, l1, l2, h1, h2, rfl⟩
        case h_2 => cases h

/-- The walk lists every leaf that a path leads to, with that path (R156). -/
theorem mem_walk_of_follow {node : Vector Node 513} {d : Nat} {n m : NodeIndex} {p q : Bits} {l : List CodePair}
    {x : Symbol} (h : walk node d n p = some l) (hf : follow node n q = some m)
    (hx : leafSymbol node m.toNat = some x) : { code := p ++ q, sym := x } ∈ l := by
  induction q generalizing d n p l with
  | nil =>
    obtain rfl : n = m := Option.some.inj hf
    obtain ⟨d, e, rfl, he, ⟨hk, rfl⟩ | ⟨hk, -⟩⟩ := walk_cases h
    · simp_all [leafSymbol]
    · simp [leafSymbol, he, hk] at hx
  | cons b q ih =>
    obtain ⟨d, e, rfl, he, ⟨hk, -⟩ | ⟨hk, l1, l2, h1, h2, rfl⟩⟩ := walk_cases h
    · simp [follow, he, hk] at hf
    · simp only [follow, he, hk, if_true] at hf
      rw [List.append_cons, List.mem_append]
      cases b with
      | false => exact .inl (ih h1 hf)
      | true => exact .inr (ih h2 hf)

/-! ## Complete codes -/

/-- The codewords of a tree's leaves, each beginning with `p`: one leaf, or two such lists below `p`'s two branches. -/
inductive CompleteBelow : Bits → List CodePair → Prop
  | leaf (p : Bits) (x : Symbol) : CompleteBelow p [{ code := p, sym := x }]
  | branch {p : Bits} {l r : List CodePair} (hl : CompleteBelow (p ++ [false]) l) (hr : CompleteBelow (p ++ [true]) r) :
      CompleteBelow p (l ++ r)

theorem completeBelow_walk {node : Vector Node 513} {d : Nat} {n : NodeIndex} {p : Bits} {l : List CodePair}
    (h : walk node d n p = some l) : CompleteBelow p l := by
  induction d generalizing n p l with
  | zero => cases h
  | succ d ih =>
    obtain ⟨d', e, hd, -, ⟨-, rfl⟩ | ⟨-, l1, l2, h1, h2, rfl⟩⟩ := walk_cases h
    · exact .leaf p e.sym
    · cases hd
      exact .branch (ih h1) (ih h2)

namespace CompleteBelow

variable {p : Bits} {l : List CodePair}

theorem ne_nil (h : CompleteBelow p l) : l ≠ [] := by
  induction h with
  | leaf => exact List.cons_ne_nil _ _
  | branch _ _ ihl _ => exact List.append_ne_nil_of_left_ne_nil ihl _

theorem isPrefix_of_mem (h : CompleteBelow p l) {e : CodePair} (he : e ∈ l) : p <+: e.code := by
  induction h with
  | leaf => exact List.mem_singleton.mp he ▸ List.prefix_refl _
  | branch _ _ ihl ihr =>
    exact (List.mem_append.mp he).elim (fun h => (List.prefix_append _ _).trans (ihl h))
      fun h => (List.prefix_append _ _).trans (ihr h)

theorem exists_extending (h : CompleteBelow p l) : ∃ e ∈ l, p <+: e.code := by
  obtain ⟨e, he⟩ := List.exists_mem_of_ne_nil l h.ne_nil
  exact ⟨e, he, h.isPrefix_of_mem he⟩

/-- Kraft's equality: over `2 ^ m`, the codewords below `p` weigh together what `p` alone would (R162(b)). -/
theorem kraft_sum (h : CompleteBelow p l) {m : Nat} (hm : ∀ e ∈ l, e.code.length ≤ m) :
    p.length ≤ m ∧ (l.map fun e => 2 ^ (m - e.code.length)).sum = 2 ^ (m - p.length) := by
  induction h with
  | leaf p x => exact ⟨hm _ List.mem_cons_self, by simp⟩
  | @branch p l r _ _ ihl ihr =>
    rw [List.forall_mem_append] at hm
    obtain ⟨hle, hsl⟩ := ihl hm.1
    obtain ⟨-, hsr⟩ := ihr hm.2
    simp only [List.length_append, List.length_singleton] at hle hsl hsr
    refine ⟨by omega, ?_⟩
    rw [List.map_append, List.sum_append, hsl, hsr, ← Nat.two_mul, ← Nat.pow_succ']
    congr 1
    omega

/-- A path that a codeword properly extends is extended both ways (R162(b)). -/
theorem extends_both (h : CompleteBelow p l) {q : Bits} (hq : p <+: q) {e : CodePair} (he : e ∈ l)
    (hqe : q <+: e.code) (hne : e.code ≠ q) (b : Bool) : ∃ e' ∈ l, q ++ [b] <+: e'.code := by
  induction h with
  | leaf p x =>
    obtain rfl := List.mem_singleton.mp he
    exact absurd (hqe.eq_of_length_le hq.length_le).symm hne
  | @branch p l r hl hr ihl ihr =>
    by_cases hpq : p = q
    · subst hpq
      cases b with
      | false =>
        obtain ⟨e', he', hpre⟩ := hl.exists_extending
        exact ⟨e', List.mem_append_left _ he', hpre⟩
      | true =>
        obtain ⟨e', he', hpre⟩ := hr.exists_extending
        exact ⟨e', List.mem_append_right _ he', hpre⟩
    · have hlt : p.length < q.length := lt_of_le_of_ne hq.length_le fun hlen => hpq (hq.eq_of_length hlen)
      have hbranch : ∀ c, p ++ [c] <+: e.code → p ++ [c] <+: q := fun c hc =>
        List.prefix_of_prefix_length_le hc hqe (by simpa using hlt)
      obtain he | he := List.mem_append.mp he
      · obtain ⟨e', he', hpre⟩ := ihl (hbranch _ (hl.isPrefix_of_mem he)) he
        exact ⟨e', List.mem_append_left _ he', hpre⟩
      · obtain ⟨e', he', hpre⟩ := ihr (hbranch _ (hr.isPrefix_of_mem he)) he
        exact ⟨e', List.mem_append_right _ he', hpre⟩

end CompleteBelow

/-! ## The root of a finished tree -/

namespace TreeInv

variable {t : TreeUnit} (h : TreeInv t) (hb : t.tstate = .built)
include h hb

theorem entriesBelow_root_perm : (entriesBelow t.node 513 t.root.toNat).Perm (usedEntries t.node) := by
  obtain ⟨n, hq, hr⟩ := h.root_of_built hb
  have hf := h.forest
  simp only [hq, List.map_cons, List.map_nil, List.flatMap_cons, List.flatMap_nil, List.append_nil] at hf
  rwa [hr]

/-- A finished tree has as many leaves as the arena (R30(a)). -/
theorem leavesBelow_root_length : (leavesBelow t.node t.root.toNat).length = countKind t.node .leaf := by
  have hused : ((usedEntries t.node).filter fun m => kindAt t.node m = .leaf) =
      (List.range 513).filter fun m => kindAt t.node m = .leaf := by
    rw [usedEntries, List.filter_filter]
    exact List.filter_congr fun m _ => by cases kindAt t.node m <;> rfl
  have hperm := (h.entriesBelow_root_perm hb).filter fun m => kindAt t.node m = .leaf
  rw [hused, ← h.leavesBelow_val] at hperm
  exact (List.length_map _).symm.trans hperm.length_eq

/-- The root is the arena's internal entry or a leaf, told apart by its index (R26). -/
theorem kindAt_root : kindAt t.node t.root.toNat = if t.root.toNat < 257 then .leaf else .internal := by
  obtain ⟨n, hq, hr⟩ := h.root_of_built hb
  have hfree := h.queue_used n (by simp [hq])
  have hlt := h.root_lt_next hb
  have hint := h.internalPlace n
  rw [hr] at hlt ⊢
  rw [kindAt_fin]
  cases hk : t.node[n].kind with
  | free => exact absurd hk hfree
  | leaf =>
    have hn : ¬ (257 ≤ n.val ∧ n.val < t.next.toNat) := fun hc => NodeKind.noConfusion (hk.symm.trans (hint.mpr hc))
    rw [if_pos (by omega)]
  | internal => rw [if_neg (by have := hint.mp hk; omega)]

/-- A root that is a leaf is the leaf of the only symbol (R26). -/
theorem leavesBelow_of_root_leaf (hk : kindAt t.node t.root.toNat = .leaf) :
    ∃ y : Symbol, leavesBelow t.node t.root.toNat = [y] ∧ t.root.toNat = y.val := by
  obtain ⟨n, -, hr⟩ := h.root_of_built hb
  rw [hr, kindAt_fin] at hk
  have hleaf : leafSymbol t.node n.val = some t.node[n].sym := by rw [leafSymbol_fin, if_pos hk]
  refine ⟨t.node[n].sym, ?_, hr.trans (h.leafPlace n hk)⟩
  rw [hr, leavesBelow, entriesBelow_other t.node n (by rw [hk]; nofun), List.filterMap_cons_some hleaf,
    List.filterMap_nil]

theorem mem_leavesBelow_of_root_leaf (hk : kindAt t.node t.root.toNat = .leaf) (x : Symbol) :
    x ∈ leavesBelow t.node t.root.toNat ↔ t.root = BitVec.ofNat 10 x.val := by
  obtain ⟨y, hy, hr⟩ := h.leavesBelow_of_root_leaf hb hk
  rw [hy, List.mem_singleton, ← BitVec.toNat_inj, hr, BitVec.toNat_ofNat, Nat.mod_eq_of_lt (by omega), eq_comm,
    Fin.ext_iff]

end TreeInv

/-! ## The table -/

/-- The table that `CT.GEN` leaves from a finished tree (R156). -/
def generatedTable (t : TreeUnit) : CodeTable :=
  ((generatedPairs t).getD []).foldl CodeTable.assign CodeTable.reset

theorem generatedTable_of_pairs {t : TreeUnit} {l : List CodePair} (hl : generatedPairs t = some l) :
    generatedTable t = l.foldl CodeTable.assign CodeTable.reset := by
  rw [generatedTable, hl, Option.getD_some]

theorem exec_ctGen_of_not_built {s : State} (hs : s.tree.tstate ≠ .built) : exec .ctGen s = .next (s.faulted 5#8) :=
  if_neg hs

/-- `CT.GEN` from a finished tree changes the table only (R156). -/
theorem exec_ctGen_of_built {s : State} (h : TreeInv s.tree) (hb : s.tree.tstate = .built) :
    exec .ctGen s = .next ({ s with table := generatedTable s.tree }.answered 0#8
      (BitVec.ofNat 64 (generatedTable s.tree).nsym.toNat)) := by
  obtain ⟨l, hl, -⟩ := generated_table h hb
  simp only [exec, execCtGen, if_pos hb, hl, generatedTable_of_pairs hl, BitVec.ofNat_toNat]
  rfl

section
variable {t : TreeUnit} (h : TreeInv t) (hb : t.tstate = .built)
include h hb

theorem generatedTable_inv : TableInv (generatedTable t) := by
  obtain ⟨l, hl, hinv, -⟩ := generated_table h hb
  rwa [generatedTable_of_pairs hl]

/-- The stored pairs are the ones that the walk answered, in some order (R156). -/
theorem generatedTable_perm {l : List CodePair} (hl : generatedPairs t = some l) : (generatedTable t).inv.Perm l := by
  obtain ⟨l', hl', hinv, hmem, hsym, -⟩ := generated_table h hb
  obtain rfl : l = l' := Option.some.inj (hl.symm.trans hl')
  have hnd : l.Nodup := .of_map _ (hsym ▸ (leavesBelow_root h hb).1)
  rw [generatedTable_of_pairs hl]
  exact (List.perm_ext_iff_of_nodup hinv.inv_nodup hnd).mpr hmem

theorem generatedTable_syms : ((generatedTable t).inv.map CodePair.sym).Perm (leavesBelow t.node t.root.toNat) := by
  obtain ⟨l, hl, -, -, hsym, -⟩ := generated_table h hb
  exact hsym ▸ (generatedTable_perm h hb hl).map _

theorem generatedTable_nsym : (generatedTable t).nsym.toNat = (leavesBelow t.node t.root.toNat).length := by
  rw [(generatedTable_inv h hb).counted, ← (generatedTable_syms h hb).length_eq, List.length_map]

/-- Exactly the leaves' symbols get a codeword (R156). -/
theorem generatedTable_fwd_ne_none (x : Symbol) :
    (generatedTable t).fwd[x] ≠ none ↔ x ∈ leavesBelow t.node t.root.toNat := by
  rw [← (generatedTable_syms h hb).mem_iff, List.mem_map, Option.ne_none_iff_exists']
  simp only [← (generatedTable_inv h hb).consistent]
  exact ⟨fun ⟨c, hc⟩ => ⟨_, hc, rfl⟩, fun ⟨e, he, hx⟩ => ⟨e.code, hx ▸ he⟩⟩

/-- What is stored for a symbol: `"0"` where the root is a leaf, else a path to the symbol's leaf (R156, R161). -/
theorem generatedTable_code {x : Symbol} {c : Bits} (hc : (generatedTable t).fwd[x] = some c) :
    if kindAt t.node t.root.toNat = .leaf then c = [false]
    else follow t.node t.root c = some (BitVec.ofNat 10 x.val) := by
  obtain ⟨l, hl, -, -, -, hcode, -⟩ := generated_table h hb
  exact hcode _ ((generatedTable_perm h hb hl).mem_iff.mp (((generatedTable_inv h hb).consistent c x).mpr hc))

/-- A lone leaf's codeword is `"0"` (R161). -/
theorem generatedTable_fwd_of_root_leaf (hk : kindAt t.node t.root.toNat = .leaf) (x : Symbol) (c : Bits) :
    (generatedTable t).fwd[x] = some c ↔ t.root = BitVec.ofNat 10 x.val ∧ c = [false] := by
  have hcode : ∀ {d}, (generatedTable t).fwd[x] = some d → d = [false] := fun hd => by
    simpa only [if_pos hk] using generatedTable_code h hb hd
  rw [← h.mem_leavesBelow_of_root_leaf hb hk, ← generatedTable_fwd_ne_none h hb]
  constructor
  · exact fun hc => ⟨by rw [hc]; nofun, hcode hc⟩
  · rintro ⟨hx, rfl⟩
    obtain ⟨d, hd⟩ := Option.ne_none_iff_exists'.mp hx
    exact hcode hd ▸ hd

/-- A root with children is walked from (R156). -/
theorem generatedPairs_of_root_internal (hk : kindAt t.node t.root.toNat = .internal) :
    ∃ l, generatedPairs t = some l ∧ walk t.node 513 t.root [] = some l := by
  obtain ⟨l, hl, -⟩ := generated_table h hb
  refine ⟨l, hl, ?_⟩
  unfold kindAt at hk
  unfold generatedPairs at hl
  split at hk
  case h_1 e he => simpa [he, hk] using hl
  case h_2 => cases hk

/-- Under a root with children, a symbol's codeword is the path to its leaf (R156). -/
theorem generatedTable_fwd_of_root_internal (hk : kindAt t.node t.root.toNat = .internal) (x : Symbol) (c : Bits) :
    (generatedTable t).fwd[x] = some c ↔
      kindAt t.node x.val = .leaf ∧ follow t.node t.root c = some (BitVec.ofNat 10 x.val) := by
  have hleaf : kindAt t.node x.val = t.node[leafIndex x].kind := kindAt_fin t.node (leafIndex x)
  rw [hleaf]
  constructor
  · intro hc
    refine ⟨((leavesBelow_root h hb).2 x).mp ((generatedTable_fwd_ne_none h hb x).mp (by rw [hc]; nofun)), ?_⟩
    simpa only [hk, reduceCtorEq, if_false] using generatedTable_code h hb hc
  · rintro ⟨hx, hf⟩
    obtain ⟨l, hl, hw⟩ := generatedPairs_of_root_internal h hb hk
    have hval : (BitVec.ofNat 10 x.val).toNat = (leafIndex x).val := Nat.mod_eq_of_lt (by omega)
    have hsym : leafSymbol t.node (BitVec.ofNat 10 x.val).toNat = some x := by
      rw [hval, leafSymbol_fin, if_pos hx]
      exact congrArg some (Fin.ext (h.leafPlace _ hx).symm)
    rw [← (generatedTable_inv h hb).consistent, (generatedTable_perm h hb hl).mem_iff]
    exact mem_walk_of_follow hw hf hsym

end

/-- Settles O24: the table of `CT.GEN`, by what its root is. -/
theorem codeGenerationStoresRootPaths : Obligations.CodeGenerationStoresRootPaths := by
  refine ⟨fun s => exec_ctGen_of_not_built, fun s h hb => ?_⟩
  have hinv := generatedTable_inv h hb
  exact ⟨_, exec_ctGen_of_built h hb, (generatedTable_nsym h hb).trans (h.leavesBelow_root_length hb),
    fun x c hc => hinv.lengths _ ((hinv.consistent c x).mpr hc), fun x c => hinv.consistent c x,
    generatedTable_fwd_of_root_leaf h hb, generatedTable_fwd_of_root_internal h hb⟩

end Sys2Proof.Machine
end

section
/-! SUPPORT. The code of a built tree (spec/42_codeword_lut.md rule R162(a), (b)). -/

namespace Sys2Proof.Machine

section
variable {t : TreeUnit} (h : TreeInv t) (hb : t.tstate = .built)
include h hb

/-- Under a root with children the stored pairs are a complete code (R162(b)). -/
theorem generatedTable_completeBelow (hk : kindAt t.node t.root.toNat = .internal) :
    ∃ l, (generatedTable t).inv.Perm l ∧ CompleteBelow [] l := by
  obtain ⟨l, hl, hw⟩ := generatedPairs_of_root_internal h hb hk
  exact ⟨l, generatedTable_perm h hb hl, completeBelow_walk hw⟩

theorem generatedTable_kraft_of_root_internal (hk : kindAt t.node t.root.toNat = .internal) :
    ((generatedTable t).inv.map fun e => 2 ^ (256 - e.code.length)).sum = 2 ^ 256 := by
  obtain ⟨l, hp, hc⟩ := generatedTable_completeBelow h hb hk
  rw [(hp.map _).sum_eq]
  exact (hc.kraft_sum fun e he => ((generatedTable_inv h hb).lengths e (hp.mem_iff.mpr he)).2).2

/-- A lone leaf's codeword weighs one half (R162(b)). -/
theorem generatedTable_kraft_of_root_leaf (hk : kindAt t.node t.root.toNat = .leaf) :
    ((generatedTable t).inv.map fun e => 2 ^ (256 - e.code.length)).sum = 2 ^ 255 := by
  have hinv := generatedTable_inv h hb
  have hlen : (generatedTable t).inv.length = 1 := by
    obtain ⟨y, hy, -⟩ := h.leavesBelow_of_root_leaf hb hk
    rw [← hinv.counted, generatedTable_nsym h hb, hy, List.length_singleton]
  obtain ⟨e, he⟩ := List.length_eq_one_iff.mp hlen
  have hcode : e.code = [false] :=
    ((generatedTable_fwd_of_root_leaf h hb hk e.sym e.code).mp ((hinv.consistent _ _).mp (by simp [he]))).2
  simp [he, hcode]

/-- An internal trie node has both children (R162(b)). -/
theorem generatedTable_children_of_root_internal (hk : kindAt t.node t.root.toNat = .internal) {p : Bits}
    (hp : trieNode (generatedTable t).inv p = .internal) (b : Bool) :
    trieNode (generatedTable t).inv (p ++ [b]) ≠ .absent := by
  obtain ⟨l, hperm, hc⟩ := generatedTable_completeBelow h hb hk
  obtain ⟨hno, hext⟩ := (trieNode_eq_internal_iff _ p).mp hp
  obtain ⟨e, he, hpe⟩ : ∃ e ∈ l, p <+: e.code := by
    obtain rfl | ⟨e, he, hpe⟩ := hext
    · exact hc.exists_extending
    · exact ⟨e, hperm.mem_iff.mp he, hpe⟩
  obtain ⟨e', he', hpb⟩ := hc.extends_both (List.nil_prefix) he hpe (hno e (hperm.mem_iff.mpr he)) b
  exact fun habs => ((trieNode_eq_absent_iff _ _).mp habs).2 e' (hperm.mem_iff.mpr he') hpb

end

theorem runCommands_tbBuild_ctGen {s : State} {t : TreeUnit} (hne : presentSymbols s.freq ≠ [])
    (hm : mergeAll (presentSymbols s.freq).length (initialTree s.freq) = .ok t) (h : TreeInv t)
    (hb : t.tstate = .built) :
    ∃ ports, runCommands [.tbBuild, .ctGen] s = .next { s with tree := t, table := generatedTable t, ports } :=
  ⟨_, (runCommands_cons (exec_tbBuild_of_mergeAll hne hm)).trans
    (runCommands_cons (exec_ctGen_of_built (s := { s with tree := t }.answered 0#8 _) h hb))⟩

/-- Settles O25: a tree of two or more leaves has a root with children, whose walk is a complete code. -/
theorem generatedCodeIsComplete : Obligations.GeneratedCodeIsComplete := by
  intro s l hl hm hlne
  have hp := presentSymbols_perm hl hm
  have hne := mt (presentSymbols_eq_nil_iff hl hm).mp hlne
  obtain ⟨t, hall, h, hb, hnext, hleaf⟩ := mergeAll_initialTree s.freq hne
  have hperm := (leavesBelow_root_perm h hb hleaf).trans hp
  obtain ⟨ports, hrun⟩ := runCommands_tbBuild_ctGen hne hall h hb
  rw [hp.length_eq] at hnext
  refine ⟨_, hrun, (generatedTable_nsym h hb).trans hperm.length_eq, rfl,
    fun x => (generatedTable_fwd_ne_none h hb x).trans hperm.mem_iff, fun h2 => ?_, fun h1 => ?_⟩
  · have hroot := h.root_succ_eq_next hb (by omega)
    have hk : kindAt t.node t.root.toNat = .internal := by rw [h.kindAt_root hb, if_neg (by omega)]
    exact ⟨generatedTable_kraft_of_root_internal h hb hk, fun p hp =>
      ⟨generatedTable_children_of_root_internal h hb hk hp _, generatedTable_children_of_root_internal h hb hk hp _⟩⟩
  · have hlt := h.root_lt_next hb
    exact generatedTable_kraft_of_root_leaf h hb (by rw [h.kindAt_root hb, if_pos (by omega)])

end Sys2Proof.Machine
end

section
/-! SUPPORT. The histogram of a source, and the code of two counted symbols (spec/41_tree_builder.md rule R143;
42_codeword_lut.md rule R162(d)). -/

namespace Sys2Proof.Machine

/-! ## The histogram -/

theorem literal_injective : Function.Injective literal := fun _ _ h => BitVec.eq_of_toNat_eq (Fin.mk.inj h)

theorem literal_val_le (b : Byte) : (literal b).val ≤ 255 := Nat.le_of_lt_succ b.isLt

theorem literal_ne_sentinel (b : Byte) : literal b ≠ sentinel := fun h => by
  have hv : (literal b).val = 256 := congrArg Fin.val h
  have := literal_val_le b
  omega

/-- A symbol is a byte's literal or the sentinel (R12). -/
theorem eq_literal_or_eq_sentinel (x : Symbol) : (∃ b, x = literal b) ∨ x = sentinel := by
  by_cases hx : x.val < 256
  · exact .inl ⟨BitVec.ofNat 8 x.val, Fin.ext (Nat.mod_eq_of_lt hx).symm⟩
  · exact .inr (Fin.ext (Nat.le_antisymm (Nat.le_of_lt_succ x.isLt) (Nat.not_lt.mp hx)))

theorem aByte_toNat (b : Byte) : (aByte b).toNat = (literal b).val := BitVec.toNat_setWidth_of_le (by decide)

/-- Counting a source whose counts fit adds each byte's number of occurrences and changes the histogram only (R123). -/
theorem runCommands_fqIncs {s : State} {bs : List Byte} (hw : s.cfg.cntW ≤ 32)
    (hfit : ∀ b, s.freq[literal b].toNat + bs.count b ≤ s.cfg.cntMax) :
    ∃ freq ports, runCommands (bs.map fun b => Instr.fqInc (aByte b)) s = .next { s with freq, ports } ∧
      (∀ b, freq[literal b].toNat = s.freq[literal b].toNat + bs.count b) ∧ freq[sentinel] = s.freq[sentinel] := by
  induction bs generalizing s with
  | nil => exact ⟨s.freq, s.ports, rfl, fun b => rfl, rfl⟩
  | cons a bs ih =>
    have hmax : s.cfg.cntMax < 2 ^ 32 :=
      Nat.sub_one_lt_of_le (Nat.two_pow_pos _) (Nat.pow_le_pow_right (by decide) hw)
    have hroom := hfit a
    rw [List.count_cons_self] at hroom
    have hx := exec_fqInc_of_not_full (s := s) (aByte_toNat a) (literal_val_le a) (by omega)
    have hinc : (s.freq[literal a] + 1#32).toNat = s.freq[literal a].toNat + 1 := by
      rw [BitVec.toNat_add]
      exact Nat.mod_eq_of_lt (by rw [BitVec.toNat_ofNat]; omega)
    have hset : ∀ b, (s.freq.set (literal a) (s.freq[literal a] + 1#32))[literal b].toNat + bs.count b =
        s.freq[literal b].toNat + (a :: bs).count b := by
      intro b
      rw [freq_set_getElem]
      by_cases hab : a = b
      · subst hab
        rw [if_pos rfl, hinc, List.count_cons_self]
        omega
      · rw [if_neg (fun hc => hab (literal_injective hc)), List.count_cons_of_ne hab]
    obtain ⟨freq, ports, hrun, hcount, hsent⟩ :=
      ih (s := { s with freq := s.freq.set (literal a) (s.freq[literal a] + 1#32) }.answered 0#8 0#64) hw
        fun b => (hset b).trans_le (hfit b)
    refine ⟨freq, ports, (runCommands_cons hx).trans hrun, fun b => (hcount b).trans (hset b), hsent.trans ?_⟩
    exact (freq_set_getElem _ _ _ _).trans (if_neg (literal_ne_sentinel a))

/-- From `FQ.CLR` on, the counts are the source's own and the sentinel's 1 (R121, R123, R290). -/
theorem runCommands_histogram (s : State) {bs : List Byte} (hw : s.cfg.cntW ≤ 32)
    (hfit : ∀ b, bs.count b ≤ s.cfg.cntMax) :
    ∃ freq ports, runCommands (.fqClr :: bs.map fun b => Instr.fqInc (aByte b)) s = .next { s with freq, ports } ∧
      (∀ b, freq[literal b].toNat = bs.count b) ∧ freq[sentinel] = 1#32 := by
  have hclr : exec .fqClr s = .next ({ s with freq := freqReset }.answered 0#8 0#64) := rfl
  have hzero : ∀ b, ({ s with freq := freqReset }.answered 0#8 0#64).freq[literal b].toNat = 0 := fun b => by
    show freqReset[literal b].toNat = 0
    rw [freqReset_getElem, if_neg (literal_ne_sentinel b).symm]
    rfl
  obtain ⟨freq, ports, hrun, hcount, hsent⟩ :=
    runCommands_fqIncs (s := { s with freq := freqReset }.answered 0#8 0#64) (bs := bs) hw fun b => by
      rw [hzero, Nat.zero_add]
      exact hfit b
  exact ⟨freq, ports, (runCommands_cons hclr).trans hrun, fun b => by rw [hcount, hzero, Nat.zero_add],
    hsent.trans freqReset_sentinel⟩

/-! ## Two counted symbols -/

theorem follow_singleton {node : Vector Node 513} {r : NodeIndex} {n : ArenaIndex} (hr : r.toNat = n.val)
    (hk : node[n].kind = .internal) (b : Bool) :
    follow node r [b] = some (if b then node[n].right else node[n].left) := by
  have he : node[r.toNat]? = some node[n] := by rw [hr]; exact Vector.getElem?_eq_getElem n.isLt
  simp only [follow, he, hk, if_true]

/-- A counted symbol's leaf carries its count and stands for itself in the order (R131). -/
theorem initialTree_leaf {freq : Vector Count 257} {x : Symbol} (hx : x ∈ presentSymbols freq) :
    (initialTree freq).node[leafIndex x] = leafNode x freq[x] := by
  simp only [(initialTree_fields freq).1]
  exact initialNodes_leaf freq x ((mem_presentSymbols freq x).mp hx)

/-- Two leaves are ordered by their counts, then by their symbols (R11, R131). -/
theorem initialTree_before {freq : Vector Count 257} {x y : Symbol} (hx : x ∈ presentSymbols freq)
    (hy : y ∈ presentSymbols freq)
    (hxy : freq[x].toNat < freq[y].toNat ∨ freq[x].toNat = freq[y].toNat ∧ x < y) :
    Before (initialTree freq).node (leafIndex x) (leafIndex y) := by
  have hcount : ∀ c : Count, (c.setWidth 41).toNat = c.toNat := fun c => BitVec.toNat_setWidth_of_le (by decide)
  simpa only [Before, initialTree_leaf hx, initialTree_leaf hy, leafNode, hcount] using hxy

theorem mergeAll_succ_of_building {t u : TreeUnit} {n : NodeIndex} (hs : t.tstate = .building)
    (hm : mergeOnce t = .ok (u, n)) (k : Nat) : mergeAll (k + 1) t = mergeAll k u := by
  simp only [mergeAll, if_pos hs, hm]

section
variable {freq : Vector Count 257} {x y : Symbol} (hp : (presentSymbols freq).Perm [x, y])
  (hxy : freq[x].toNat < freq[y].toNat ∨ freq[x].toNat = freq[y].toNat ∧ x < y)
include hp hxy

/-- Of two counted symbols the first in the order is merged first, so it is the left child (R132, R135). -/
theorem leastOf_initialTree_of_two {a b : ArenaIndex} (ha : LeastOf (initialTree freq).node (initialTree freq).pq a)
    (hb : LeastOf (initialTree freq).node ((initialTree freq).pq.erase a) b) :
    a = leafIndex x ∧ b = leafIndex y := by
  have hinv := initialTree_inv freq (List.ne_nil_of_mem (hp.mem_iff.mpr List.mem_cons_self))
  have hmem : ∀ m, m ∈ (initialTree freq).pq ↔ m = leafIndex x ∨ m = leafIndex y := fun m => by
    rw [(initialTree_fields freq).2.1, (hp.map leafIndex).mem_iff]
    simp
  have hbefore := initialTree_before (hp.mem_iff.mpr (by simp)) (hp.mem_iff.mpr (by simp)) hxy
  have hax : a = leafIndex x := LeastOf.unique
    ⟨(hmem _).mpr (.inl rfl), fun m hm hne => ((hmem m).mp hm).resolve_left hne ▸ hbefore⟩ ha
  obtain ⟨hne, hbq⟩ := hinv.queue_nodup.mem_erase_iff.mp hb.1
  exact ⟨hax, ((hmem b).mp hbq).resolve_left (hax ▸ hne)⟩

/-- Two counted symbols make a tree of one merge, the first in the order to the left (R132, R135, R143). -/
theorem follow_root_of_two {t : TreeUnit} (ht : mergeAll (presentSymbols freq).length (initialTree freq) = .ok t)
    (b : Bool) : follow t.node t.root [b] = some (BitVec.ofNat 10 (if b then y else x).val) := by
  obtain ⟨-, hpq, -, -, hstate⟩ := initialTree_fields freq
  have hlen : (presentSymbols freq).length = 2 := hp.length_eq
  have hbuilding : (initialTree freq).tstate = .building := by rw [hstate, if_neg (by omega)]
  have hinv := initialTree_inv freq (List.ne_nil_of_length_pos (by omega))
  obtain ⟨a, b', n, ha, hb, hn, hmerge, -, hlen'⟩ := hinv.mergeOnce_of_building hbuilding
  obtain ⟨rfl, rfl⟩ := leastOf_initialTree_of_two hp hxy ha hb
  obtain ⟨hroot, hbuilt⟩ := merged_of_one_left (initialTree freq) (leafIndex x) (leafIndex y) n
    (by rw [hpq, List.length_map] at hlen'; omega)
  rw [hlen, mergeAll_succ_of_building hbuilding hmerge, mergeAll_of_built hbuilt] at ht
  obtain rfl := Except.ok.inj ht
  have hnode := merged_node_self (initialTree freq) (leafIndex x) (leafIndex y) n
  rw [follow_singleton (n := n) (by rw [hroot, hn]) (by rw [hnode]; rfl), hnode]
  cases b <;> rfl

end

/-- Building and generating from two counted symbols gives the first in the order `"0"` and the other `"1"`
(R143, R162(d)). -/
theorem runCommands_generate_of_two {s : State} {x y : Symbol} (hp : (presentSymbols s.freq).Perm [x, y])
    (hxy : s.freq[x].toNat < s.freq[y].toNat ∨ s.freq[x].toNat = s.freq[y].toNat ∧ x < y) :
    ∃ t, runCommands [.tbBuild, .ctGen] s = .next t ∧ t.table.nsym = 2#9 ∧ t.err = s.err ∧
      t.table.fwd[x] = some [false] ∧ t.table.fwd[y] = some [true] := by
  have hlen : (presentSymbols s.freq).length = 2 := hp.length_eq
  have hne : presentSymbols s.freq ≠ [] := List.ne_nil_of_length_pos (by omega)
  obtain ⟨t, hall, h, hb, hnext, hleaf⟩ := mergeAll_initialTree s.freq hne
  obtain ⟨ports, hrun⟩ := runCommands_tbBuild_ctGen hne hall h hb
  have hperm := (leavesBelow_root_perm h hb hleaf).trans hp
  have hroot := h.root_succ_eq_next hb (by omega)
  have hk : kindAt t.node t.root.toNat = .internal := by rw [h.kindAt_root hb, if_neg (by omega)]
  have hfwd : ∀ b : Bool, (generatedTable t).fwd[if b then y else x] = some [b] := fun b => by
    have hmem : (if b then y else x) ∈ leavesBelow t.node t.root.toNat := hperm.mem_iff.mpr (by cases b <;> simp)
    refine (generatedTable_fwd_of_root_internal h hb hk _ _).mpr ⟨?_, follow_root_of_two hp hxy hall b⟩
    exact (kindAt_fin t.node (leafIndex _)).trans (((leavesBelow_root h hb).2 _).mp hmem)
  refine ⟨_, hrun, BitVec.eq_of_toNat_eq ?_, rfl, hfwd false, hfwd true⟩
  exact (generatedTable_nsym h hb).trans hperm.length_eq

/-! ## One repeated byte -/

/-- With one byte counted, the counted symbols are its literal and the sentinel (R131). -/
theorem presentSymbols_of_one_byte {freq : Vector Count 257} {b : Byte} (hpos : 0 < freq[literal b].toNat)
    (hzero : ∀ b', b' ≠ b → freq[literal b'].toNat = 0) (hs : 0 < freq[sentinel].toNat) :
    (presentSymbols freq).Perm [literal b, sentinel] := by
  have hnd : [literal b, sentinel].Nodup := by simp [literal_ne_sentinel]
  refine presentSymbols_perm (s := { State.reset with freq }) hnd fun x => ?_
  obtain ⟨b', rfl⟩ | rfl := eq_literal_or_eq_sentinel x
  · by_cases hb : b' = b
    · subst hb
      exact iff_of_true (by simp) hpos
    · refine iff_of_false ?_ (Nat.not_lt.mpr (hzero b' hb).le)
      simp [literal_injective.ne hb, literal_ne_sentinel]
  · exact iff_of_true (by simp) hs

/-- Settles O26: a byte counted once ties with the sentinel and is the lesser symbol; counted more often it is second. -/
theorem oneRepeatedByteGetsATwoRowCode : Obligations.OneRepeatedByteGetsATwoRowCode := by
  intro s b n hw h1 hn
  obtain ⟨freq, ports, hrun, hcount, hsent⟩ := runCommands_histogram s (bs := List.replicate n b) hw fun b' =>
    (List.count_le_length).trans (by rwa [List.length_replicate])
  have hb : freq[literal b].toNat = n := by rw [hcount, List.count_replicate_self]
  have hs : freq[sentinel].toNat = 1 := by rw [hsent]; rfl
  have hp : (presentSymbols freq).Perm [literal b, sentinel] :=
    presentSymbols_of_one_byte (by omega)
      (fun b' hb' => by rw [hcount, List.count_replicate, if_neg (by simpa using hb'.symm)]) (by omega)
  by_cases hone : n = 1
  · have hlt : literal b < sentinel := Nat.lt_succ_of_le (literal_val_le b)
    obtain ⟨t, hgen, hnsym, herr, hx, hy⟩ := runCommands_generate_of_two (s := { s with freq, ports }) hp
      (.inr ⟨by rw [hb, hs, hone], hlt⟩)
    exact ⟨t, (runCommands_append hrun).trans hgen, hnsym, herr, fun _ => ⟨hx, hy⟩, fun h2 => by omega⟩
  · obtain ⟨t, hgen, hnsym, herr, hx, hy⟩ := runCommands_generate_of_two (s := { s with freq, ports })
      (hp.trans (.swap _ _ _)) (.inl (by rw [hb, hs]; omega))
    exact ⟨t, (runCommands_append hrun).trans hgen, hnsym, herr, fun h => absurd h hone, fun _ => ⟨hx, hy⟩⟩

end Sys2Proof.Machine
end

section
/-! SUPPORT. `putbit` and the commands of the bit packer, case by case, on an operand in range (spec/43_bit_packer.md
rules R180 to R184); out of range `BP.ENC` is refused as every command is (`exec_of_not_wellFormed`). -/

namespace Sys2Proof.Machine

/-! ## `putbit` -/

/-- Where the replaced bit is 0, replacing it is an OR (R181). -/
theorem setBit_eq_or {v : Byte} {i : Nat} (hi : i < 8) (hv : v.getLsbD i = false) (b : Bool) :
    setBit v i b = v ||| ((if b then 1#8 else 0#8) <<< i) := by
  cases b with
  | true => rfl
  | false =>
    have hself : setBit v i false = v := byte_ext _ _ fun j hj => by
      rw [setBit_getLsbD v i j false hi hj]
      split
      · rw [‹j = i›, hv]
      · rfl
    simp [hself]

/-- Settles O29, by whether the placed bit is the eighth. -/
theorem putbitPlacesOneBit : Obligations.PutbitPlacesOneBit := by
  intro r b
  have hi : 7 - r.nb.toNat < 8 := by omega
  have hnb := r.nb.isLt
  refine ⟨setBit r.acc (7 - r.nb.toNat) b, fun j hj => setBit_getLsbD _ _ _ _ hi hj, fun hr => ?_, fun h7 => ?_,
    fun h7 => ?_⟩
  · exact setBit_eq_or hi (hr _ (by omega)) b
  · exact if_pos (BitVec.eq_of_toNat_eq h7)
  · exact if_neg fun h => h7 (congrArg BitVec.toNat h)

/-! ## `BP.PUT` -/

section
variable {s : State} (ho : s.writer.wclosed = false)
include ho

theorem exec_bpPut_of_empty (hc : s.cwr = []) : exec .bpPut s = .next (s.faulted 7#8) := by
  simp only [exec, execBpPut, ho, if_pos hc]
  rfl

theorem exec_bpPut_of_nonempty (hc : s.cwr ≠ []) : exec .bpPut s = .next (s.writeCode s.cwr) := by
  simp only [exec, execBpPut, ho, if_neg hc]
  rfl

end

/-! ## `BP.ENC` -/

section
variable {s : State} {a : BitVec 16} {x : Symbol} (ha : a.toNat = x.val)
include ha

theorem exec_bpEnc_of_closed (hc : s.writer.wclosed = true) : exec (.bpEnc a) s = .next (s.faulted 11#8) := by
  simp only [exec, execBpEnc, symbolOperand_eq_some ha, if_pos hc]
  rfl

theorem exec_bpEnc_of_none (ho : s.writer.wclosed = false) (hx : s.table.fwd[x] = none) :
    exec (.bpEnc a) s = .next (s.faulted 10#8) := by
  simp only [exec, execBpEnc, symbolOperand_eq_some ha, ho, hx]
  rfl

theorem exec_bpEnc_of_some {c : Bits} (ho : s.writer.wclosed = false) (hx : s.table.fwd[x] = some c) :
    exec (.bpEnc a) s = .next (s.writeCode c) := by
  simp only [exec, execBpEnc, symbolOperand_eq_some ha, ho, hx]
  rfl

end

/-! ## `BP.FLUSH` -/

section
variable {s : State} (ho : s.writer.wclosed = false)
include ho

theorem exec_bpFlush_of_aligned (hn : s.writer.nb.toNat = 0) :
    exec .bpFlush s = .next ({ s with writer := { s.writer with wclosed := true } }.answered 0#8 0#64) := by
  have h0 : s.writer.nb = 0#3 := BitVec.eq_of_toNat_eq hn
  simp only [exec, execBpFlush, ho, if_pos h0]
  rfl

theorem exec_bpFlush_of_pending (hn : 0 < s.writer.nb.toNat) :
    exec .bpFlush s = .next
      { s with writer := { s.writer with acc := 0#8, nb := 0#3, wclosed := true, outcnt := s.writer.outcnt + 1#64 },
               out := s.out ++ [s.writer.acc], ports := s.ports ++ [.out s.writer.acc, .rsp 0#8 1#64] } := by
  have h0 : ¬ s.writer.nb = 0#3 := fun h => absurd (congrArg BitVec.toNat h) hn.ne'
  simp only [exec, execBpFlush, ho, if_neg h0, State.emitOut, State.respond, List.append_assoc]
  rfl

end

/-- Settles O30: each command by its refusals in order, then its result. -/
theorem bitPackerCommandsFollowTheirRules : Obligations.BitPackerCommandsFollowTheirRules := by
  refine ⟨⟨fun r => rfl, fun r b c => rfl⟩, fun s => rfl, fun s => ⟨fun hc => ⟨if_pos hc, if_pos hc⟩,
    exec_bpPut_of_empty, exec_bpPut_of_nonempty, exec_bpFlush_of_aligned, exec_bpFlush_of_pending⟩,
    fun s a => ⟨fun h => ?_, fun x ha => ⟨exec_bpEnc_of_closed ha, exec_bpEnc_of_none ha,
      fun c => exec_bpEnc_of_some ha⟩⟩⟩
  exact exec_of_not_wellFormed (decide_eq_false (Nat.not_le.mpr h))

end Sys2Proof.Machine
end

section
/-! SUPPORT. The packing of a writing session's bits, and what a writer that holds them emits (spec/20_memory.md rules
R73, R75; 43_bit_packer.md rule R185). -/

namespace Sys2Proof.Machine

/-! ## The packing -/

/-- Bit `k` of the stream, where the packing puts it (R73). -/
theorem packedBytes_getLsbD {w : Bits} {k : Nat} (hk : k < 8 * (packedBytes w).length) :
    ((packedBytes w).getD (k / 8) 0#8).getLsbD (7 - k % 8) = w.getD k false := by
  have hlt : k / 8 < (packedBytes w).length := by omega
  have hbyte : (packedBytes w)[k / 8] = packedByte w (k / 8) := by simp [packedBytes]
  have hpos : 8 * (k / 8) + (7 - (7 - k % 8)) = k := by omega
  rw [List.getD_eq_getElem _ _ hlt, hbyte, packedByte_getLsbD _ _ _ (by omega), hpos]

theorem wholeBytes_eq_take (w : Bits) : wholeBytes w = (packedBytes w).take (w.length / 8) := by
  rw [packedBytes_eq, List.take_left' (wholeBytes_length w)]

/-- What the whole bytes leave of the flushed stream (R75). -/
theorem packedBytes_drop (w : Bits) : (packedBytes w).drop (w.length / 8) =
    if w.length % 8 = 0 then [] else [packedByte w (w.length / 8)] := by
  rw [packedBytes_eq, List.drop_left' (wholeBytes_length w)]

/-- Past a whole number of bytes nothing is packed. -/
theorem packedByte_of_aligned {w : Bits} (h : w.length % 8 = 0) : packedByte w (w.length / 8) = 0#8 :=
  byte_ext _ _ fun i hi => by
    rw [packedByte_getLsbD _ _ _ hi, List.getD_eq_default _ _ (by omega), BitVec.getLsbD_zero]

/-! ## The session -/

/-- A session's next codeword extends its bits, emits the bytes it completes, and leaves the writer as open as it was
(R182, R183, R185). -/
theorem writeCode_holds {s : State} {w : Bits} (h : WriterHolds s.writer w) (c : Bits) :
    WriterHolds (s.writeCode c).writer (w ++ c) ∧ (s.writeCode c).writer.wclosed = s.writer.wclosed ∧
      (s.writeCode c).cwr = s.cwr ∧
      (s.writeCode c).out = s.out ++ (wholeBytes (w ++ c)).drop (w.length / 8) := by
  obtain ⟨hholds, hwhole⟩ := putBits_holds s.writer w c h
  refine ⟨hholds, putBits_wclosed _ _, rfl, ?_⟩
  rw [hwhole, List.drop_left' (wholeBytes_length w)]
  rfl

/-- `BP.FLUSH` completes the packing and closes the writer (R184, R185). -/
theorem exec_bpFlush_of_holds {s : State} {w : Bits} (h : WriterHolds s.writer w) (ho : s.writer.wclosed = false) :
    ∃ t, exec .bpFlush s = .next t ∧ t.out = s.out ++ (packedBytes w).drop (w.length / 8) ∧
      t.writer = { acc := 0#8, nb := 0#3, wclosed := true, wbitcnt := BitVec.ofNat 64 w.length,
                   outcnt := BitVec.ofNat 64 ((w.length + 7) / 8) } ∧ t.table = s.table := by
  obtain ⟨hheld, hpending, hbits, hbytes⟩ := h
  by_cases hn : w.length % 8 = 0
  · have hceil : (w.length + 7) / 8 = w.length / 8 := by omega
    have hnb : s.writer.nb = 0#3 := BitVec.eq_of_toNat_eq (hheld.trans hn)
    refine ⟨_, exec_bpFlush_of_aligned ho (hheld.trans hn), ?_, ?_, rfl⟩
    · rw [packedBytes_drop, if_pos hn, List.append_nil]
      rfl
    · simp only [State.answered, hpending, packedByte_of_aligned hn, hnb, hbits, hbytes, hceil]
  · have hceil : (w.length + 7) / 8 = w.length / 8 + 1 := by omega
    refine ⟨_, exec_bpFlush_of_pending ho (by omega), ?_, ?_, rfl⟩
    · rw [packedBytes_drop, if_neg hn, hpending]
    · simp only [hbits, hbytes, hceil, BitVec.ofNat_add]

/-- Settles O31: a session's bits grow by what each command writes, and the flush pads the last byte. -/
theorem writerEmitsThePackingOfItsBits : Obligations.WriterEmitsThePackingOfItsBits := by
  refine ⟨fun w => ⟨packedBytes_length w, wholeBytes_eq_take w, fun k => packedBytes_getLsbD⟩,
    fun s => ⟨_, rfl, writerHolds_reset, rfl, rfl⟩, fun s w h ho hc => ?_, fun s w c a x h ho ha hx => ?_,
    fun s w h ho => ?_⟩
  · exact ⟨_, exec_bpPut_of_nonempty ho hc, ho ▸ writeCode_holds h s.cwr⟩
  · exact ⟨_, exec_bpEnc_of_some ha ho hx, ho ▸ writeCode_holds h c⟩
  · obtain ⟨t, hx, hout, hw, -⟩ := exec_bpFlush_of_holds h ho
    exact ⟨t, hx, hout, hw⟩

end Sys2Proof.Machine
end

section
/-! SUPPORT. The encode sequence of an empty source (spec/42_codeword_lut.md rule R161; 43_bit_packer.md rule R187). -/

namespace Sys2Proof.Machine

/-! ## One counted symbol -/

/-- After `FQ.CLR` only the sentinel is counted (R121). -/
theorem presentSymbols_freqReset : (presentSymbols freqReset).Perm [sentinel] :=
  presentSymbols_perm (s := State.reset) (List.nodup_singleton _) fun x => by
    show x ∈ [sentinel] ↔ 0 < freqReset[x].toNat
    rw [List.mem_singleton, freqReset_getElem]
    by_cases hx : sentinel = x
    · simp [hx]
    · simp [hx, Ne.symm hx]

/-- A finished tree whose only leaf is that of `x` gives `x` the code `"0"` and no other symbol one (R161). -/
theorem generatedTable_of_lone_leaf {t : TreeUnit} (h : TreeInv t) (hb : t.tstate = .built)
    (hk : kindAt t.node t.root.toNat = .leaf) {x : Symbol} (hx : leavesBelow t.node t.root.toNat = [x]) :
    (generatedTable t).inv = [{ code := [false], sym := x }] ∧ (generatedTable t).nsym = 1#9 ∧
      (generatedTable t).fwd[x] = some [false] ∧ ∀ y, y ≠ x → (generatedTable t).fwd[y] = none := by
  have hmem : ∀ y, y ∈ leavesBelow t.node t.root.toNat ↔ y = x := fun y => by rw [hx, List.mem_singleton]
  have hfwd : (generatedTable t).fwd[x] = some [false] :=
    (generatedTable_fwd_of_root_leaf h hb hk x _).mpr
      ⟨(h.mem_leavesBelow_of_root_leaf hb hk x).mp ((hmem x).mpr rfl), rfl⟩
  have hone : (generatedTable t).nsym.toNat = 1 := by rw [generatedTable_nsym h hb, hx, List.length_singleton]
  have hinv := generatedTable_inv h hb
  obtain ⟨e, he⟩ := List.length_eq_one_iff.mp (hinv.counted.symm.trans hone)
  obtain rfl : { code := [false], sym := x } = e := List.mem_singleton.mp (he ▸ (hinv.consistent _ x).mpr hfwd)
  exact ⟨he, BitVec.eq_of_toNat_eq hone, hfwd, fun y hy =>
    not_not.mp fun hne => hy ((hmem y).mp ((generatedTable_fwd_ne_none h hb y).mp hne))⟩

/-- Building and generating from one counted symbol gives it the code `"0"` (R131, R161). -/
theorem runCommands_generate_of_one {s : State} {x : Symbol} (hp : (presentSymbols s.freq).Perm [x]) :
    ∃ tree table ports, runCommands [.tbBuild, .ctGen] s = .next { s with tree, table, ports } ∧
      table.inv = [{ code := [false], sym := x }] ∧ table.nsym = 1#9 ∧ table.fwd[x] = some [false] ∧
      ∀ y, y ≠ x → table.fwd[y] = none := by
  have hlen : (presentSymbols s.freq).length = 1 := hp.length_eq
  have hne : presentSymbols s.freq ≠ [] := List.ne_nil_of_length_pos (by omega)
  obtain ⟨t, hall, h, hb, hnext, hleaf⟩ := mergeAll_initialTree s.freq hne
  obtain ⟨ports, hrun⟩ := runCommands_tbBuild_ctGen hne hall h hb
  have hlt := h.root_lt_next hb
  have hk : kindAt t.node t.root.toNat = .leaf := by rw [h.kindAt_root hb, if_pos (by omega)]
  have hx := List.perm_singleton.mp ((leavesBelow_root_perm h hb hleaf).trans hp)
  exact ⟨t, generatedTable t, ports, hrun, generatedTable_of_lone_leaf h hb hk hx⟩

/-! ## The writing session -/

/-- The writing session of an empty source emits the packing of the sentinel's codeword (R185, R187). -/
theorem runCommands_write_of_empty {s : State} {c : Bits} (hc : s.table.fwd[sentinel] = some c) :
    ∃ t, runCommands (writeCommands []) s = .next t ∧ t.table = s.table ∧ t.out = s.out ++ packedBytes c := by
  obtain ⟨ports, hrst⟩ : ∃ ports, exec .bpRst s = .next { s with writer := Writer.reset, ports } := ⟨_, rfl⟩
  have henc := exec_bpEnc_of_some (s := { s with writer := Writer.reset, ports }) (a := 256#16) (x := sentinel) rfl rfl hc
  obtain ⟨hholds, ho, -, hout⟩ := writeCode_holds (s := { s with writer := Writer.reset, ports }) writerHolds_reset c
  obtain ⟨t, hflush, hout', -, htable⟩ := exec_bpFlush_of_holds hholds ho
  refine ⟨t, (runCommands_cons hrst).trans ((runCommands_cons henc).trans (runCommands_cons hflush)), htable, ?_⟩
  rw [hout', hout, wholeBytes_eq_take, List.append_assoc]
  exact congrArg (s.out ++ ·) (List.take_append_drop _ _)

/-- Settles O27: the lone sentinel's code is one bit 0, and its packing one byte. -/
theorem emptySourceGivesOneZeroByte : Obligations.EmptySourceGivesOneZeroByte := by
  intro s
  obtain ⟨ports₀, hclr⟩ : ∃ ports, exec .fqClr s = .next { s with freq := freqReset, ports } := ⟨_, rfl⟩
  obtain ⟨tree, table, ports, hgen, hinv, hnsym, hfwd, hnone⟩ :=
    runCommands_generate_of_one (s := { s with freq := freqReset, ports := ports₀ }) presentSymbols_freqReset
  obtain ⟨t, hwrite, rfl, hout⟩ := runCommands_write_of_empty
    (s := { s with freq := freqReset, tree, table, ports }) hfwd
  have hzero : packedBytes [false] = [0x00#8] := rfl
  refine ⟨t, (runCommands_cons hclr).trans ((runCommands_append hgen).trans hwrite), hfwd, hnone, hinv, hnsym, ?_⟩
  rw [hout, hzero]

end Sys2Proof.Machine
end

section
/-! SUPPORT. `getbit` and the input commands, case by case, on an operand in range (spec/44_bit_reader.md rules R195 to
R199); out of range `IN.BYTE` is refused as every command is (`exec_of_not_wellFormed`). -/

namespace Sys2Proof.Machine

/-! ## `getbit` -/

section
variable {r : Reader} (hn : r.rn.toNat = 0)
include hn

theorem getBit_of_empty (hq : r.inq = []) : getBit r = if r.eoi then .exhausted else .need := by
  have h0 : r.rn = 0#3 := BitVec.eq_of_toNat_eq hn
  simp only [getBit, if_pos h0, hq]

theorem getBit_of_cons {x : Byte} {q : List Byte} (hq : r.inq = x :: q) : getBit r = .bit (x.getLsbD 7)
    { r with inq := q, racc := x <<< 1, rn := 7#3, rbitcnt := r.rbitcnt + 1#64 } := by
  have h0 : r.rn = 0#3 := BitVec.eq_of_toNat_eq hn
  simp only [getBit, if_pos h0, hq]

end

theorem getBit_of_held {r : Reader} (hn : r.rn.toNat ≠ 0) : getBit r = .bit (r.racc.getLsbD 7)
    { r with racc := r.racc <<< 1, rn := r.rn - 1#3, rbitcnt := r.rbitcnt + 1#64 } :=
  if_neg fun h => hn (congrArg BitVec.toNat h)

/-! ## `IN.BYTE` -/

section
variable {s : State} {a : BitVec 16} {b : Byte} (ha : a.toNat = b.toNat)
include ha

theorem byteOperand_eq_some : byteOperand a = some b := by
  have hb := b.isLt
  have hset : a.setWidth 8 = b := BitVec.eq_of_toNat_eq (by rw [BitVec.toNat_setWidth, ha, Nat.mod_eq_of_lt hb])
  rw [byteOperand, if_pos (by omega), hset]

theorem exec_inByte_of_closed (he : s.reader.eoi = true) : exec (.inByte a) s = .next (s.faulted 12#8) := by
  simp only [exec, execInByte, byteOperand_eq_some ha, if_pos he]
  rfl

theorem exec_inByte_of_full (he : s.reader.eoi = false) (hc : s.cfg.inqCap = some s.reader.inq.length) :
    exec (.inByte a) s = .next (s.faulted 13#8) := by
  simp only [exec, execInByte, byteOperand_eq_some ha, he, if_pos hc]
  rfl

theorem exec_inByte_of_room (he : s.reader.eoi = false) (hc : s.cfg.inqCap ≠ some s.reader.inq.length) :
    exec (.inByte a) s = .next ({ s with reader := { s.reader with inq := s.reader.inq ++ [b] } }.answered 0#8
      (queueLength (s.reader.inq ++ [b]))) := by
  simp only [exec, execInByte, byteOperand_eq_some ha, he, if_neg hc]
  rfl

end

/-! ## `IN.BIT` -/

section
variable {s : State}

theorem exec_inBit_of_need (hg : getBit s.reader = .need) : exec .inBit s = .next (s.answered 32#8 0#64) := by
  simp only [exec, execInBit, hg]
  rfl

theorem exec_inBit_of_exhausted (hg : getBit s.reader = .exhausted) :
    exec .inBit s = .next (s.answered 33#8 0#64) := by
  simp only [exec, execInBit, hg]
  rfl

theorem exec_inBit_of_bit {b : Bool} {r : Reader} (hg : getBit s.reader = .bit b r) :
    exec .inBit s = .next ({ s with reader := r }.answered 0#8 (if b then 1#64 else 0#64)) := by
  simp only [exec, execInBit, hg]
  cases b <;> rfl

theorem exec_inBit_of_empty (hn : s.reader.rn.toNat = 0) (hq : s.reader.inq = []) :
    exec .inBit s = .next (s.answered (if s.reader.eoi then 33#8 else 32#8) 0#64) := by
  have hg := getBit_of_empty hn hq
  cases he : s.reader.eoi with
  | true => exact exec_inBit_of_exhausted (by rw [hg, he]; rfl)
  | false => exact exec_inBit_of_need (by rw [hg, he]; rfl)

end

/-- Settles O32: each command by its refusals in order, then its result. -/
theorem inputCommandsFollowTheirRules : Obligations.InputCommandsFollowTheirRules := by
  refine ⟨fun s => ⟨rfl, rfl⟩, fun s a => ⟨fun h => ?_, fun b ha => ⟨exec_inByte_of_closed ha, exec_inByte_of_full ha,
    fun he hc => ⟨_, exec_inByte_of_room ha he hc, fun hlt => ?_⟩⟩⟩,
    fun r => ⟨getBit_of_empty, fun _ _ hn => getBit_of_cons hn, getBit_of_held⟩,
    fun s => ⟨exec_inBit_of_need, exec_inBit_of_exhausted, fun b r => exec_inBit_of_bit⟩⟩
  · exact exec_of_not_wellFormed (decide_eq_false (Nat.not_le.mpr h))
  · have hlen : (s.reader.inq ++ [b]).length = s.reader.inq.length + 1 := List.length_append
    rw [queueLength_toNat _ (by omega), hlen]

end Sys2Proof.Machine
end

section
/-! SUPPORT. The bits a reader yields are those of the bytes it was given, in order (spec/20_memory.md rule R73;
44_bit_reader.md rule R200). -/

namespace Sys2Proof.Machine

namespace ReaderAt
variable {r : Reader} {bs : List Byte} {k : Nat} (h : ReaderAt r bs k)

theorem reset : ReaderAt Reader.reset [] 0 :=
  ⟨Nat.le_refl 0, rfl, rfl, rfl, rfl⟩

include h

/-- A byte appended to the queue is one more byte given (R196). -/
theorem push (b : Byte) : ReaderAt { r with inq := r.inq ++ [b] } (bs ++ [b]) k := by
  obtain ⟨hk, hq, hn, hx, hc⟩ := h
  refine ⟨?_, ?_, hn, ?_, hc⟩
  · rw [List.length_append]
    omega
  · rw [List.drop_append_of_le_length (by omega), hq]
  · rw [hx]
    split
    · rfl
    · rw [List.getD_append _ _ _ _ (by omega)]

/-- At a byte boundary the queue's first byte is loaded for its top bit (R198). -/
theorem getBit_of_aligned (hlt : k < 8 * bs.length) (h0 : k % 8 = 0) :
    ∃ r', getBit r = .bit ((bs.getD (k / 8) 0#8).getLsbD (7 - k % 8)) r' ∧ ReaderAt r' bs (k + 1) := by
  obtain ⟨-, hq, hn, -, hc⟩ := h
  have hbyte : k / 8 < bs.length := by omega
  have hcons : r.inq = bs.getD (k / 8) 0#8 :: bs.drop (k / 8 + 1) := by
    rw [hq, show (k + 7) / 8 = k / 8 by omega, List.drop_eq_getElem_cons hbyte, List.getD_eq_getElem _ _ hbyte]
  rw [show 7 - k % 8 = 7 by omega]
  refine ⟨_, getBit_of_cons (by omega) hcons, hlt, ?_, ?_, ?_, ?_⟩
  · rw [show (k + 1 + 7) / 8 = k / 8 + 1 by omega]
  · show 7 = _
    omega
  · rw [if_neg (by omega), show (k + 1) / 8 = k / 8 by omega, show (k + 1) % 8 = 1 by omega]
  · rw [hc, BitVec.ofNat_add]

/-- Inside a byte the next bit is the top one of what `RACC` holds of it (R198). -/
theorem getBit_of_unaligned (hlt : k < 8 * bs.length) (h0 : k % 8 ≠ 0) :
    ∃ r', getBit r = .bit ((bs.getD (k / 8) 0#8).getLsbD (7 - k % 8)) r' ∧ ReaderAt r' bs (k + 1) := by
  obtain ⟨-, hq, hn, hx, hc⟩ := h
  rw [if_neg h0] at hx
  have hbit : r.racc.getLsbD 7 = (bs.getD (k / 8) 0#8).getLsbD (7 - k % 8) := by
    rw [hx, BitVec.getLsbD_shiftLeft]
    simp [show ¬ 7 < k % 8 by omega]
  refine ⟨_, hbit ▸ getBit_of_held (by omega), hlt, ?_, ?_, ?_, ?_⟩
  · rw [hq, show (k + 1 + 7) / 8 = (k + 7) / 8 by omega]
  · have hle : 1#3 ≤ r.rn := BitVec.le_def.mpr (Nat.one_le_iff_ne_zero.mpr (by omega))
    rw [BitVec.toNat_sub_of_le hle, hn]
    show _ - 1 = _
    omega
  · rw [hx, ← BitVec.shiftLeft_add]
    split
    · exact BitVec.shiftLeft_eq_zero (by omega)
    · rw [show (k + 1) / 8 = k / 8 by omega, show (k + 1) % 8 = k % 8 + 1 by omega]
  · rw [hc, BitVec.ofNat_add]

/-- The reader's law (R200): the next bit yielded is that of the next place in its bytes. -/
theorem exists_getBit (hlt : k < 8 * bs.length) :
    ∃ r', getBit r = .bit ((bs.getD (k / 8) 0#8).getLsbD (7 - k % 8)) r' ∧ ReaderAt r' bs (k + 1) :=
  if h0 : k % 8 = 0 then h.getBit_of_aligned hlt h0 else h.getBit_of_unaligned hlt h0

end ReaderAt

/-- Settles O33: the law of `getbit` at each place, and an empty reader past the last. -/
theorem readerYieldsTheBitsOfItsBytes : Obligations.ReaderYieldsTheBitsOfItsBytes := by
  refine ⟨fun s => ⟨_, rfl, ReaderAt.reset⟩, fun s bs k a b h ha he hc => ⟨_, exec_inByte_of_room ha he hc, h.push b⟩,
    fun s bs k h hlt => ?_, fun s bs h => ?_⟩
  · obtain ⟨r, hg, hr⟩ := h.exists_getBit hlt
    exact ⟨_, exec_inBit_of_bit hg, hr, lastReply_respond _ .ok _⟩
  · obtain ⟨-, hq, hn, -, -⟩ := h
    exact exec_inBit_of_empty (by omega) (hq.trans (List.drop_eq_nil_of_le (by omega)))

end Sys2Proof.Machine
end

section
/-! SUPPORT. `DEC.SYM` and `DEC.RUN` as repeated transitions of the decoder (spec/45_decoder.md rules R213, R214). -/

namespace Sys2Proof.Machine

/-! ## What a response says -/

theorem RspCode.num_eq_zero_iff (c : RspCode) : c.num = 0#8 ↔ c = .ok := by
  cases c <;> decide

theorem Reply.kind_eq_iff (r : Reply) (k : BitVec 2) : r.kind = k ↔ r.data.toNat % 4 = k.toNat := by
  have hk : r.kind.toNat = r.data.toNat % 4 := by simp [Reply.kind]
  rw [BitVec.toNat_eq, hk]

/-! ## The loops -/

/-- What `DEC.RUN` sends once its loop has ended with `r`: `DCOUNT` at the sentinel, else the loop's own response
(R214). -/
def sendRunReply (r : State × Reply) : State :=
  if r.2.code = .ok then r.1.respond .ok r.1.decoder.dcount else sendReply r

theorem exec_decSym (s : State) : exec .decSym s = .next (sendReply (decodeSymbol s.reader.available s)) := rfl

theorem exec_decRun (s : State) : exec .decRun s = .next (sendRunReply (decodeRun s.reader.available s)) := by
  simp only [exec, execDecRun, sendRunReply]
  split <;> rfl

section
variable {s : State}

theorem exec_decSym_of_inner (h : (decodeBit s).2.code = .ok ∧ (decodeBit s).2.kind = 0#2) :
    exec .decSym s = exec .decSym (decodeBit s).1 := by
  rw [exec_decSym, exec_decSym, decodeSymbol_unfold s, if_pos h]

theorem exec_decSym_of_stop (h : ¬ ((decodeBit s).2.code = .ok ∧ (decodeBit s).2.kind = 0#2)) :
    exec .decSym s = .next (sendReply (decodeBit s)) := by
  rw [exec_decSym, decodeSymbol_unfold s, if_neg h]

theorem exec_decRun_of_more (hc : (decodeBit s).2.code = .ok) (hk : (decodeBit s).2.kind ≠ 2#2) :
    exec .decRun s = exec .decRun (decodeBit s).1 := by
  rw [exec_decRun, exec_decRun, decodeRun_unfold s, if_pos ⟨hc, hk⟩]

theorem exec_decRun_of_sentinel (hc : (decodeBit s).2.code = .ok) (hk : (decodeBit s).2.kind = 2#2) :
    exec .decRun s = .next ((decodeBit s).1.respond .ok (decodeBit s).1.decoder.dcount) := by
  rw [exec_decRun, decodeRun_unfold s, if_neg fun h => h.2 hk, sendRunReply, if_pos hc]

theorem exec_decRun_of_stop (hc : (decodeBit s).2.code ≠ .ok) : exec .decRun s = .next (sendReply (decodeBit s)) := by
  rw [exec_decRun, decodeRun_unfold s, if_neg fun h => hc h.1, sendRunReply, if_neg hc]

/-- A refusal or a condition at the first transition is the command's own. -/
theorem exec_decode_of_stop {i : Instr} (hi : i = .decBit ∨ i = .decSym ∨ i = .decRun) {r : State × Reply}
    (hb : decodeBit s = r) (hr : r.2.code ≠ .ok) : exec i s = .next (sendReply r) := by
  subst hb
  rcases hi with rfl | rfl | rfl
  · rfl
  · exact exec_decSym_of_stop fun h => hr h.1
  · exact exec_decRun_of_stop hr

end

/-- Without its response, what a transition leaves is what the loops go on from. -/
theorem sendReply_dropLast_ports (r : State × Reply) : (sendReply r).ports.dropLast = r.1.ports :=
  List.dropLast_concat

/-- Settles O35, by whether the first transition stops the loop. -/
theorem decodeSymbolRepeatsTransitions : Obligations.DecodeSymbolRepeatsTransitions := by
  intro s
  have hinner : (decodeBit s).2.code = .ok ∧ (decodeBit s).2.kind = 0#2 ↔
      (decodeBit s).2.code.num = 0#8 ∧ (decodeBit s).2.data.toNat % 4 = 0 :=
    and_congr (RspCode.num_eq_zero_iff _).symm (Reply.kind_eq_iff _ _)
  refine ⟨_, _, _, rfl, lastReply_respond _ _ _, fun h => ?_, fun h => exec_decSym_of_stop (hinner.not.mpr h)⟩
  rw [sendReply_dropLast_ports]
  exact exec_decSym_of_inner (hinner.mpr h)

/-- Settles O36, by what the first transition answers. -/
theorem decodeRunRepeatsTransitions : Obligations.DecodeRunRepeatsTransitions := by
  intro s
  refine ⟨_, _, _, rfl, lastReply_respond _ _ _, fun hc hk => ?_, fun hc hk => ?_, fun hc => ?_⟩
  · rw [sendReply_dropLast_ports]
    exact exec_decRun_of_more ((RspCode.num_eq_zero_iff _).mp hc) fun h => hk ((Reply.kind_eq_iff _ _).mp h)
  · rw [sendReply_dropLast_ports]
    exact exec_decRun_of_sentinel ((RspCode.num_eq_zero_iff _).mp hc) ((Reply.kind_eq_iff _ _).mpr hk)
  · exact exec_decRun_of_stop ((RspCode.num_eq_zero_iff _).not.mp hc)

end Sys2Proof.Machine
end

section
/-! SUPPORT. The decoder's transition case by case (spec/45_decoder.md rules R210 to R212). -/

namespace Sys2Proof.Machine

/-! ## Refusals and conditions -/

section
variable {s : State}

theorem decodeBit_of_no_table (h : s.table.nsym = 0#9) :
    decodeBit s = (s.recordFault .tableEmpty, { code := .tableEmpty, data := 0#64 }) :=
  if_pos h

theorem decodeBit_of_ended (hn : s.table.nsym ≠ 0#9) (h : s.decoder.dstate = .done ∨ s.decoder.dstate = .error) :
    decodeBit s = (s.recordFault .decoderState, { code := .decoderState, data := 0#64 }) := by
  rw [decodeBit, if_neg hn, if_pos h]

theorem Decoding.not_ended (h : Decoding s) : ¬ (s.decoder.dstate = .done ∨ s.decoder.dstate = .error) := by
  rcases h.state with hs | hs <;> simp [hs]

theorem decodeBit_of_need (hd : Decoding s) (hg : getBit s.reader = .need) :
    decodeBit s = (s, { code := .needInput, data := 0#64 }) := by
  simp only [decodeBit, if_neg hd.table, if_neg hd.not_ended, hg]

theorem decodeBit_of_exhausted (hd : Decoding s) (hg : getBit s.reader = .exhausted) :
    decodeBit s =
      ({ s with decoder := s.decoder.markTruncated }, { code := .inputExhausted, data := s.decoder.dcount }) := by
  simp only [decodeBit, if_neg hd.table, if_neg hd.not_ended, hg]

end

section
variable {s : State} {i : Instr} (hi : i = .decBit ∨ i = .decSym ∨ i = .decRun)
include hi

theorem exec_decode_of_no_table (h : s.table.nsym = 0#9) : exec i s = .next (s.faulted 14#8) :=
  exec_decode_of_stop hi (decodeBit_of_no_table h) nofun

theorem exec_decode_of_ended (hn : s.table.nsym ≠ 0#9) (h : s.decoder.dstate = .done ∨ s.decoder.dstate = .error) :
    exec i s = .next (s.faulted 15#8) :=
  exec_decode_of_stop hi (decodeBit_of_ended hn h) nofun

theorem exec_decode_of_need (hd : Decoding s) (hg : getBit s.reader = .need) :
    exec i s = .next (s.answered 32#8 0#64) :=
  exec_decode_of_stop hi (decodeBit_of_need hd hg) nofun

theorem exec_decode_of_exhausted (hd : Decoding s) (hg : getBit s.reader = .exhausted) :
    exec i s = .next ({ s with decoder := { s.decoder with trunc := true } }.answered 33#8 s.decoder.dcount) :=
  exec_decode_of_stop hi (decodeBit_of_exhausted hd hg) nofun

end

/-- Settles O37: the first transition refuses or waits, and stops the loop. -/
theorem decoderRefusesOrWaitsWithoutReading : Obligations.DecoderRefusesOrWaitsWithoutReading := by
  intro s i hi
  refine ⟨exec_decode_of_no_table hi, exec_decode_of_ended hi, fun hn hs hq hr => ⟨fun he => ?_, fun he => ?_⟩⟩
  · exact exec_decode_of_need hi ⟨hn, hs⟩ (by rw [getBit_of_empty hr hq, he]; rfl)
  · exact exec_decode_of_exhausted hi ⟨hn, hs⟩ (by rw [getBit_of_empty hr hq, he]; rfl)

/-! ## Moves -/

/-- A symbol above a 2-bit kind, as a decode response lays them out (R211). -/
theorem symbolField_or_kind (x : Symbol) {k : Nat} (hk : k < 4) :
    (symbolField x).setWidth 64 <<< 2 ||| BitVec.ofNat 64 k = BitVec.ofNat 64 (4 * x.val + k) := by
  have hshift : (symbolField x).setWidth 64 <<< 2 = BitVec.ofNat 64 (x.val <<< 2) := BitVec.eq_of_toNat_eq (by
    rw [BitVec.toNat_shiftLeft, BitVec.toNat_setWidth_of_le (by decide), symbolField_toNat, BitVec.toNat_ofNat])
  rw [hshift, ← BitVec.ofNat_or, ← Nat.shiftLeft_add_eq_or_of_lt hk, Nat.shiftLeft_eq, Nat.mul_comm]

/-- What reaching a literal's leaf leaves (R211). -/
theorem leafMove_of_literal (s : State) (r : Reader) {x : Symbol} (hx : x.val ≤ 255) :
    leafMove s r x =
      ({ s with reader := r,
                decoder := { s.decoder with cur := [], dcount := s.decoder.dcount + 1#64, dstate := .root },
                decout := s.decout ++ [BitVec.ofNat 8 x.val], ports := s.ports ++ [.dec (BitVec.ofNat 8 x.val)] },
        { code := .ok, data := BitVec.ofNat 64 (4 * x.val + 1) }) := by
  rw [leafMove, if_pos hx, symbolField_or_kind x (by decide)]
  rfl

/-- What reaching the sentinel's leaf leaves (R211). -/
theorem leafMove_sentinel (s : State) (r : Reader) :
    leafMove s r sentinel =
      ({ s with reader := r, decoder := { s.decoder with cur := [], dstate := .done } },
        { code := .ok, data := 0x402#64 }) :=
  rfl

theorem decodeMove_absent {s : State} {p : Bits} (h : trieNode s.table.inv p = .absent) :
    decodeMove s p = ({ s with decoder := { s.decoder with cur := p, dstate := .error } }.recordFault .decodeMismatch,
      { code := .decodeMismatch, data := s.reader.rbitcnt }) := by
  simp only [decodeMove, h]

section
variable {s : State} (hd : Decoding s) {b : Bool} {r : Reader} (hg : getBit s.reader = .bit b r)
include hd hg

theorem exec_decBit_of_bit :
    exec .decBit s = .next (sendReply (decodeMove { s with reader := r } (s.decoder.cur ++ [b]))) := by
  rw [exec, execDecBit, decodeBit_of_bit s hd b r hg]

theorem exec_decBit_of_literal {x : Symbol} (hx : x.val ≤ 255)
    (ht : trieNode s.table.inv (s.decoder.cur ++ [b]) = .leaf x) : exec .decBit s = .next
      { s with reader := r,
               decoder := { s.decoder with cur := [], dcount := s.decoder.dcount + 1#64, dstate := .root },
               decout := s.decout ++ [BitVec.ofNat 8 x.val],
               ports := s.ports ++ [.dec (BitVec.ofNat 8 x.val), .rsp 0#8 (BitVec.ofNat 64 (4 * x.val + 1))] } := by
  rw [exec_decBit_of_bit hd hg, decodeMove_leaf s r _ x ht, leafMove_of_literal s r hx, sendReply, State.respond,
    List.append_assoc]
  rfl

theorem exec_decBit_of_sentinel (ht : trieNode s.table.inv (s.decoder.cur ++ [b]) = .leaf sentinel) :
    exec .decBit s = .next
      ({ s with reader := r, decoder := { s.decoder with cur := [], dstate := .done } }.answered 0#8 0x402#64) := by
  rw [exec_decBit_of_bit hd hg, decodeMove_leaf s r _ _ ht]
  rfl

theorem exec_decBit_of_internal (ht : trieNode s.table.inv (s.decoder.cur ++ [b]) = .internal) :
    exec .decBit s = .next
      ({ s with reader := r, decoder := { s.decoder with cur := s.decoder.cur ++ [b], dstate := .descending } }.answered
        0#8 0#64) := by
  rw [exec_decBit_of_bit hd hg, decodeMove_internal { s with reader := r } _ ht]
  rfl

theorem exec_decBit_of_absent (ht : trieNode s.table.inv (s.decoder.cur ++ [b]) = .absent) :
    exec .decBit s = .next
      { s with reader := r, decoder := { s.decoder with cur := s.decoder.cur ++ [b], dstate := .error },
               err := { lasterr := 16#8, errseen := true }, ports := s.ports ++ [.rsp 16#8 r.rbitcnt] } := by
  rw [exec_decBit_of_bit hd hg, decodeMove_absent (s := { s with reader := r }) ht]
  rfl

end

/-- Settles O34: the refusals in order, then the moves by what the trie holds at the path read. -/
theorem decoderTransitionsFollowTheirRules : Obligations.DecoderTransitionsFollowTheirRules := by
  refine ⟨fun s => rfl, fun s => exec_decode_of_no_table (.inl rfl), fun s => exec_decode_of_ended (.inl rfl),
    fun s h hn hs => ⟨exec_decode_of_need (.inl rfl) ⟨hn, hs⟩, exec_decode_of_exhausted (.inl rfl) ⟨hn, hs⟩, ?_⟩⟩
  rintro b r p hg rfl
  have hd : Decoding s := ⟨hn, hs⟩
  refine ⟨fun x hx hm => ?_, fun hm => ?_, fun hne hpre => ?_, fun hno => ?_⟩
  · exact exec_decBit_of_literal hd hg hx (h.trieNode_leaf _ _ hm)
  · exact exec_decBit_of_sentinel hd hg (h.trieNode_leaf _ _ hm)
  · exact exec_decBit_of_internal hd hg ((trieNode_eq_internal_iff _ _).mpr ⟨hne, .inr hpre⟩)
  · exact exec_decBit_of_absent hd hg ((trieNode_eq_absent_iff _ _).mpr ⟨List.concat_ne_nil _ _, hno⟩)

end Sys2Proof.Machine
end

section
/-! SUPPORT. The decode commands on a stream of whole codewords (spec/45_decoder.md rules R213, R214). -/

namespace Sys2Proof.Machine

/-! ## Codewords of a table -/

theorem TableInv.mem_of_fwd {t : CodeTable} (h : TableInv t) {x : Symbol} {c : Bits} (hx : t.fwd[x] = some c) :
    { code := c, sym := x } ∈ t.inv :=
  (h.consistent c x).mpr hx

theorem TableInv.code_ne_nil {t : CodeTable} (h : TableInv t) {x : Symbol} {c : Bits} (hx : t.fwd[x] = some c) :
    c ≠ [] :=
  List.ne_nil_of_length_pos (h.lengths _ (h.mem_of_fwd hx)).1

theorem TableInv.nsym_ne_zero {t : CodeTable} (h : TableInv t) {x : Symbol} {c : Bits} (hx : t.fwd[x] = some c) :
    t.nsym ≠ 0#9 := fun h0 => by
  have hlen : t.inv.length = 0 := by rw [← h.counted, h0]; rfl
  rw [List.length_eq_zero_iff] at hlen
  exact List.not_mem_nil (hlen ▸ h.mem_of_fwd hx)

theorem codeStream_cons {t : CodeTable} {x : Symbol} {xs : List Symbol} {w : Bits}
    (h : codeStream t (x :: xs) = some w) :
    ∃ c v, t.fwd[x] = some c ∧ codeStream t xs = some v ∧ w = c ++ v := by
  simp only [codeStream] at h
  split at h
  · cases h
    exact ⟨_, _, ‹_›, ‹_›, rfl⟩
  · cases h

/-! ## One codeword -/

/-- `s` after decoding `xs` from the root back to the root, the reader then being `r` (R211). -/
def State.decoded (s : State) (r : Reader) (xs : List Byte) : State :=
  { s with reader := r, decoder := { s.decoder with dcount := s.decoder.dcount + BitVec.ofNat 64 xs.length },
           decout := s.decout ++ xs, ports := s.ports ++ xs.map .dec }

/-- `s` after the sentinel, the reader then being `r` (R211). -/
def State.decodeEnded (s : State) (r : Reader) : State :=
  { s with reader := r, decoder := { s.decoder with dstate := .done } }

theorem State.decoded_nil (s : State) (r : Reader) : s.decoded r [] = { s with reader := r } := by
  simp [State.decoded]

theorem State.decoded_decoded (s : State) (r r' : Reader) (xs ys : List Byte) :
    (s.decoded r xs).decoded r' ys = s.decoded r' (xs ++ ys) := by
  simp [State.decoded, BitVec.add_assoc, BitVec.ofNat_add]

/-- The reader `r'` is `r` once exactly `c` is taken from it and `z` is left (R198, R200). -/
structure Consumed (r : Reader) (c z : Bits) (r' : Reader) : Prop where
  unread : r'.unread = z
  eoi : r'.eoi = r.eoi
  count : r'.rbitcnt = r.rbitcnt + BitVec.ofNat 64 c.length

theorem Consumed.trans {r r' r'' : Reader} {c c' z z' : Bits} (h : Consumed r c z r') (h' : Consumed r' c' z' r'') :
    Consumed r (c ++ c') z' r'' where
  unread := h'.unread
  eoi := h'.eoi.trans h.eoi
  count := by rw [h'.count, h.count, List.length_append, BitVec.ofNat_add, BitVec.add_assoc]

/-- The decoder stands at the root of a table that meets its invariants (R33, R48). -/
structure AtRoot (s : State) : Prop where
  table : TableInv s.table
  dstate : s.decoder.dstate = .root
  cur : s.decoder.cur = []

namespace AtRoot
variable {s : State} (hs : AtRoot s)
include hs

theorem decoded (r : Reader) (xs : List Byte) : AtRoot (s.decoded r xs) :=
  ⟨hs.table, hs.dstate, hs.cur⟩

theorem leafMove_of_literal (r : Reader) {x : Symbol} (hx : x.val ≤ 255) :
    leafMove s r x =
      (s.decoded r [BitVec.ofNat 8 x.val], { code := .ok, data := BitVec.ofNat 64 (4 * x.val + 1) }) := by
  rw [Machine.leafMove_of_literal s r hx, ← hs.dstate, ← hs.cur]
  rfl

theorem leafMove_sentinel (r : Reader) :
    leafMove s r sentinel = (s.decodeEnded r, { code := .ok, data := 0x402#64 }) := by
  rw [Machine.leafMove_sentinel s r, ← hs.cur]
  rfl

/-- The loops on one codeword, from the root (`decode_codeword`). -/
theorem decode_codeword {x : Symbol} {c z : Bits} (hx : s.table.fwd[x] = some c) (hu : s.reader.unread = c ++ z) :
    ∃ r, Consumed s.reader c z r ∧ decodeSymbol s.reader.available s = leafMove s r x ∧
      decodeRun s.reader.available s =
        if x.val ≤ 255 then decodeRun (leafMove s r x).1.reader.available (leafMove s r x).1 else leafMove s r x := by
  have hm : { code := s.decoder.cur ++ c, sym := x } ∈ s.table.inv := by
    rw [hs.cur]
    exact hs.table.mem_of_fwd hx
  obtain ⟨r, hunread, heoi, hcount, hsym, hrun⟩ := Machine.decode_codeword c s z x hs.table
    ⟨hs.table.nsym_ne_zero hx, .inl hs.dstate⟩ (hs.table.code_ne_nil hx) hm hu
  exact ⟨r, ⟨hunread, heoi, hcount⟩, hsym, hrun⟩

theorem exec_decSym_of_literal {x : Symbol} {c z : Bits} (hl : x.val ≤ 255) (hx : s.table.fwd[x] = some c)
    (hu : s.reader.unread = c ++ z) :
    ∃ r, Consumed s.reader c z r ∧ exec .decSym s =
      .next ((s.decoded r [BitVec.ofNat 8 x.val]).respond .ok (BitVec.ofNat 64 (4 * x.val + 1))) := by
  obtain ⟨r, hr, hsym, -⟩ := hs.decode_codeword hx hu
  refine ⟨r, hr, ?_⟩
  rw [exec_decSym, hsym, hs.leafMove_of_literal r hl]
  rfl

theorem exec_decSym_of_sentinel {c z : Bits} (hx : s.table.fwd[sentinel] = some c) (hu : s.reader.unread = c ++ z) :
    ∃ r, Consumed s.reader c z r ∧ exec .decSym s = .next ((s.decodeEnded r).respond .ok 0x402#64) := by
  obtain ⟨r, hr, hsym, -⟩ := hs.decode_codeword hx hu
  refine ⟨r, hr, ?_⟩
  rw [exec_decSym, hsym, hs.leafMove_sentinel r]
  rfl

/-! ## Codewords up to the sentinel's -/

/-- `DEC.RUN` decodes a literal and goes on from the root. -/
theorem exec_decRun_of_literal {b : Byte} {c z : Bits} (hb : s.table.fwd[literal b] = some c)
    (hu : s.reader.unread = c ++ z) :
    ∃ r, Consumed s.reader c z r ∧ exec .decRun s = exec .decRun (s.decoded r [b]) := by
  obtain ⟨r, hr, -, hrun⟩ := hs.decode_codeword hb hu
  have hbyte : BitVec.ofNat 8 (literal b).val = b := (BitVec.ofNat_toNat 8 b).trans (BitVec.setWidth_eq b)
  refine ⟨r, hr, ?_⟩
  rw [exec_decRun, exec_decRun, hrun, if_pos (literal_val_le b), hs.leafMove_of_literal r (literal_val_le b), hbyte]

theorem exec_decRun_of_sentinel {c z : Bits} (hx : s.table.fwd[sentinel] = some c) (hu : s.reader.unread = c ++ z) :
    ∃ r, Consumed s.reader c z r ∧ exec .decRun s = .next ((s.decodeEnded r).respond .ok s.decoder.dcount) := by
  obtain ⟨r, hr, -, hrun⟩ := hs.decode_codeword hx hu
  refine ⟨r, hr, ?_⟩
  rw [exec_decRun, hrun, if_neg (by decide), hs.leafMove_sentinel r]
  rfl

end AtRoot

/-- `DEC.RUN` on the codewords of `xs` and of the sentinel decodes exactly `xs` (R214). -/
theorem exec_decRun_of_codeStream {s : State} {xs : List Byte} {w z : Bits} (hs : AtRoot s)
    (hw : codeStream s.table (xs.map literal ++ [sentinel]) = some w) (hu : s.reader.unread = w ++ z) :
    ∃ r, Consumed s.reader w z r ∧ exec .decRun s =
      .next (((s.decoded r xs).decodeEnded r).respond .ok (s.decoded r xs).decoder.dcount) := by
  induction xs generalizing s w with
  | nil =>
    obtain ⟨c, v, hx, hv, rfl⟩ := codeStream_cons hw
    cases hv
    rw [List.append_nil] at hu ⊢
    obtain ⟨r, hr, hrun⟩ := hs.exec_decRun_of_sentinel hx hu
    refine ⟨r, hr, ?_⟩
    rw [hrun, s.decoded_nil]
    rfl
  | cons b xs ih =>
    obtain ⟨c, v, hb, hv, rfl⟩ := codeStream_cons hw
    rw [List.append_assoc] at hu
    obtain ⟨r, hr, hrun⟩ := hs.exec_decRun_of_literal hb hu
    obtain ⟨r', hr', hrest⟩ := ih (hs.decoded r [b]) hv hr.unread
    refine ⟨r', hr.trans hr', ?_⟩
    rw [hrun, hrest, s.decoded_decoded]
    rfl

/-- Settles O38: a codeword leads the loops to its leaf, and `DEC.RUN` on to the sentinel's. -/
theorem decodeCommandsReadWholeCodewords : Obligations.DecodeCommandsReadWholeCodewords := by
  intro s ht hroot hcur
  have hs : AtRoot s := ⟨ht, hroot, hcur⟩
  refine ⟨fun x c z hl hx hu => ?_, fun c z hx hu => ?_, fun xs w z hw hu => ?_⟩
  · obtain ⟨r, ⟨hunread, heoi, hcount⟩, hrun⟩ := hs.exec_decSym_of_literal hl hx hu
    refine ⟨r, hunread, heoi, hcount, hrun.trans ?_⟩
    rw [State.respond, State.decoded, List.append_assoc]
    rfl
  · obtain ⟨r, ⟨hunread, heoi, hcount⟩, hrun⟩ := hs.exec_decSym_of_sentinel hx hu
    exact ⟨r, hunread, heoi, hcount, hrun⟩
  · obtain ⟨r, ⟨hunread, heoi, hcount⟩, hrun⟩ := exec_decRun_of_codeStream hs hw hu
    exact ⟨r, hunread, heoi, hcount, hrun⟩

end Sys2Proof.Machine
end

section
/-! SUPPORT. A writing session and a reading session over the bytes it emits (spec/45_decoder.md rule R215;
70_reset_and_hazards.md rules R290, R292). -/

namespace Sys2Proof.Machine

/-! ## The writing session -/

theorem codeStream_ne_none {t : CodeTable} {xs : List Symbol} (h : ∀ x ∈ xs, t.fwd[x] ≠ none) :
    codeStream t xs ≠ none := by
  induction xs with
  | nil => nofun
  | cons x xs ih =>
    rw [List.forall_mem_cons] at h
    obtain ⟨c, hc⟩ := Option.ne_none_iff_exists'.mp h.1
    obtain ⟨w, hw⟩ := Option.ne_none_iff_exists'.mp (ih h.2)
    simp [codeStream, hc, hw]

/-- `s` in a writing session that has written `w`, its flush still to come (R185). -/
def State.writing (s : State) (w : Bits) (writer : Writer) (ports : List PortEvent) : State :=
  { s with writer, out := s.out ++ wholeBytes w, ports }

theorem exec_bpRst_writing (s : State) :
    ∃ ports, exec .bpRst s = .next (s.writing [] Writer.reset ports) := by
  have hout : s.out ++ wholeBytes [] = s.out := List.append_nil _
  simp only [State.writing, hout]
  exact ⟨_, rfl⟩

/-- A writer that holds the bits `w` and takes more (R180, R185). -/
structure OpenWriter (r : Writer) (w : Bits) : Prop where
  holds : WriterHolds r w
  isOpen : r.wclosed = false

section
variable {s : State} {w : Bits} {r : Writer} {ports : List PortEvent} (h : OpenWriter r w)
include h

theorem OpenWriter.writeCode (c : Bits) :
    ∃ r' ports', (s.writing w r ports).writeCode c = s.writing (w ++ c) r' ports' ∧ OpenWriter r' (w ++ c) := by
  obtain ⟨hholds, hwhole⟩ := putBits_holds r w c h.holds
  have hout : s.out ++ wholeBytes (w ++ c) = s.out ++ wholeBytes w ++ (putBits r c).2 := by
    rw [hwhole, List.append_assoc]
  refine ⟨_, ((s.writing w r ports).writeCode c).ports, ?_, hholds, (putBits_wclosed _ _).trans h.isOpen⟩
  simp only [State.writing, hout]
  rfl

/-- `BP.ENC` for each symbol writes their codewords one after another (R183, R185). -/
theorem runCommands_bpEncs {xs : List Symbol} {v : Bits} (hv : codeStream s.table xs = some v) :
    ∃ r' ports', runCommands (xs.map fun x => .bpEnc (aOf x.val)) (s.writing w r ports) =
      .next (s.writing (w ++ v) r' ports') ∧ OpenWriter r' (w ++ v) := by
  induction xs generalizing w r ports v with
  | nil =>
    cases hv
    rw [List.append_nil]
    exact ⟨r, ports, rfl, h⟩
  | cons x xs ih =>
    obtain ⟨c, u, hx, hu, rfl⟩ := codeStream_cons hv
    have henc := exec_bpEnc_of_some (s := s.writing w r ports) (aOf_toNat (n := x.val) (by omega)) h.isOpen hx
    obtain ⟨r', ports', hcode, h'⟩ := h.writeCode (s := s) (ports := ports) c
    obtain ⟨r'', ports'', hrun, h''⟩ := ih h' hu
    rw [List.append_assoc] at hrun h''
    exact ⟨r'', ports'', (runCommands_cons (henc.trans (congrArg _ hcode))).trans hrun, h''⟩

/-- The flush completes the packing (R184, R185). -/
theorem exec_bpFlush_writing :
    ∃ writer ports', exec .bpFlush (s.writing w r ports) =
      .next { s with writer, out := s.out ++ packedBytes w, ports := ports' } := by
  obtain ⟨hheld, hpending, -, -⟩ := h.holds
  rw [packedBytes_eq]
  by_cases hn : w.length % 8 = 0
  · rw [exec_bpFlush_of_aligned (s := s.writing w r ports) h.isOpen (hheld.trans hn), if_pos hn, List.append_nil]
    exact ⟨_, _, rfl⟩
  · rw [exec_bpFlush_of_pending (s := s.writing w r ports) h.isOpen (Nat.pos_of_ne_zero (hheld ▸ hn)), if_neg hn,
      ← hpending, ← List.append_assoc]
    exact ⟨_, _, rfl⟩

end

theorem aByte_eq_aOf (b : Byte) : aByte b = aOf (literal b).val :=
  BitVec.eq_of_toNat_eq ((aByte_toNat b).trans (aOf_toNat (by omega)).symm)

/-- The writing session emits the packing of its codewords and leaves everything but the writer as it was (R290). -/
theorem runCommands_write {s : State} {xs : List Byte} {w : Bits}
    (hw : codeStream s.table (xs.map literal ++ [sentinel]) = some w) :
    ∃ writer ports, runCommands (writeCommands xs) s =
      .next { s with writer, out := s.out ++ packedBytes w, ports } := by
  have hcommands : writeCommands xs =
      .bpRst :: ((xs.map literal ++ [sentinel]).map (fun x => Instr.bpEnc (aOf x.val)) ++ [.bpFlush]) := by
    simp [writeCommands, aByte_eq_aOf, aOf, sentinel]
  obtain ⟨ports₀, hrst⟩ := exec_bpRst_writing s
  obtain ⟨r, ports₁, hrun, hr⟩ := runCommands_bpEncs (s := s) (ports := ports₀) ⟨writerHolds_reset, rfl⟩ hw
  obtain ⟨writer, ports, hflush⟩ := exec_bpFlush_writing (s := s) (ports := ports₁) hr
  refine ⟨writer, ports, ?_⟩
  rw [hcommands, runCommands_cons hrst, runCommands_append hrun, runCommands_cons hflush]
  rfl

/-! ## The bits of the packed bytes -/

theorem flatMap_byteBits_length (bs : List Byte) : (bs.flatMap byteBits).length = 8 * bs.length := by
  simp [List.length_flatMap, Nat.mul_comm]

/-- Bit `k` of a sequence of bytes is bit `7 − (k mod 8)` of byte `k div 8` (R73). -/
theorem flatMap_byteBits_getD (bs : List Byte) (k : Nat) :
    (bs.flatMap byteBits).getD k false = (bs.getD (k / 8) 0#8).getLsbD (7 - k % 8) := by
  induction bs generalizing k with
  | nil => simp
  | cons b bs ih =>
    rw [List.flatMap_cons]
    by_cases hk : k < 8
    · have hlt : k < (byteBits b).length := hk
      rw [List.getD_append _ _ _ _ hlt, List.getD_eq_getElem _ _ hlt]
      simp only [byteBits, bitsMsb_getElem, Nat.div_eq_of_lt hk, Nat.mod_eq_of_lt hk, List.getD_cons_zero]
    · obtain ⟨j, rfl⟩ := Nat.exists_eq_add_of_le (Nat.not_lt.mp hk)
      rw [List.getD_append_right _ _ _ _ (by simp), byteBits_length, Nat.add_sub_cancel_left, ih,
        Nat.add_div_left _ (by decide), Nat.add_mod_left, List.getD_cons_succ]

/-- The packed bytes begin with the bits they pack (R73, R75). -/
theorem exists_flatMap_packedBytes_eq (w : Bits) : ∃ z, (packedBytes w).flatMap byteBits = w ++ z := by
  have hlen := flatMap_byteBits_length (packedBytes w)
  have hle : w.length ≤ 8 * (packedBytes w).length := by rw [packedBytes_length]; omega
  have hpre : w <+: (packedBytes w).flatMap byteBits := List.prefix_iff_eq_take.mpr (by
    refine List.ext_getElem (by rw [List.length_take, hlen, Nat.min_eq_left hle]) fun k hk _ => ?_
    rw [List.getElem_take, ← List.getD_eq_getElem _ false, ← List.getD_eq_getElem _ false, flatMap_byteBits_getD,
      packedBytes_getLsbD (by omega)])
  exact hpre.imp fun _ h => h.symm

/-! ## The reading session -/

/-- `IN.BYTE` for each byte appends them where they fit (R196). -/
theorem runCommands_inBytes {s : State} {bs : List Byte} (he : s.reader.eoi = false)
    (hfit : fitsQueue s.cfg (s.reader.inq.length + bs.length)) :
    ∃ ports, runCommands (bs.map fun b => .inByte (aByte b)) s =
      .next { s with reader := { s.reader with inq := s.reader.inq ++ bs }, ports } := by
  induction bs generalizing s with
  | nil => exact ⟨s.ports, by rw [List.append_nil]; rfl⟩
  | cons b bs ih =>
    have hroom : s.cfg.inqCap ≠ some s.reader.inq.length := fun hc => by
      have := hfit _ hc
      rw [List.length_cons] at this
      omega
    have hbyte := exec_inByte_of_room (b := b) (aByte_toNat b) he hroom
    obtain ⟨ports, hrun⟩ := ih
      (s := { s with reader := { s.reader with inq := s.reader.inq ++ [b] } }.answered 0#8 _) he (by
        show fitsQueue s.cfg ((s.reader.inq ++ [b]).length + bs.length)
        rwa [List.length_append, List.length_singleton, Nat.add_assoc, Nat.add_comm 1])
    refine ⟨ports, (runCommands_cons hbyte).trans (hrun.trans ?_)⟩
    simp only [State.answered, List.append_assoc, List.singleton_append]

theorem runCommands_singleton (i : Instr) (s : State) : runCommands [i] s = exec i s := by
  rw [runCommands]
  cases exec i s <;> rfl

/-- The reading session up to `DEC.RUN` leaves a fresh decoder and the bytes unread (R292). -/
theorem runCommands_feed {s : State} {bs : List Byte} (hfit : fitsQueue s.cfg bs.length) :
    ∃ ports, runCommands (decodeCommands bs) s = exec .decRun
      { s with reader := { Reader.reset with inq := bs, eoi := true }, decoder := Decoder.reset, ports } := by
  obtain ⟨ports₀, hrst⟩ : ∃ ports, runCommands [.inRst, .decRst] s =
      .next { s with reader := Reader.reset, decoder := Decoder.reset, ports } := ⟨_, rfl⟩
  obtain ⟨ports, hbytes⟩ := runCommands_inBytes (bs := bs)
    (s := { s with reader := Reader.reset, decoder := Decoder.reset, ports := ports₀ }) rfl
    (by rwa [show Reader.reset.inq.length = 0 from rfl, Nat.zero_add])
  have hend : ∀ t, exec .inEnd t = .next ({ t with reader := t.reader.endInput }.answered 0#8 0#64) := fun _ => rfl
  rw [decodeCommands, runCommands_append ((runCommands_append hrst).trans hbytes), runCommands_cons (hend _),
    runCommands_singleton]
  exact ⟨_, rfl⟩

/-- Settles O39: the unread bits begin with the codewords written, and `DEC.RUN` decodes exactly these. -/
theorem writtenSymbolsDecodeToThemselves : Obligations.WrittenSymbolsDecodeToThemselves := by
  intro s xs ht hxs hsent
  have hcoded : ∀ x ∈ xs.map literal ++ [sentinel], s.table.fwd[x] ≠ none :=
    List.forall_mem_append.mpr ⟨List.forall_mem_map.mpr hxs, List.forall_mem_singleton.mpr hsent⟩
  obtain ⟨w, hw⟩ := Option.ne_none_iff_exists'.mp (codeStream_ne_none hcoded)
  obtain ⟨writer, ports, hwrite⟩ := runCommands_write hw
  refine ⟨_, packedBytes w, hwrite, rfl, rfl, fun hfit => ?_⟩
  obtain ⟨ports', hfeed⟩ := runCommands_feed (s := { s with writer, out := s.out ++ packedBytes w, ports }) hfit
  obtain ⟨z, hz⟩ := exists_flatMap_packedBytes_eq w
  obtain ⟨r, -, hrun⟩ := exec_decRun_of_codeStream (s := { s with
    writer, out := s.out ++ packedBytes w, ports := ports', decoder := Decoder.reset,
    reader := { Reader.reset with inq := packedBytes w, eoi := true } }) ⟨ht, rfl, rfl⟩ hw hz
  have hcount : Decoder.reset.dcount + BitVec.ofNat 64 xs.length = BitVec.ofNat 64 xs.length := BitVec.zero_add _
  refine ⟨_, hfeed.trans hrun, rfl, rfl, hcount, rfl, rfl, ?_⟩
  rw [lastReply_respond]
  exact congrArg (fun d => some (0#8, d)) hcount

end Sys2Proof.Machine
end

section
/-! SUPPORT. No command reads the output logs or the transaction record (spec/46_system.md rule R231; 10_state.md rules
R52, R53): with other logs put before a state's own, a command appends the same to them. -/

namespace Sys2Proof.Machine

/-- Output logs and a transaction record. -/
structure Logs where
  out : List Byte
  decout : List Byte
  ports : List PortEvent

/-- `s` with the logs `l` put before its own. -/
def State.prependLogs (l : Logs) (s : State) : State :=
  s.withLogs (l.out ++ s.out) (l.decout ++ s.decout) (l.ports ++ s.ports)

/-- A result with the logs `l` put before its own. -/
def prependLogsResult (l : Logs) : Result → Result
  | .next t => .next (t.prependLogs l)
  | .fault e => .fault e
  | .refused e => .refused e

theorem exists_of_prependLogsResult_eq_next {l : Logs} {r : Result} {t : State}
    (h : prependLogsResult l r = .next t) : ∃ u, r = .next u ∧ u.prependLogs l = t := by
  cases r with
  | next u => exact ⟨u, rfl, Host.Outcome.next.inj h⟩
  | fault | refused => cases h

theorem withLogs_eq_prependLogs (s : State) (l : Logs) :
    s.withLogs l.out l.decout l.ports = (s.withLogs [] [] []).prependLogs l := by
  simp only [State.prependLogs, State.withLogs, List.append_nil]

/-- Dropping the logs put before leaves a state's own, which can be put after any others. -/
theorem prependLogs_withLogs_drop (l k : Logs) (s : State) :
    (s.prependLogs l).withLogs (k.out ++ (s.prependLogs l).out.drop l.out.length)
      (k.decout ++ (s.prependLogs l).decout.drop l.decout.length)
      (k.ports ++ (s.prependLogs l).ports.drop l.ports.length) = s.prependLogs k := by
  simp only [State.prependLogs, State.withLogs, List.drop_left]

section
variable {l : Logs} {s t : State} (h : t = s.prependLogs l)
include h

/-! ## The updates that append -/

theorem respond_eq_prependLogs (c : RspCode) (d : Word) : t.respond c d = (s.respond c d).prependLogs l := by
  simp only [h, State.respond, State.prependLogs, State.withLogs, List.append_assoc]

theorem emitOut_eq_prependLogs (bs : List Byte) : t.emitOut bs = (s.emitOut bs).prependLogs l := by
  simp only [h, State.emitOut, State.prependLogs, State.withLogs, List.append_assoc]

theorem emitDec_eq_prependLogs (b : Byte) : t.emitDec b = (s.emitDec b).prependLogs l := by
  simp only [h, State.emitDec, State.prependLogs, State.withLogs, List.append_assoc]

/-- The last update of every command (R91). -/
theorem next_respond_eq_prependLogs (c : RspCode) (d : Word) :
    (.next (t.respond c d) : Result) = prependLogsResult l (.next (s.respond c d)) :=
  congrArg _ (respond_eq_prependLogs h c d)

theorem next_writeCode_eq_prependLogs (c : Bits) :
    (.next (t.writeCode c) : Result) = prependLogsResult l (.next (s.writeCode c)) := by
  subst h
  exact next_respond_eq_prependLogs (emitOut_eq_prependLogs (by rfl) _) _ _

end

/-! ## Decoding -/

/-- What a transition or a loop ends with, the logs `l` put before its state's own. -/
def prependLogsReply (l : Logs) (r : State × Reply) : State × Reply := (r.1.prependLogs l, r.2)

section
variable (l : Logs) (s : State)

theorem decodeMove_prependLogs (p : Bits) : decodeMove (s.prependLogs l) p = prependLogsReply l (decodeMove s p) := by
  dsimp only [decodeMove, State.prependLogs, State.withLogs]
  split
  · split
    · exact Prod.ext (emitDec_eq_prependLogs (by rfl) _) rfl
    · rfl
  · rfl
  · rfl

theorem decodeBit_prependLogs : decodeBit (s.prependLogs l) = prependLogsReply l (decodeBit s) := by
  dsimp only [decodeBit, State.prependLogs, State.withLogs]
  split
  · rfl
  split
  · rfl
  split
  · rfl
  · rfl
  · rename_i r _
    exact decodeMove_prependLogs l { s with reader := r } _

theorem decodeSymbol_prependLogs (n : Nat) :
    decodeSymbol n (s.prependLogs l) = prependLogsReply l (decodeSymbol n s) := by
  induction n generalizing s with
  | zero => exact decodeBit_prependLogs l s
  | succ n ih =>
    simp only [decodeSymbol, decodeBit_prependLogs, prependLogsReply, ih]
    split <;> rfl

theorem decodeRun_prependLogs (n : Nat) : decodeRun n (s.prependLogs l) = prependLogsReply l (decodeRun n s) := by
  induction n generalizing s with
  | zero => exact decodeBit_prependLogs l s
  | succ n ih =>
    simp only [decodeRun, decodeBit_prependLogs, prependLogsReply, ih]
    split <;> rfl

theorem sendReply_prependLogs (r : State × Reply) :
    sendReply (prependLogsReply l r) = (sendReply r).prependLogs l :=
  respond_eq_prependLogs (by rfl) _ _

theorem sendRunReply_prependLogs (r : State × Reply) :
    sendRunReply (prependLogsReply l r) = (sendRunReply r).prependLogs l := by
  dsimp only [sendRunReply, prependLogsReply]
  split <;> exact respond_eq_prependLogs (by rfl) _ _

/-! ## The commands -/

theorem csrValue_prependLogs (n : Csr) : csrValue (s.prependLogs l) n = csrValue s n := by
  cases n <;> rfl

/-- What a command answers is the same whatever logs stand before a state's own (R231). -/
theorem exec_prependLogs (i : Instr) : exec i (s.prependLogs l) = prependLogsResult l (exec i s) := by
  cases i with
  | csrRd a =>
    simp only [exec, execCsrRd, csrValue_prependLogs]
    split <;> exact next_respond_eq_prependLogs (by rfl) _ _
  -- commands of one check
  | fqSet | fqRd | tbInit | tbRdn | tbRdf | cwRd | ctFind | inBit =>
    dsimp only [exec, execFqSet, execFqRd, execTbInit, execTbRdn, execTbRdf, execCwRd, execCtFind, execInBit,
      State.prependLogs, State.withLogs]
    split <;> exact next_respond_eq_prependLogs (by rfl) _ _
  -- commands of more checks
  | fqInc | cwApp | ctIns | ctLkp | inByte =>
    dsimp only [exec, execFqInc, execCwApp, execCtIns, execCtLkp, execInByte, State.prependLogs, State.withLogs]
    repeat' split
    all_goals exact next_respond_eq_prependLogs (by rfl) _ _
  | tbStep | ctGen =>
    dsimp only [exec, execTbStep, execCtGen, State.prependLogs, State.withLogs]
    split
    · split
      · rfl
      · exact next_respond_eq_prependLogs (by rfl) _ _
    · exact next_respond_eq_prependLogs (by rfl) _ _
  | tbBuild =>
    dsimp only [exec, execTbBuild, State.prependLogs, State.withLogs]
    split
    · exact next_respond_eq_prependLogs (by rfl) _ _
    · split
      · rfl
      · exact next_respond_eq_prependLogs (by rfl) _ _
  -- commands that emit bytes
  | bpPut =>
    dsimp only [exec, execBpPut, State.prependLogs, State.withLogs]
    split
    · exact next_respond_eq_prependLogs (by rfl) _ _
    · split
      · exact next_respond_eq_prependLogs (by rfl) _ _
      · exact next_writeCode_eq_prependLogs (by rfl) _
  | bpEnc a =>
    dsimp only [exec, execBpEnc, State.prependLogs, State.withLogs]
    split
    · exact next_respond_eq_prependLogs (by rfl) _ _
    · split
      · exact next_respond_eq_prependLogs (by rfl) _ _
      · split
        · exact next_respond_eq_prependLogs (by rfl) _ _
        · exact next_writeCode_eq_prependLogs (by rfl) _
  | bpFlush =>
    dsimp only [exec, execBpFlush, State.prependLogs, State.withLogs]
    split
    · exact next_respond_eq_prependLogs (by rfl) _ _
    · split
      · exact next_respond_eq_prependLogs (by rfl) _ _
      · exact next_respond_eq_prependLogs (emitOut_eq_prependLogs (by rfl) _) _ _
  -- decode commands
  | decBit =>
    dsimp only [exec, execDecBit]
    rw [decodeBit_prependLogs, sendReply_prependLogs]
    rfl
  | decSym =>
    rw [exec_decSym, exec_decSym, decodeSymbol_prependLogs, sendReply_prependLogs]
    rfl
  | decRun =>
    rw [exec_decRun, exec_decRun, decodeRun_prependLogs, sendRunReply_prependLogs]
    rfl
  | _ => exact next_respond_eq_prependLogs (by rfl) _ _

end

/-- Settles O49: the command run from empty logs shows what it appends, to the state's own logs and to any others. -/
theorem outputLogsInfluenceNoCommand : Obligations.OutputLogsInfluenceNoCommand := by
  intro i s t out decout ports h
  have hs := exec_prependLogs ⟨s.out, s.decout, s.ports⟩ (s.withLogs [] [] []) i
  rw [← withLogs_eq_prependLogs] at hs
  obtain ⟨u, hu, rfl⟩ := exists_of_prependLogsResult_eq_next (hs.symm.trans h)
  rw [withLogs_eq_prependLogs s ⟨out, decout, ports⟩, exec_prependLogs, hu]
  exact congrArg _ (prependLogs_withLogs_drop ⟨s.out, s.decout, s.ports⟩ ⟨out, decout, ports⟩ u).symm

end Sys2Proof.Machine
end

section
/-! SUPPORT. `NOP`, `CSR.RD` and `ERR.CLR` (spec/46_system.md rules R230, R232, R233), and the registers' layouts
(10_state.md rule R54). -/

namespace Sys2Proof.Machine

/-- Settles O10: neither command has a branch. -/
theorem nopAndErrorClearAnswerOk : Obligations.NopAndErrorClearAnswerOk := fun _ => ⟨rfl, rfl⟩

/-! ## The layouts -/

/-- A 9-bit field shows a length up to 511 exactly. -/
theorem lengthField_eq_ofNat {n : Nat} (h : n < 512) : lengthField n = BitVec.ofNat 64 n := by
  apply BitVec.eq_of_toNat_eq
  simp only [lengthField, BitVec.toNat_setWidth, BitVec.toNat_ofNat]
  omega

/-- A word's value, field by field, gives the word. -/
theorem eq_ofNat_of_toNat_eq {w : Word} {n : Nat} (h : w.toNat = n) : w = BitVec.ofNat 64 n := by
  rw [← h, BitVec.ofNat_toNat, BitVec.setWidth_eq]

/-- An accumulator in [7:0] and its number of bits in [10:8]: WSTAT and RSTAT (R54). -/
theorem accumulatorField_eq_ofNat (n : BitVec 3) (acc : Byte) :
    0#53 ++ n ++ acc = BitVec.ofNat 64 (acc.toNat + 256 * n.toNat) := by
  apply eq_ofNat_of_toNat_eq
  simp only [toNat_append_eq_add, BitVec.toNat_ofNat]
  ring

theorem statusWord_eq_ofNat (s : State) : s.statusWord = BitVec.ofNat 64
    (s.tree.tstate.num.toNat + 4 * s.decoder.dstate.num.toNat + 16 * s.writer.wclosed.toNat + 32 * s.reader.eoi.toNat
      + 64 * s.decoder.trunc.toNat + 128 * s.err.errseen.toNat) := by
  apply eq_ofNat_of_toNat_eq
  simp only [State.statusWord, toNat_append_eq_add, BitVec.toNat_ofNat, BitVec.toNat_ofBool]
  ring

/-! ## The command -/

theorem exec_csrRd_of_operand (n : Csr) {a : BitVec 16} (ha : csrOperand a = some n) {s : State} {d : Word}
    (hd : csrValue s n = d) : exec (.csrRd a) s = .next (s.answered 0#8 d) := by
  simp only [exec, execCsrRd, ha, hd]
  rfl

/-- Settles O11: each number by its register's value, a greater one by its range. -/
theorem csrReadsAreLaidOutAsTabulated : Obligations.CsrReadsAreLaidOutAsTabulated := by
  refine ⟨fun s hpq hcwr hcur => ⟨?_, ?_, ?_, ?_, ?_, ?_, ?_, ?_, ?_, ?_, ?_, ?_, ?_, ?_, ?_, fun hinq => ?_⟩,
    fun s _ => ⟨_, exec_csrRd_of_operand .inqcnt rfl rfl⟩,
    fun s a ha => exec_of_not_wellFormed (decide_eq_false (Nat.not_le.mpr ha))⟩
  · exact exec_csrRd_of_operand .id rfl rfl
  · exact exec_csrRd_of_operand .status rfl (statusWord_eq_ofNat s)
  · exact exec_csrRd_of_operand .lasterr rfl (BitVec.ofNat_toNat _ _).symm
  · exact exec_csrRd_of_operand .nsym rfl (BitVec.ofNat_toNat _ _).symm
  · exact exec_csrRd_of_operand .pqcnt rfl (lengthField_eq_ofNat (by omega))
  · exact exec_csrRd_of_operand .root rfl (BitVec.ofNat_toNat _ _).symm
  · exact exec_csrRd_of_operand .next rfl (BitVec.ofNat_toNat _ _).symm
  · exact exec_csrRd_of_operand .wstat rfl (accumulatorField_eq_ofNat _ _)
  · exact exec_csrRd_of_operand .rstat rfl (accumulatorField_eq_ofNat _ _)
  · exact exec_csrRd_of_operand .cwlen rfl (lengthField_eq_ofNat (by omega))
  · exact exec_csrRd_of_operand .curlen rfl (lengthField_eq_ofNat (by omega))
  · exact exec_csrRd_of_operand .dcount rfl rfl
  · exact exec_csrRd_of_operand .wbitcnt rfl rfl
  · exact exec_csrRd_of_operand .rbitcnt rfl rfl
  · exact exec_csrRd_of_operand .outcnt rfl rfl
  · exact exec_csrRd_of_operand .inqcnt rfl (if_pos hinq)

end Sys2Proof.Machine
end

section
/-! SUPPORT. A step from a state that meets every invariant answers a state that does, and so does a run (spec/20_memory.md
rule R83; 60_exceptions.md rule R250). -/

namespace Sys2Proof.Machine

/-- A step answers whatever the host gives next (R83). -/
theorem step_completes {s : State} (h : TreeInv s.tree) : ∃ t, step s = .next t := by
  unfold step
  split
  · exact ⟨s, rfl⟩
  · exact ⟨_, rfl⟩
  · split
    · exact exec_completes _ h
    · exact ⟨_, rfl⟩

/-- Every invariant is kept by a step, each by its own statement. -/
theorem State.Inv.step_keeps {s t : State} (h : s.Inv) (hstep : step s = .next t) : t.Inv := by
  obtain ⟨htable, hcwr⟩ := stepKeepsTheCodeTableInvariants s t h.tree h.table h.cwr hstep
  obtain ⟨hwriter, hreader, herr, hlogs⟩ := stepKeepsTheUnitInvariants s t hstep
  exact {
    freq := stepKeepsTheSentinelCount.2 s t h.freq hstep
    tree := stepKeepsTheTreeInvariants s t h.tree hstep
    table := htable
    cwr := hcwr
    writer := hwriter h.writer
    reader := hreader h.reader
    decoder := stepKeepsTheDecoderInvariant.1 s t h.table h.decoder hstep
    err := herr h.err
    logs := hlogs h.logs }

/-- A predicate under which every step answers a state that meets it again holds along every run. -/
theorem run_keeps {P : State → Prop} (hstep : ∀ s, P s → ∃ t, step s = .next t ∧ P t) (n : Nat) {s : State} (hs : P s) :
    ∃ t : State, Sys2Proof.core.run n s = .next t ∧ P t := by
  induction n generalizing s with
  | zero => exact ⟨s, rfl, hs⟩
  | succ n ih =>
    obtain ⟨u, hu, hPu⟩ := hstep s hs
    obtain ⟨t, ht, hPt⟩ := ih hPu
    refine ⟨t, ?_, hPt⟩
    have hrun : Sys2Proof.core.step s = .next u := hu
    simp only [Host.Core.run, hrun]
    exact ht

/-- Settles O57, by induction on the number of steps. -/
theorem machineNeverStopsByItself : Obligations.MachineNeverStopsByItself := by
  intro s hs n
  refine run_keeps (fun s h => ?_) n hs
  obtain ⟨t, ht⟩ := step_completes h.tree
  exact ⟨t, ht, h.step_keeps ht⟩

end Sys2Proof.Machine
end

section
/-! SUPPORT. What a command answers: the code, which commands may answer it, and what a fault or a condition leaves
unchanged (spec/60_exceptions.md rules R241, R243, R244; 30_encoding.md rule R95). -/

namespace Sys2Proof.Machine

/-! ## The response codes -/

/-- R241's codes, in the order of its table. -/
def RspCode.all : List RspCode :=
  [.ok, .illegalCmd, .badOperand, .countOverflow, .emptyFreq, .treeState, .cwOverflow, .cwEmpty, .codeConflict, .dupSymbol,
    .noCode, .writerClosed, .inputClosed, .inqFull, .tableEmpty, .decoderState, .decodeMismatch, .needInput,
    .inputExhausted]

theorem RspCode.mem_all (c : RspCode) : c ∈ RspCode.all := by
  cases c <;> decide

/-- The numbers in R241's table are distinct. -/
theorem RspCode.num_injective : Function.Injective RspCode.num := fun c k h =>
  List.inj_on_of_nodup_map (f := RspCode.num) (l := RspCode.all) (by decide) c.mem_all k.mem_all h

/-- R241's column "raised by": the commands that may answer a fault or a condition. Every command may answer OK, and
only the decoding of a word raises ILLEGAL_CMD. -/
def RspCode.raisers : RspCode → List String
  | .ok => []
  | .illegalCmd => []
  | .badOperand =>
    ["CSR.RD", "FQ.SET", "FQ.INC", "FQ.RD", "TB.RDN", "TB.RDF", "CW.APP", "CW.RD", "CT.INS", "CT.LKP", "BP.ENC", "IN.BYTE"]
  | .countOverflow => ["FQ.INC"]
  | .emptyFreq => ["TB.INIT", "TB.BUILD"]
  | .treeState => ["TB.STEP", "CT.GEN"]
  | .cwOverflow => ["CW.APP"]
  | .cwEmpty => ["CT.INS", "CT.FIND", "BP.PUT"]
  | .codeConflict => ["CT.INS"]
  | .dupSymbol => ["CT.INS"]
  | .noCode => ["CT.LKP", "BP.ENC"]
  | .writerClosed => ["BP.PUT", "BP.ENC", "BP.FLUSH"]
  | .inputClosed => ["IN.BYTE"]
  | .inqFull => ["IN.BYTE"]
  | .tableEmpty => ["DEC.BIT", "DEC.SYM", "DEC.RUN"]
  | .decoderState => ["DEC.BIT", "DEC.SYM", "DEC.RUN"]
  | .decodeMismatch => ["DEC.BIT", "DEC.SYM", "DEC.RUN"]
  | .needInput => ["IN.BIT", "DEC.BIT", "DEC.SYM", "DEC.RUN"]
  | .inputExhausted => ["IN.BIT", "DEC.BIT", "DEC.SYM", "DEC.RUN"]

/-- The codes that occur after a command; the one left out is answered to illegal words alone. -/
theorem RspCode.num_assigned {c : RspCode} (h : c ≠ .illegalCmd) :
    c.num = 0#8 ∨ (2 ≤ c.num.toNat ∧ c.num.toNat ≤ 16) ∨ c.num = 32#8 ∨ c.num = 33#8 := by
  cases c with
  | illegalCmd => exact absurd rfl h
  | _ => exact (by decide)

/-- Codes 14 to 16 are the decoder's faults. -/
theorem RspCode.decodeFault_of_num {c : RspCode} :
    14 ≤ c.num.toNat → c.num.toNat ≤ 16 → c = .tableEmpty ∨ c = .decoderState ∨ c = .decodeMismatch := by
  cases c <;> decide

/-- Codes from 32 on are the two conditions. -/
theorem RspCode.condition_of_num {c : RspCode} : 32 ≤ c.num.toNat → c = .needInput ∨ c = .inputExhausted := by
  cases c <;> decide

/-- The codes a decode command can answer, as `LoopReply.codes` lists them. -/
abbrev decodeCodes : List RspCode := [.ok, .tableEmpty, .decoderState, .decodeMismatch, .needInput, .inputExhausted]

/-- A decode command's precise faults. -/
theorem decodeRefusal_of_num : ∀ c ∈ decodeCodes, 2 ≤ c.num.toNat → c.num.toNat ≤ 15 →
    c = .tableEmpty ∨ c = .decoderState := by decide

/-! ## What a command can answer -/

/-- The next states of a command by what it answers: a precise fault with data 0, `IN.BIT`'s condition, a success, or the
reply of a decode command. -/
inductive Answer (s : State) (i : Instr) : State → Prop
  | refused (c : RspCode) (hc : 2 ≤ c.num.toNat ∧ c.num.toNat ≤ 15 := by decide)
      (hi : mnemonicOf i ∈ c.raisers := by simp [mnemonicOf, RspCode.raisers]) :
      Answer s i (s.raise c 0#64)
  | waiting (c : RspCode) (hc : c = .needInput ∨ c = .inputExhausted) (hi : i = .inBit) :
      Answer s i (s.respond c 0#64)
  | done (u : State) (d : Word) (he : i ≠ .srst → i ≠ .errClr → u.err = s.err) : Answer s i (u.respond .ok d)
  | decode (u : State) (r : Reply) (hi : i = .decBit ∨ i = .decSym ∨ i = .decRun) (hr : LoopReply s u r)
      (hb : i = .decBit → BitReply s u r) : Answer s i (u.respond r.code r.data)

section
variable {s t : State} {i : Instr}

theorem exec_decode_answer (hi : i = .decBit ∨ i = .decSym ∨ i = .decRun) (h : exec i s = .next t) : Answer s i t := by
  by_cases hd : i = .decBit
  · subst hd
    cases h
    exact .decode _ _ hi (decodeBit_reply s).loop fun _ => decodeBit_reply s
  · obtain ⟨u, r, hr, rfl⟩ := exec_decode_reply _ hi _ _ h
    exact .decode _ _ hi hr fun h => absurd h hd

/-- Each check of a command refuses with its own code; the branch past the checks succeeds. -/
theorem exec_answer (h : exec i s = .next t) : Answer s i t := by
  cases i with
  -- commands of one check
  | csrRd | fqSet | fqRd | tbInit | tbRdn | tbRdf | cwRd | ctFind =>
    dsimp only [exec, execCsrRd, execFqSet, execFqRd, execTbInit, execTbRdn, execTbRdf, execCwRd, execCtFind] at h
    split at h <;> cases h
    · exact .refused _
    · exact .done _ _ fun _ _ => rfl
  -- commands of two checks
  | fqInc | cwApp | ctLkp | bpPut =>
    dsimp only [exec, execFqInc, execCwApp, execCtLkp, execBpPut] at h
    split at h
    · cases h; exact .refused _
    · split at h <;> cases h
      · exact .refused _
      · exact .done _ _ fun _ _ => rfl
  -- commands of three checks
  | bpEnc | inByte =>
    dsimp only [exec, execBpEnc, execInByte] at h
    split at h
    · cases h; exact .refused _
    · split at h
      · cases h; exact .refused _
      · split at h <;> cases h
        · exact .refused _
        · exact .done _ _ fun _ _ => rfl
  | ctIns =>
    dsimp only [exec, execCtIns] at h
    split at h
    · cases h; exact .refused _
    · split at h
      · cases h; exact .refused _
      · split at h
        · cases h; exact .refused _
        · split at h <;> cases h
          · exact .refused _
          · exact .done _ _ fun _ _ => rfl
  -- commands whose merge or walk may find no result
  | tbStep | ctGen =>
    dsimp only [exec, execTbStep, execCtGen] at h
    split at h
    · split at h <;> cases h
      exact .done _ _ fun _ _ => rfl
    · cases h; exact .refused _
  | tbBuild =>
    dsimp only [exec, execTbBuild] at h
    split at h
    · cases h; exact .refused _
    · split at h <;> cases h
      exact .done _ _ fun _ _ => rfl
  | bpFlush =>
    dsimp only [exec, execBpFlush] at h
    split at h
    · cases h; exact .refused _
    · split at h <;> cases h <;> exact .done _ _ fun _ _ => rfl
  | inBit =>
    dsimp only [exec, execInBit] at h
    split at h <;> cases h
    · exact .waiting _ (.inl rfl) rfl
    · exact .waiting _ (.inr rfl) rfl
    · exact .done _ _ fun _ _ => rfl
  | decBit => exact exec_decode_answer (.inl rfl) h
  | decSym => exact exec_decode_answer (.inr (.inl rfl)) h
  | decRun => exact exec_decode_answer (.inr (.inr rfl)) h
  -- the two commands that clear the error registers, then those without a check
  | srst => cases h; exact .done _ _ fun hs _ => absurd rfl hs
  | errClr => cases h; exact .done _ _ fun _ he => absurd rfl he
  | _ => cases h; exact .done _ _ fun _ _ => rfl

/-! ## R241 -/

/-- What a decode command answers is within its share of R241's table. -/
theorem mem_raisers_of_decode (hi : i = .decBit ∨ i = .decSym ∨ i = .decRun) {u : State} {r : Reply}
    (hr : LoopReply s u r) (hok : r.code ≠ .ok) : mnemonicOf i ∈ r.code.raisers := by
  have hm : mnemonicOf i ∈ ["DEC.BIT", "DEC.SYM", "DEC.RUN"] := by
    rcases hi with rfl | rfl | rfl <;> decide
  have hshare : ∀ c ∈ decodeCodes, c ≠ .ok → ∀ m ∈ ["DEC.BIT", "DEC.SYM", "DEC.RUN"], m ∈ c.raisers := by decide
  exact hshare _ hr.codes hok _ hm

/-- The response `(c, d)` of command `i`, after which the state is `t`, is as R241's row for `c` says. -/
structure Assigned (i : Instr) (t : State) (c : RspCode) (d : Word) : Prop where
  raiser : c ≠ .ok → mnemonicOf i ∈ c.raisers
  refused : 2 ≤ c.num.toNat → c.num.toNat ≤ 15 → d = 0#64
  mismatch : c = .decodeMismatch → d = t.reader.rbitcnt ∧ t.decoder.dstate = .error
  need : c = .needInput → d = 0#64
  exhaustedBit : c = .inputExhausted → i = .inBit → d = 0#64
  exhausted : c = .inputExhausted → i ≠ .inBit → d = t.decoder.dcount ∧ t.decoder.trunc = true

theorem Answer.assigned (h : Answer s i t) : ∃ c d, t.lastReply = some (c.num, d) ∧ Assigned i t c d := by
  cases h with
  | refused c hc hi =>
    refine ⟨c, _, lastReply_raise _ _ _, fun _ => hi, fun _ _ => rfl, ?_, fun _ => rfl, fun _ _ => rfl, ?_⟩
    · rintro rfl; exact absurd hc (by decide)
    · rintro rfl; exact absurd hc (by decide)
  | waiting c hc hi =>
    subst hi
    refine ⟨c, _, lastReply_respond _ _ _, fun _ => ?_, fun _ _ => rfl, ?_, fun _ => rfl, fun _ _ => rfl,
      fun _ hne => absurd rfl hne⟩
    · rcases hc with rfl | rfl <;> decide
    · rcases hc with rfl | rfl <;> exact nofun
  | done u d =>
    exact ⟨.ok, d, lastReply_respond _ _ _, fun hne => absurd rfl hne, fun h => absurd h (by decide), nofun, nofun, nofun,
      nofun⟩
  | decode u r hi hr =>
    exact ⟨r.code, r.data, lastReply_respond _ _ _, mem_raisers_of_decode hi hr,
      fun h1 h2 => (hr.refused (decodeRefusal_of_num _ hr.codes h1 h2)).1, fun h => (hr.mismatch h).2, hr.need,
      fun _ hx => by simp [hx] at hi, fun h _ => hr.exhausted h⟩

/-- Illegal words are not commands. -/
theorem Assigned.ne_illegalCmd {c : RspCode} {d : Word} (h : Assigned i t c d) : c ≠ .illegalCmd := by
  rintro rfl
  exact absurd (h.raiser nofun) List.not_mem_nil

end

/-- Settles O42: each clause reads a row of R241's table. -/
theorem responseCodesAreTheAssignedOnes : Obligations.ResponseCodesAreTheAssignedOnes := by
  intro i s t h
  obtain ⟨c, d, hreply, ha⟩ := (exec_answer h).assigned
  have code : ∀ k : RspCode, c.num = k.num → c = k := fun _ hc => RspCode.num_injective hc
  have raised : ∀ k : RspCode, k ≠ .ok → c.num = k.num → mnemonicOf i ∈ k.raisers := fun k hk hc =>
    code k hc ▸ ha.raiser (code k hc ▸ hk)
  have raisedOnly : ∀ {k : RspCode} {m : String}, k ≠ .ok → k.raisers = [m] → c.num = k.num → mnemonicOf i = m :=
    fun hk hm hc => List.mem_singleton.mp (hm ▸ raised _ hk hc)
  refine ⟨c.num, d, hreply, RspCode.num_assigned ha.ne_illegalCmd, ha.refused, fun hc => ha.mismatch (code _ hc),
    fun hc => ha.need (code .needInput hc), fun hc => ha.exhaustedBit (code _ hc), fun hc => ha.exhausted (code _ hc),
    raised .badOperand nofun, raisedOnly (k := .countOverflow) nofun rfl, raised .emptyFreq nofun,
    raised .treeState nofun, raisedOnly (k := .cwOverflow) nofun rfl, raised .cwEmpty nofun,
    raisedOnly (k := .codeConflict) nofun rfl, raisedOnly (k := .dupSymbol) nofun rfl, raised .noCode nofun,
    raised .writerClosed nofun, raisedOnly (k := .inputClosed) nofun rfl, raisedOnly (k := .inqFull) nofun rfl,
    fun h1 h2 => ?_, fun h1 => ?_⟩
  · rcases RspCode.decodeFault_of_num h1 h2 with rfl | rfl | rfl <;> exact ha.raiser nofun
  · rcases RspCode.condition_of_num h1 with rfl | rfl <;> exact ha.raiser nofun

/-! ## R243, R244 -/

section
variable {s u : State} {r : Reply}

/-- A loop of transitions that ends with a fault has recorded it (R243). -/
theorem LoopReply.recorded (h : LoopReply s u r) (h1 : 1 ≤ r.code.num.toNat) (h2 : r.code.num.toNat ≤ 31) :
    u.err = { lasterr := r.code.num, errseen := true } := by
  have hfault : ∀ c ∈ decodeCodes, 1 ≤ c.num.toNat → c.num.toNat ≤ 31 →
      (c = .tableEmpty ∨ c = .decoderState) ∨ c = .decodeMismatch := by decide
  rcases hfault _ h.codes h1 h2 with hc | hc
  · exact (h.refused hc).2
  · rw [hc]; exact (h.mismatch hc).1

/-- One transition's faults but DECODE_MISMATCH change nothing else (R244). -/
theorem BitReply.faulted (h : BitReply s u r) (h1 : 1 ≤ r.code.num.toNat) (h2 : r.code.num.toNat ≤ 31)
    (hne : r.code ≠ .decodeMismatch) : u.respond r.code r.data = s.faulted r.code.num := by
  have hrefused : ∀ c ∈ decodeCodes, 1 ≤ c.num.toNat → c.num.toNat ≤ 31 → c ≠ .decodeMismatch →
      c = .tableEmpty ∨ c = .decoderState := by decide
  obtain ⟨hd, hu⟩ := h.refused (hrefused _ h.codes h1 h2 hne)
  rw [hd, hu]
  rfl

/-- A transition that waits for input changes nothing (R249). -/
theorem BitReply.answered_need (h : BitReply s u r) (hc : r.code = .needInput) :
    u.respond r.code r.data = s.answered 32#8 0#64 := by
  obtain ⟨hd, hu⟩ := h.need hc
  rw [hc, hd, hu]
  rfl

end

/-- Settles O43, by what the command answered. -/
theorem faultsArePreciseAndRecorded : Obligations.FaultsArePreciseAndRecorded := by
  intro i s t c d h hreply
  cases exec_answer h with
  | refused k hk =>
    obtain ⟨rfl, -⟩ : k.num = c ∧ 0#64 = d := by simpa using hreply
    have hne : ∀ b : Byte, ¬ (2 ≤ b.toNat ∧ b.toNat ≤ 15) → k.num ≠ b := fun b hb hkb => hb (hkb ▸ hk)
    exact ⟨fun _ _ => ⟨rfl, fun _ _ _ => rfl⟩,
      fun hc => absurd hc (not_or.mpr ⟨hne _ (by decide), hne _ (by decide)⟩),
      fun hc => absurd hc (hne _ (by decide)), fun hc => absurd hc (hne _ (by decide)),
      fun hc => absurd hc (hne _ (by decide))⟩
  | waiting k hk =>
    obtain ⟨rfl, -⟩ : k.num = c ∧ 0#64 = d := by simpa using hreply
    rcases hk with rfl | rfl
    · exact ⟨fun _ h31 => absurd h31 (by decide), fun _ => rfl, fun _ _ _ => rfl, nofun, nofun⟩
    · exact ⟨fun _ h31 => absurd h31 (by decide), fun _ => rfl, nofun, fun _ _ => rfl, nofun⟩
  | done u e he =>
    obtain ⟨rfl, -⟩ : RspCode.ok.num = c ∧ e = d := by simpa using hreply
    exact ⟨fun h1 => absurd h1 (by decide), fun hc => absurd hc (by decide), nofun, nofun, fun _ => he⟩
  | decode u r hi hr hb =>
    obtain ⟨rfl, -⟩ : r.code.num = c ∧ r.data = d := by simpa using hreply
    have code : ∀ k : RspCode, r.code.num = k.num → r.code = k := fun _ hc => RspCode.num_injective hc
    have hbit : i ≠ .decSym → i ≠ .decRun → BitReply s u r := fun hs hrun =>
      hb (hi.resolve_right fun hloop => hloop.elim hs hrun)
    refine ⟨fun h1 h31 => ⟨hr.recorded h1 h31, fun hc hs hrun => ?_⟩, fun hc => hr.silent ?_,
      fun hc hs hrun => (hbit hs hrun).answered_need (code .needInput hc), fun _ hx => by simp [hx] at hi,
      fun hc _ _ => hr.silent (.inr (.inr (code .ok hc)))⟩
    · exact (hbit hs hrun).faulted h1 h31 fun hm => hc (congrArg RspCode.num hm)
    · exact hc.imp (code .needInput) fun hx => .inl (code .inputExhausted hx)

end Sys2Proof.Machine
end

section
/-! SUPPORT. The two resets, and the state they leave (spec/70_reset_and_hazards.md rules R280, R281, R283; 46_system.md
rule R231). -/

namespace Sys2Proof.Machine

/-- The reset state holds R281's values whatever the logs and the model's own fields are. -/
theorem atReset_reset_with (out decout : List Byte) (cfg : Config) (pending : List HostInput) (ports : List PortEvent) :
    AtReset { State.reset with out, decout, cfg, pending, ports } where
  counts := fun x => by
    have hx : sentinel = x ↔ x.val = 256 := eq_comm.trans Fin.ext_iff
    show freqReset[x] = _
    simp only [freqReset_getElem, hx]
  nodes := fun n => by simp [State.reset, TreeUnit.reset, Node.freeEntry, nilIndex]
  tree := ⟨rfl, rfl, rfl, rfl⟩
  table := ⟨fun x => by simp [State.reset, CodeTable.reset], rfl, rfl⟩
  cwr := rfl
  writer := rfl
  reader := rfl
  decoder := rfl
  err := rfl

/-- Settles O8: each reset leaves the reset state but for the logs and the model's own fields. -/
theorem resetsLeaveTheTabulatedValues : Obligations.ResetsLeaveTheTabulatedValues := by
  refine ⟨⟨atReset_reset_with _ _ _ _ _, rfl, rfl⟩, fun s rest hp => ⟨s.hardwareReset rest, ?_, ?_, rfl, rfl, rfl, rfl⟩,
    fun s => ⟨s.softReset.respond .ok 0#64, rfl, atReset_reset_with _ _ _ _ _, rfl, rfl, rfl, rfl, rfl⟩⟩
  · simp only [step, hp]
  · exact atReset_reset_with _ _ _ _ _

/-- Settles O9: each unit reset writes its own unit, and together they write every unit. -/
theorem unitResetsTogetherEqualSoftReset : Obligations.UnitResetsTogetherEqualSoftReset :=
  fun _ => ⟨_, _, rfl, rfl, rfl, rfl, rfl⟩

/-- Settles O51, unit by unit. -/
theorem resetMeetsEveryInvariant : Obligations.ResetMeetsEveryInvariant where
  freq := freqInv_reset (by decide)
  tree := treeInv_reset
  table := tableInv_reset
  cwr := Nat.zero_le _
  writer := writerInv_of_acc_zero rfl
  reader := readerInv_reset _
  decoder := decoderInv_reset
  err := errorInv_cleared
  logs := ⟨rfl, rfl⟩

end Sys2Proof.Machine
end

section
/-! SUPPORT. The host's sequences: a codebook loaded row by row, and a source encoded and decoded again
(spec/70_reset_and_hazards.md rules R290, R292, R295). -/

namespace Sys2Proof.Machine

/-- Settles O23: the loaded table meets the invariants and holds the rows. -/
theorem loadingACodebookStoresExactlyItsRows : Obligations.LoadingACodebookStoresExactlyItsRows := by
  intro s rows hg
  obtain ⟨cwr, ports, hrun⟩ := runCommands_load s hg
  obtain ⟨hinv, hmem, hlen⟩ := loadedTable_spec hg
  exact ⟨_, hrun, fun x c => (hinv.consistent c x).symm.trans (hmem _), hmem, hinv.counted.trans hlen, rfl⟩

/-! ## The table of a source -/

/-- The symbols counted for a source: its distinct bytes and the sentinel (R121, R123). -/
def sourceSymbols (bs : List Byte) : List Symbol := bs.dedup.map literal ++ [sentinel]

theorem sourceSymbols_length (bs : List Byte) : (sourceSymbols bs).length = bs.dedup.length + 1 := by
  simp [sourceSymbols]

theorem sourceSymbols_nodup (bs : List Byte) : (sourceSymbols bs).Nodup := by
  refine List.Nodup.append (bs.nodup_dedup.map literal_injective) (List.nodup_singleton _) ?_
  rw [List.disjoint_singleton, List.mem_map]
  exact fun ⟨b, _, hb⟩ => literal_ne_sentinel b hb

theorem literal_mem_sourceSymbols {bs : List Byte} {b : Byte} : literal b ∈ sourceSymbols bs ↔ b ∈ bs := by
  simp [sourceSymbols, literal_ne_sentinel, literal_injective.eq_iff]

theorem sentinel_mem_sourceSymbols (bs : List Byte) : sentinel ∈ sourceSymbols bs := by simp [sourceSymbols]

/-- The histogram of a source counts exactly its symbols (R131, R290). -/
theorem mem_sourceSymbols_iff {bs : List Byte} {freq : Vector Count 257}
    (hcount : ∀ b, freq[literal b].toNat = bs.count b) (hsent : freq[sentinel] = 1#32) (x : Symbol) :
    x ∈ sourceSymbols bs ↔ 0 < freq[x].toNat := by
  obtain ⟨b, rfl⟩ | rfl := eq_literal_or_eq_sentinel x
  · rw [literal_mem_sourceSymbols, hcount, List.count_pos_iff]
  · exact iff_of_true (sentinel_mem_sourceSymbols bs) (by rw [hsent]; decide)

/-- Building and generating gives exactly the counted symbols a codeword each (R162). -/
theorem runCommands_generate {s : State} {l : List Symbol} (hl : l.Nodup) (hm : ∀ x, x ∈ l ↔ 0 < s.freq[x].toNat)
    (hne : l ≠ []) :
    ∃ tree table ports, runCommands [.tbBuild, .ctGen] s = .next { s with tree, table, ports } ∧ TableInv table ∧
      table.nsym.toNat = l.length ∧ ∀ x, table.fwd[x] ≠ none ↔ x ∈ l := by
  have hne' := mt (presentSymbols_eq_nil_iff hl hm).mp hne
  obtain ⟨t, hall, h, hb, -, hleaf⟩ := mergeAll_initialTree s.freq hne'
  obtain ⟨ports, hrun⟩ := runCommands_tbBuild_ctGen hne' hall h hb
  have hperm := (leavesBelow_root_perm h hb hleaf).trans (presentSymbols_perm hl hm)
  exact ⟨t, generatedTable t, ports, hrun, generatedTable_inv h hb, (generatedTable_nsym h hb).trans hperm.length_eq,
    fun x => (generatedTable_fwd_ne_none h hb x).trans hperm.mem_iff⟩

/-- Steps 1 and 2 of the encode sequence leave a table of the source's symbols, whatever stood before (R290). -/
theorem runCommands_build (s : State) {bs : List Byte} (hw : s.cfg.cntW ≤ 32)
    (hfit : ∀ b, bs.count b ≤ s.cfg.cntMax) :
    ∃ freq tree table ports, runCommands (buildCommands bs) s = .next { s with freq, tree, table, ports } ∧
      TableInv table ∧ table.nsym.toNat = bs.dedup.length + 1 ∧
      ∀ x, table.fwd[x] ≠ none ↔ x ∈ sourceSymbols bs := by
  obtain ⟨freq, ports₀, hhist, hcount, hsent⟩ := runCommands_histogram s hw hfit
  obtain ⟨tree, table, ports, hgen, hinv, hnsym, hfwd⟩ :=
    runCommands_generate (s := { s with freq, ports := ports₀ }) (sourceSymbols_nodup bs)
      (mem_sourceSymbols_iff hcount hsent) (List.ne_nil_of_mem (sentinel_mem_sourceSymbols bs))
  exact ⟨freq, tree, table, ports, (runCommands_append hhist).trans hgen, hinv,
    hnsym.trans (sourceSymbols_length bs), hfwd⟩

/-! ## The bytes of a writing session -/

/-- A codeword has at least one bit (R33), so a symbol sequence has at least as many bits as symbols. -/
theorem length_le_codeStream_length {t : CodeTable} (h : TableInv t) {xs : List Symbol} {w : Bits}
    (hw : codeStream t xs = some w) : xs.length ≤ w.length := by
  induction xs generalizing w with
  | nil => exact Nat.zero_le _
  | cons x xs ih =>
    obtain ⟨c, v, hx, hv, rfl⟩ := codeStream_cons hw
    have hc : 1 ≤ c.length := (h.lengths _ ((h.consistent c x).mpr hx)).1
    have hxs := ih hv
    simp only [List.length_cons, List.length_append]
    omega

/-- A writing session always ends with the sentinel's codeword, so it emits at least one byte (R187). -/
theorem packed_ne_nil_of_write {s t : State} {xs : List Byte} {packed : List Byte} (h : TableInv s.table)
    (hcoded : ∀ x ∈ xs.map literal ++ [sentinel], s.table.fwd[x] ≠ none)
    (hrun : runCommands (writeCommands xs) s = .next t) (hout : t.out = s.out ++ packed) : packed ≠ [] := by
  obtain ⟨w, hw⟩ := Option.ne_none_iff_exists'.mp (codeStream_ne_none hcoded)
  obtain ⟨writer, ports, hwrite⟩ := runCommands_write hw
  obtain rfl := Host.Outcome.next.inj (hrun.symm.trans hwrite)
  obtain rfl : packedBytes w = packed := List.append_cancel_left hout
  have hbits := length_le_codeStream_length h hw
  rw [List.length_append, List.length_singleton] at hbits
  exact List.ne_nil_of_length_pos (by rw [packedBytes_length]; omega)

/-- Settles O40: the built table has a codeword for each byte of the source and the sentinel, so what is written with it
decodes to itself. -/
theorem encodedSourceDecodesToItself : Obligations.EncodedSourceDecodesToItself := by
  intro s xs hw hfit
  obtain ⟨freq, tree, table, ports, hbuild, hinv, hnsym, hfwd⟩ := runCommands_build s hw hfit
  have hlit : ∀ b ∈ xs, table.fwd[literal b] ≠ none := fun b hb => (hfwd _).mpr (literal_mem_sourceSymbols.mpr hb)
  have hsent : table.fwd[sentinel] ≠ none := (hfwd _).mpr (sentinel_mem_sourceSymbols xs)
  obtain ⟨t, packed, hwrite, hout, htable, hdecode⟩ :=
    writtenSymbolsDecodeToThemselves { s with freq, tree, table, ports } xs hinv hlit hsent
  have hne := packed_ne_nil_of_write hinv
    (List.forall_mem_append.mpr ⟨List.forall_mem_map.mpr hlit, List.forall_mem_singleton.mpr hsent⟩) hwrite hout
  refine ⟨t, packed, (runCommands_append hbuild).trans hwrite, hout, hne, htable ▸ hnsym, fun hroom => ?_⟩
  obtain ⟨u, hrun, hdec, hdone, -, htrunc, herr, hreply⟩ := hdecode hroom
  exact ⟨u, hrun, hdec, hdone, htrunc, herr, hreply⟩

end Sys2Proof.Machine
end
